-- ==== Sys2Proof/Word.lean ====
section
/-! DEFINITION. The machine's words: the 32-bit bus word, the byte of a buffer, and the 5-bit
field that holds a residue modulo 26 (00_scope.md R11). -/

namespace Sys2Proof

/-- A 32-bit bus word: a register's value, a command word, a window offset (R11, R60). -/
abbrev Word := BitVec 32

/-- A byte of `TXT`, `VKB` or `VOFF` (R11, R110). -/
abbrev Byte := BitVec 8

/-- The field [4:0] that stores a residue modulo 26 (R11). -/
abbrev Residue := BitVec 5

end Sys2Proof
end

