-- ==== Sys2Proof/Config.lean ====
section
/-! DEFINITION. What one implementation fixes (the OPEN parameters of 00_scope.md R9, R10 and
20_memory.md R67) and the free values of unwritten bytes (20_memory.md R77). The opaque constants
have no body, so a statement about them holds for every value the spec admits. -/

namespace Sys2Proof

/-- `TEXT_MAX` counted in twelves, less one: R9 makes `TEXT_MAX` a multiple of 12 from 12 to 4092.
-/
opaque Config.textUnits : Fin 341

/-- `TEXT_MAX`, the capacity of `TXT` in bytes (R9). OPEN parameter. -/
def Config.textMax : Nat := 12 * (Config.textUnits.val + 1)

/-- `VKEY_MAX` counted in fours, less one: R10 makes `VKEY_MAX` a multiple of 4 from 4 to 1024. -/
opaque Config.vkeyUnits : Fin 256

/-- `VKEY_MAX`, the capacity of `VKB` and of `VOFF` in bytes (R10). OPEN parameter. -/
def Config.vkeyMax : Nat := 4 * (Config.vkeyUnits.val + 1)

/-- `HV26_BASE`, where the platform places the window in its address space (20_memory.md R67).
OPEN parameter. -/
opaque Config.hv26Base : Nat

/-- FREE VALUE. The value a read of a byte that no write has set returns: the `i`-th such read of a
run takes `Config.draw i` (20_memory.md R77, D32; log entry 1). Nothing constrains it. -/
opaque Config.draw : Nat → Byte

/-- The constant the `ID` register reads (R2, R23). -/
def Config.idWord : Word := 0x48563236

/-- The constant the `PARAMS` register reads: `VKEY_MAX` above `TEXT_MAX` (R32). -/
def Config.paramsWord : Word := BitVec.ofNat 16 Config.vkeyMax ++ BitVec.ofNat 16 Config.textMax

end Sys2Proof
end

