-- ==== Sys2Proof/Syntax.lean ====
section
/-! DEFINITION. The command set (30_encoding.md R82): one constructor per row of the opcode map.
Operands are the numbers of the assembler syntax (R89), unsigned integers as the pseudocode reads
them (R13, R87); `WellFormed` holds the ranges of R89. -/

namespace Sys2Proof

/-- `SEL` of format M: which register file `MVMUL` multiplies by (R81). -/
inductive KeySel where
  | key      -- K, SEL = 0
  | inverse  -- KI, SEL = 1
deriving DecidableEq, Repr

/-- `DIR` of format V (R81). -/
inductive Dir where
  | enc  -- DIR = 0
  | dec  -- DIR = 1
deriving DecidableEq, Repr

/-- The commands, in the order of R82, each with the operands of its format (R81) in the order of
R89. -/
inductive Instr where
  | nop
  | clr
  | cenc (byte : Nat)
  | cdec (byte : Nat)
  | norm
  | gcd (a b : Nat)
  | minv26 (byte : Nat)
  | mac26 (a b c : Nat)
  | mkey (rows cols : Nat)
  | mvmul (sel : KeySel)
  | henc
  | hdec
  | vkey
  | vshift (pos : Nat) (v : Nat) (dir : Dir)
  | venc
  | vdec
  | pbuild (rows cols : Nat)
  | penc
  | pdec
deriving DecidableEq, Repr

end Sys2Proof
end

