-- ==== Sys2Proof/Machine/State.lean ====
section
/-! DEFINITION. The state of the core (10_state.md R20), the host's side of the bus (00_scope.md R4),
the state after reset (R51, R250), and the reasons a step can stop. -/

namespace Sys2Proof.Machine

/-- A 3×3 register file: element (i, j) is at index `3*i + j` (00_scope.md R18). -/
structure Mat (α : Type) where
  e0 : α
  e1 : α
  e2 : α
  e3 : α
  e4 : α
  e5 : α
  e6 : α
  e7 : α
  e8 : α
deriving DecidableEq, Repr

/-- A 3-element register file: `VIN` and `VOUT` (R43, R44). -/
structure Vec (α : Type) where
  e0 : α
  e1 : α
  e2 : α
deriving DecidableEq, Repr

/-- The bytes of one buffer that hold a defined value, each with its index in the buffer, in one
canonical form: indices strictly rising. What an unlisted element reads as is `Memory.unlisted`
(Ops.lean): no defined value (20_memory.md R77). -/
abbrev Memory := List Host.Cell

/-- The two agents (R4). -/
inductive Agent where
  | host
  | core
deriving DecidableEq, Repr

/-- What the host does at its turn (70_reset_and_hazards.md R256, 30_encoding.md R90). Offsets are
relative to the window base; only bits [12:0] are decoded (20_memory.md R62). -/
inductive HostOp where
  /-- `rd off -> name`: one `MemRead(off, 4)`, naming the value read. -/
  | read (off : Word) (name : String)
  /-- `wr off, v`: one `MemWrite(off, 4, v)`. -/
  | write (off : Word) (value : Word)
  /-- `wait`: read `STATUS`, again and again until bit 0 reads 0. -/
  | wait
  /-- The reset input `rst_n` asserted and released (R250). -/
  | reset
deriving DecidableEq, Repr

/-- The answer of the ports to a transaction (20_memory.md R78): `err` is the bus error response of a
misaligned offset (R62, 60_exceptions.md R228). A write is answered with no read data, since R78
gives `rdata` no value in answer to one. -/
inductive BusAnswer where
  /-- The answer to a read: `rdata` and `err`. -/
  | read (rdata : Word) (err : Bool)
  /-- The answer to a write: `err`. -/
  | written (err : Bool)
deriving DecidableEq, Repr

/-- The whole state. The first group is the spec's own (R20; `ID` and `PARAMS` are constants of
Config; `STATUS.BUSY` and `STATUS.PIPE_VALID` are derived in Flags.lean). The second group is the
model's: the free-value counter and the host's side. -/
structure State where
  /-- `STATUS.MKEY_VALID` (R27). -/
  mkeyValid : Bool
  /-- `STATUS.VKEY_VALID` (R28). -/
  vkeyValid : Bool
  /-- `STATUS.ERR` (R30). -/
  err : BitVec 4
  /-- `STATUS.N` (R31). -/
  n : BitVec 2
  /-- `RESULT` (R33). -/
  result : Word
  /-- `ERRINFO` (R34). -/
  errinfo : Word
  /-- `DET[4:0]` (R35). -/
  det : Residue
  /-- `DETINV[4:0]` (R36). -/
  detinv : Residue
  /-- `TLEN[12:0]` (R37). -/
  tlen : BitVec 13
  /-- `VKLEN[10:0]` (R38). -/
  vklen : BitVec 11
  /-- `VOFFLEN[10:0]` (R39). -/
  vofflen : BitVec 11
  /-- `KIN[0..8]` (R40). -/
  kin : Mat Word
  /-- `K[0..8]`, bits [4:0] (R41). -/
  k : Mat Residue
  /-- `KI[0..8]`, bits [4:0] (R42). -/
  ki : Mat Residue
  /-- `VIN[0..2]` (R43). -/
  vin : Vec Word
  /-- `VOUT[0..2]`, bits [4:0] (R44). -/
  vout : Vec Residue
  /-- `VKB[0..VKEY_MAX-1]` (R45). -/
  vkb : Memory
  /-- `VOFF[0..VKEY_MAX-1]` (R46). -/
  voff : Memory
  /-- `TXT[0..TEXT_MAX-1]` (R47). -/
  txt : Memory
  /-- `PENDING`: empty, or the command word (R48). -/
  pending : Option Word
  /-- `FAULT`, the mark that the host broke the busy rule (R49). Never cleared. -/
  faultMark : Bool
  /-- MODEL: how many free bytes have been read so far (R77; log entry 1). -/
  draws : Nat
  /-- MODEL: the answer to the host's latest transaction since reset (R78; log entry 3). -/
  bus : Option BusAnswer
  /-- MODEL: the host's named values, oldest first (30_encoding.md R90; log entry 3). -/
  reads : List (String × Word)
  /-- MODEL: what the host has still to do, next first (R4, R90; log entry 3). -/
  host : List HostOp
  /-- MODEL: the schedule, which agent moves next, next first (R4, D17; log entry 2). -/
  turns : List Agent
deriving DecidableEq, Repr

/-- All nine elements 0. -/
def Mat.zero {w : Nat} : Mat (BitVec w) := ⟨0, 0, 0, 0, 0, 0, 0, 0, 0⟩

/-- All three elements 0. -/
def Vec.zero {w : Nat} : Vec (BitVec w) := ⟨0, 0, 0⟩

/-- The state after reset (R51, R250, R251), `FAULT` clear (R252). No byte of a buffer holds a
defined value (R77). The host has nothing to do and the schedule is empty (log entries 2, 3). -/
def State.reset : State where
  mkeyValid := false
  vkeyValid := false
  err := 0
  n := 0
  result := 0
  errinfo := 0
  det := 0
  detinv := 0
  tlen := 0
  vklen := 0
  vofflen := 0
  kin := Mat.zero
  k := Mat.zero
  ki := Mat.zero
  vin := Vec.zero
  vout := Vec.zero
  vkb := []
  voff := []
  txt := []
  pending := none
  faultMark := false
  draws := 0
  bus := none
  reads := []
  host := []
  turns := []

/-- The model's faults (60_exceptions.md R227: one). -/
inductive Fault where
  /-- `HostHazard`: the host made a transaction other than an aligned read of `ID` or `STATUS` while
  `PENDING` was not empty (70_reset_and_hazards.md R257). Raised by Bus.lean's transactions, and
  again by `step` in a state whose `FAULT` is set. It carries the state with `FAULT` set (R49); that
  state's other fields say nothing of the hardware, whose outcome is unspecified. SAFE: the model
  stops where the hardware goes on in an unspecified way (log entry 4). -/
  | hostHazard (marked : State)
deriving DecidableEq, Repr

/-- The model's refusals. The spec has none (R227: "There are no refusals of command words"). -/
inductive Refusal where
  /-- A command that has no meaning in the model: raised by `exec`'s refused arms only, and there
  are none. SAFE: the model stops. -/
  | notModelled (mnemonic : String)
deriving DecidableEq, Repr

end Sys2Proof.Machine
end

