-- ==== Sys2Proof/Machine/Ops.lean ====
section
/-! DEFINITION. The named operations on register files and on the bytes of a buffer, and the two
ways a command ends: `complete` and `raise` (00_scope.md R16). -/

namespace Sys2Proof.Machine

/-! Register files. -/

/-- Element `idx` of a nine-element register file. -/
def Mat.get {α : Type} (m : Mat α) (idx : Fin 9) : α :=
  match idx with
  | 0 => m.e0
  | 1 => m.e1
  | 2 => m.e2
  | 3 => m.e3
  | 4 => m.e4
  | 5 => m.e5
  | 6 => m.e6
  | 7 => m.e7
  | 8 => m.e8

/-- The register file whose element `idx` is `f idx`. -/
def Mat.ofFn {α : Type} (f : Fin 9 → α) : Mat α :=
  ⟨f 0, f 1, f 2, f 3, f 4, f 5, f 6, f 7, f 8⟩

/-- The register file with element `idx` replaced by `v`. -/
def Mat.set {α : Type} (m : Mat α) (idx : Fin 9) (v : α) : Mat α :=
  Mat.ofFn fun i => if i = idx then v else m.get i

/-- Element (i, j), at index `3*i + j` (R18). -/
def Mat.at {α : Type} (m : Mat α) (i j : Fin 3) : α := m.get ⟨3 * i.val + j.val, by omega⟩

/-- Element `idx` of a three-element register file. -/
def Vec.get {α : Type} (v : Vec α) (idx : Fin 3) : α :=
  match idx with
  | 0 => v.e0
  | 1 => v.e1
  | 2 => v.e2

/-- The register file with element `idx` replaced by `x`. -/
def Vec.set {α : Type} (v : Vec α) (idx : Fin 3) (x : α) : Vec α :=
  match idx with
  | 0 => { v with e0 := x }
  | 1 => { v with e1 := x }
  | 2 => { v with e2 := x }

/-- The elements in index order. -/
def Vec.toList {α : Type} (v : Vec α) : List α := [v.e0, v.e1, v.e2]

/-! The bytes of a buffer. -/

/-- What an element that is not listed reads as: no defined value (20_memory.md R77), so that its
read takes a free value (log entry 1). -/
def Memory.unlisted : Option Byte := none

/-- The defined value of element `a`, if it has one. -/
def Memory.lookup : Memory → Nat → Option Byte
  | [], _ => Memory.unlisted
  | (i, b) :: rest, a => if i = a then some b else Memory.lookup rest a

/-- Store byte `b` in element `a`, keeping the indices strictly rising. -/
def Memory.store : Memory → Nat → Byte → Memory
  | [], a, b => [(a, b)]
  | (i, c) :: rest, a, b =>
    if a < i then (a, b) :: (i, c) :: rest
    else if a = i then (a, b) :: rest
    else (i, c) :: Memory.store rest a b

/-- Store the bytes `bs` in elements `a`, `a + 1`, … -/
def Memory.storeList : Memory → Nat → List Byte → Memory
  | m, _, [] => m
  | m, a, b :: bs => Memory.storeList (Memory.store m a b) (a + 1) bs

/-- Exactly the bytes `bs`, in elements `a`, `a + 1`, …; every other element holds no defined
value. -/
def Memory.ofBytes : Nat → List Byte → Memory
  | _, [] => []
  | a, b :: bs => (a, b) :: Memory.ofBytes (a + 1) bs

/-- The canonical form: indices strictly rising (no listed element can equal `Memory.unlisted`,
which is no byte). -/
def Memory.wf : Memory → Bool
  | [] => true
  | [_] => true
  | (i, _) :: (j, c) :: rest => decide (i < j) && Memory.wf ((j, c) :: rest)

/-- Every listed index is below the capacity `cap`. -/
def Memory.below (cap : Nat) (m : Memory) : Bool := m.all fun c => decide (c.1 < cap)

/-- Read element `a`, the free-value counter being `d`: the byte, and the counter after. A byte with
no defined value reads as a fresh free value, `Config.draw d` (R77). -/
def Memory.readByte (m : Memory) (a d : Nat) : Byte × Nat :=
  match Memory.lookup m a with
  | some b => (b, d)
  | none => (Config.draw d, d + 1)

/-- Read `len` elements from `a` on, in rising order. -/
def Memory.readBytes (m : Memory) : Nat → Nat → Nat → List Byte × Nat
  | _, 0, d => ([], d)
  | a, len + 1, d =>
    let (b, d1) := Memory.readByte m a d
    let (bs, d2) := Memory.readBytes m (a + 1) len d1
    (b :: bs, d2)

/-- Every element from `a` to `a + len - 1` holds a defined value: reading them takes no free
value. -/
def Memory.defined (m : Memory) (a len : Nat) : Bool :=
  (List.range len).all fun j => (Memory.lookup m (a + j)).isSome

/-! How a command ends (00_scope.md R16). -/

/-- The errors a command can report (60_exceptions.md R221). -/
inductive ErrCode where
  | invalidKeyShape
  | singularKey
  | emptyKey
  | noModularInverse
  | malformedBlockLength
  | notConfigured
  | illegalCommand
  | operandRange
deriving DecidableEq, Repr

/-- The codes of R221. -/
def ErrCode.code : ErrCode → BitVec 4
  | .invalidKeyShape => 1
  | .singularKey => 2
  | .emptyKey => 3
  | .noModularInverse => 4
  | .malformedBlockLength => 5
  | .notConfigured => 6
  | .illegalCommand => 7
  | .operandRange => 8

/-- `raise E(info)` (R16, R220, R225): the one way an error is taken. It writes `STATUS.ERR` and
`ERRINFO`; `RESULT` and everything else stand. The core has no trap entry and no return from one
(R230, R231). -/
def State.raise (s : State) (e : ErrCode) (info : Word) : State :=
  { s with err := e.code, errinfo := info }

/-- `complete(result)` (R16, R223). -/
def State.complete (s : State) (result : Word) : State :=
  { s with err := 0, errinfo := 0, result := result }

/-- `complete()`: `RESULT` unchanged (R16). -/
def State.completeKeep (s : State) : State :=
  { s with err := 0, errinfo := 0 }

end Sys2Proof.Machine
end

