-- ==== Sys2Proof/Machine/Flags.lean ====
section
/-! DEFINITION. The fields of `STATUS` and the word they make up (10_state.md R25 to R31). -/

namespace Sys2Proof.Machine

/-- `STATUS.BUSY`: a command is pending (R26). -/
def State.busy (s : State) : Bool := s.pending.isSome

/-- `STATUS.PIPE_VALID`: `MKEY_VALID AND VKEY_VALID` (R29). -/
def State.pipeValid (s : State) : Bool := s.mkeyValid && s.vkeyValid

/-- The word `STATUS` reads (R25): N in [9:8], ERR in [7:4], PIPE_VALID, VKEY_VALID, MKEY_VALID and
BUSY in [3:0]; [31:10] read 0. -/
def State.statusWord (s : State) : Word :=
  0#22 ++ s.n ++ s.err ++ BitVec.ofBool s.pipeValid ++ BitVec.ofBool s.vkeyValid ++
    BitVec.ofBool s.mkeyValid ++ BitVec.ofBool s.busy

/-- The detail of NotConfigured: bit 0 is `MKEY_VALID`, bit 1 is `VKEY_VALID` (R222). -/
def State.keyFlags (s : State) : Word :=
  0#30 ++ BitVec.ofBool s.vkeyValid ++ BitVec.ofBool s.mkeyValid

end Sys2Proof.Machine
end

