-- ==== Sys2Proof/Machine/Operands.lean ====
section
/-! DEFINITION. How a command reads its operands and writes its text (10_state.md R22, R40, R43;
41_alphabet_codec.md R116). -/

namespace Sys2Proof.Machine

/-- The state after a read that left the free-value counter at `d`. -/
def State.withDraws (s : State) (d : Nat) : State := { s with draws := d }

/-- `sext_32(KIN[idx])` (R40). -/
def kinEntry (kin : Mat Word) (idx : Fin 9) : Int := (kin.get idx).toInt

/-- `STATUS.N` as a number. -/
def State.order (s : State) : Nat := s.n.toNat

/-- `VIN[0..n-1]`, unsigned (R43, R158). -/
def State.vinUsed (s : State) : List Nat := (s.vin.toList.take s.order).map BitVec.toNat

/-- `text_in()`: `TXT[0..TLEN-1]`, and the state after, in which only the free-value counter may
have moved (R116). -/
def State.textIn (s : State) : List Byte × State :=
  let (bs, d) := Memory.readBytes s.txt 0 s.tlen.toNat s.draws
  (bs, s.withDraws d)

/-- `text_out(bs)`: `TXT[0..|bs|-1]` hold `bs`, every later byte of `TXT` is unspecified, and `TLEN`
is `|bs|` (R116). -/
def State.textOut (s : State) (bs : List Byte) : State :=
  { s with txt := Memory.ofBytes 0 bs, tlen := BitVec.ofNat 13 bs.length }

/-- `VKB[0..VKLEN-1]`, the raw substitution key, and the state after (R181). -/
def State.keyIn (s : State) : List Byte × State :=
  let (bs, d) := Memory.readBytes s.vkb 0 s.vklen.toNat s.draws
  (bs, s.withDraws d)

/-- `VOFF[0..VOFFLEN-1]`, the cached offsets, and the state after (R46, R183). -/
def State.offsets (s : State) : List Nat × State :=
  let (bs, d) := Memory.readBytes s.voff 0 s.vofflen.toNat s.draws
  (bs.map BitVec.toNat, s.withDraws d)

/-- `VOFF[idx]`, and the state after (R185). -/
def State.offsetAt (s : State) (idx : Nat) : Nat × State :=
  let (b, d) := Memory.readByte s.voff idx s.draws
  (b.toNat, s.withDraws d)

end Sys2Proof.Machine
end

