-- ==== Sys2Proof/Machine/Control.lean ====
section
/-! DEFINITION. The control commands NOP and CLR (40_control.md). -/

namespace Sys2Proof.Machine

/-- Every register and field of R51 except `ID`, `PARAMS`, `VKB`, `TXT` and `PENDING` at its reset
value (R102). The `VOFF` storage is not cleared and `FAULT` stands. -/
def State.clearRegisters (s : State) : State :=
  { s with
    mkeyValid := State.reset.mkeyValid
    vkeyValid := State.reset.vkeyValid
    err := State.reset.err
    n := State.reset.n
    result := State.reset.result
    errinfo := State.reset.errinfo
    det := State.reset.det
    detinv := State.reset.detinv
    tlen := State.reset.tlen
    vklen := State.reset.vklen
    vofflen := State.reset.vofflen
    kin := State.reset.kin
    k := State.reset.k
    ki := State.reset.ki
    vin := State.reset.vin
    vout := State.reset.vout }

/-- `NOP` (R101). -/
def execNop (s : State) : Host.Outcome State Fault Refusal := .next s.completeKeep

/-- `CLR` (R102). -/
def execClr (s : State) : Host.Outcome State Fault Refusal := .next (s.clearRegisters.complete 0)

end Sys2Proof.Machine
end

