-- ==== Sys2Proof/Machine/Arith.lean ====
section
/-! DEFINITION. The modular arithmetic units: the functions of 42_modular_arith.md R131 to R133 and
the commands GCD, MINV26, MAC26. -/

namespace Sys2Proof.Machine

/-- `mac26(acc, a, b)` (R131). -/
def mac26 (acc a b : Nat) : Nat := (acc + a * b) % 26

/-- `coprime26(d)` (R132). `Nat.gcd` is the Euclidean algorithm of R132, with `gcd(0, 0) = 0`. -/
def coprime26 (d : Nat) : Bool := Nat.gcd d 26 == 1

/-- `minv26(a)` (R133): the first `x` in 1..25 with `(a * x) mod 26 = 1`, if there is one. -/
def minv26 (a : Nat) : Option Nat :=
  (List.range' 1 25).find? fun x => (a * x) % 26 == 1

/-- `GCD a, b` (R134). -/
def execGcd (a b : Nat) (s : State) : Host.Outcome State Fault Refusal :=
  let g := Nat.gcd a b
  .next (s.complete (0#23 ++ BitVec.ofBool (g == 1) ++ BitVec.ofNat 8 g))

/-- `MINV26 a` (R135). A residue with no inverse is no error. -/
def execMinv26 (byte : Nat) (s : State) : Host.Outcome State Fault Refusal :=
  if 26 ≤ byte then
    .next (s.raise .operandRange (BitVec.ofNat 32 byte))
  else
    match minv26 byte with
    | some x => .next (s.complete (0#23 ++ 1#1 ++ 0#3 ++ BitVec.ofNat 5 x))
    | none => .next (s.complete 0)

/-- `MAC26 a, b, c` (R136): the first offending field in the order A, B, C is reported. -/
def execMac26 (a b c : Nat) (s : State) : Host.Outcome State Fault Refusal :=
  if 26 ≤ a then .next (s.raise .operandRange (BitVec.ofNat 32 a))
  else if 26 ≤ b then .next (s.raise .operandRange (BitVec.ofNat 32 b))
  else if 26 ≤ c then .next (s.raise .operandRange (BitVec.ofNat 32 c))
  else .next (s.complete (BitVec.ofNat 32 (mac26 c a b)))

end Sys2Proof.Machine
end

