-- ==== Sys2Proof/Machine/Codec.lean ====
section
/-! DEFINITION. The alphabet codec and normalisation: the functions of 41_alphabet_codec.md R111 to
R115 and the commands CENC, CDEC, NORM. -/

namespace Sys2Proof.Machine

/-- `is_letter(b)` (R111). -/
def isLetter (b : Byte) : Bool :=
  (decide (0x41 ≤ b.toNat) && decide (b.toNat ≤ 0x5A)) ||
    (decide (0x61 ≤ b.toNat) && decide (b.toNat ≤ 0x7A))

/-- `upper(b)` (R112). -/
def upper (b : Byte) : Byte :=
  if 0x61 ≤ b.toNat ∧ b.toNat ≤ 0x7A then b - 0x20 else b

/-- `codec_enc(b)` of a letter (R113). -/
def codecEnc (b : Byte) : Nat := (upper b).toNat - 0x41

/-- `codec_dec(v)` of a residue (R114). -/
def codecDec (v : Nat) : Byte := BitVec.ofNat 8 (0x41 + v)

/-- `normalize(s)`: the letters of `s`, uppercased, in their order (R115). -/
def normalizeText : List Byte → List Byte
  | [] => []
  | b :: bs => if isLetter b then upper b :: normalizeText bs else normalizeText bs

/-- `CENC byte` (R117). -/
def execCenc (byte : Nat) (s : State) : Host.Outcome State Fault Refusal :=
  let b : Byte := BitVec.ofNat 8 byte
  if isLetter b then
    .next (s.complete (0#23 ++ 1#1 ++ 0#3 ++ BitVec.ofNat 5 (codecEnc b)))
  else
    .next (s.complete 0)

/-- `CDEC byte` (R118). -/
def execCdec (byte : Nat) (s : State) : Host.Outcome State Fault Refusal :=
  if 26 ≤ byte then
    .next (s.raise .operandRange (BitVec.ofNat 32 byte))
  else
    .next (s.complete (0#24 ++ codecDec byte))

/-- `NORM` (R119). -/
def execNorm (s : State) : Host.Outcome State Fault Refusal :=
  let (text, s1) := s.textIn
  let t := normalizeText text
  .next ((s1.textOut t).complete (BitVec.ofNat 32 t.length))

end Sys2Proof.Machine
end

