-- ==== Sys2Proof/Machine/Matrix.lean ====
section
/-! DEFINITION. The matrix cipher: key validation and inverse (43_matrix_cipher.md R151 to R155),
matrix–vector multiplication (R157, R158), block encryption and decryption (R159 to R164). -/

namespace Sys2Proof.Machine

/-- Row and column of index `idx` lie in the n×n block (R18). -/
def inBlock (n : Nat) (idx : Fin 9) : Bool := decide (idx.val / 3 < n) && decide (idx.val % 3 < n)

/-- An exact integer reduced by the floor modulo 26 (R15, R130). -/
def residueOf (x : Int) : Residue := BitVec.ofNat 5 (x % 26).toNat

/-- `det(k, n)`, the exact integer determinant (R151). -/
def det (k : Mat Int) (n : Nat) : Int :=
  if n = 2 then k.e0 * k.e4 - k.e1 * k.e3
  else
    k.e0 * (k.e4 * k.e8 - k.e5 * k.e7) - k.e1 * (k.e3 * k.e8 - k.e5 * k.e6) +
      k.e2 * (k.e3 * k.e7 - k.e4 * k.e6)

/-- `adj(k, n)`, the adjugate, exact integers (R152). For n = 2 the elements outside the block are
0; nothing reads them. -/
def adj (k : Mat Int) (n : Nat) : Mat Int :=
  if n = 2 then ⟨k.e4, -k.e1, 0, -k.e3, k.e0, 0, 0, 0, 0⟩
  else
    ⟨k.e4 * k.e8 - k.e5 * k.e7, k.e2 * k.e7 - k.e1 * k.e8, k.e1 * k.e5 - k.e2 * k.e4,
     k.e5 * k.e6 - k.e3 * k.e8, k.e0 * k.e8 - k.e2 * k.e6, k.e2 * k.e3 - k.e0 * k.e5,
     k.e3 * k.e7 - k.e4 * k.e6, k.e1 * k.e6 - k.e0 * k.e7, k.e0 * k.e4 - k.e1 * k.e3⟩

/-- What `mkey_eval` answers on success: `Ok(n, k, ki, d, di)` (R153), the elements outside the n×n
block 0 as `install_mkey` writes them (R154). -/
structure MatrixKey where
  n : Nat
  k : Mat Residue
  ki : Mat Residue
  d : Nat
  di : Nat
deriving DecidableEq, Repr

/-- The residues of a register file as integers. -/
def matInt (m : Mat Residue) : Mat Int := Mat.ofFn fun idx => ((m.get idx).toNat : Int)

/-- The n×n block of `KIN` reduced modulo 26, 0 elsewhere (R153, R154). -/
def reduceKin (kin : Mat Word) (n : Nat) : Mat Residue :=
  Mat.ofFn fun idx => if inBlock n idx then residueOf (kinEntry kin idx) else 0

/-- `(di * adj(k, n)) mod 26` in the n×n block, 0 elsewhere (R153, R154). -/
def invertKey (k : Mat Residue) (n di : Nat) : Mat Residue :=
  Mat.ofFn fun idx =>
    if inBlock n idx then residueOf ((di : Int) * (adj (matInt k) n).get idx) else 0

/-- The detail of InvalidKeyShape: ROWS in [7:4], COLS in [3:0] (R222). -/
def shapeInfo (rows cols : Nat) : Word := 0#24 ++ BitVec.ofNat 4 rows ++ BitVec.ofNat 4 cols

/-- The detail of SingularKey: the gcd in [15:8], the determinant in [4:0] (R222). -/
def singularInfo (g d : Nat) : Word := 0#16 ++ BitVec.ofNat 8 g ++ 0#3 ++ BitVec.ofNat 5 d

/-- `mkey_eval(ROWS, COLS)` (R153). The NoModularInverse branch is unreachable (R226) and kept. -/
def mkeyEval (rows cols : Nat) (kin : Mat Word) : Except (ErrCode × Word) MatrixKey :=
  if rows = cols ∧ (rows = 2 ∨ rows = 3) then
    let k := reduceKin kin rows
    let d := (det (matInt k) rows % 26).toNat
    let g := Nat.gcd d 26
    if d = 0 ∨ g ≠ 1 then .error (.singularKey, singularInfo g d)
    else
      match minv26 d with
      | none => .error (.noModularInverse, BitVec.ofNat 32 d)
      | some di => .ok ⟨rows, k, invertKey k rows di, d, di⟩
  else .error (.invalidKeyShape, shapeInfo rows cols)

/-- `clear_mkey()` (R154). -/
def State.clearMkey (s : State) : State :=
  { s with
    k := Mat.zero, ki := Mat.zero, det := 0, detinv := 0, n := 0, mkeyValid := false }

/-- `install_mkey(n, k, ki, d, di)` (R154). -/
def State.installMkey (s : State) (key : MatrixKey) : State :=
  { s with
    k := key.k, ki := key.ki, det := BitVec.ofNat 5 key.d, detinv := BitVec.ofNat 5 key.di
    n := BitVec.ofNat 2 key.n, mkeyValid := true }

/-- `MKEY`'s result: DETINV in [12:8], DET in [4:0] (R155, R223). -/
def State.mkeyResult (s : State) : Word := 0#16 ++ 0#3 ++ s.detinv ++ 0#3 ++ s.det

/-- `MKEY rows, cols` (R155). -/
def execMkey (rows cols : Nat) (s : State) : Host.Outcome State Fault Refusal :=
  match mkeyEval rows cols s.kin with
  | .error (e, info) => .next (s.clearMkey.raise e info)
  | .ok key =>
    let s1 := s.installMkey key
    .next (s1.complete s1.mkeyResult)

/-! Matrix–vector multiplication (R157). -/

/-- One element of the product: the chain `acc <- mac26(acc, M[3*i + j], v[j])`, j from 0 (R157). -/
def mvRow : Nat → List Nat → List Nat → Nat
  | acc, m :: ms, x :: xs => mvRow (mac26 acc m x) ms xs
  | acc, _, _ => acc

/-- The first `n` rows of a register file, each with its first `n` elements, as numbers (R18). -/
def matRows (m : Mat Residue) (n : Nat) : List (List Nat) :=
  ([[m.e0, m.e1, m.e2], [m.e3, m.e4, m.e5], [m.e6, m.e7, m.e8]].take n).map
    fun row => (row.take n).map BitVec.toNat

/-- `mvmul(M, v, n)` for a vector `v` of `n` residues (R157). -/
def mvmul (m : Mat Residue) (v : List Nat) (n : Nat) : List Nat :=
  (matRows m n).map fun row => mvRow 0 row v

/-- The register file `SEL` selects (R81). -/
def State.selected (s : State) : KeySel → Mat Residue
  | .key => s.k
  | .inverse => s.ki

/-- `VOUT[i] <- (i < n) ? w[i] : 0` for i in 0..2 (R158). -/
def State.setVout (s : State) (w : List Nat) : State :=
  { s with vout :=
      ⟨BitVec.ofNat 5 (w.getD 0 0), BitVec.ofNat 5 (w.getD 1 0), BitVec.ofNat 5 (w.getD 2 0)⟩ }

/-- `MVMUL`'s result: `VOUT[2]`, `VOUT[1]`, `VOUT[0]`, a byte each (R158, R223). -/
def State.voutWord (s : State) : Word :=
  0#8 ++ (0#3 ++ s.vout.e2) ++ (0#3 ++ s.vout.e1) ++ (0#3 ++ s.vout.e0)

/-- `MVMUL K` / `MVMUL KI` (R158). DESIGN CHOICE (log entry 8), in states no run reaches (R50): with
order 0 or 1 it reads that many elements of `VIN` and the other elements of `VOUT` are 0. -/
def execMvmul (sel : KeySel) (s : State) : Host.Outcome State Fault Refusal :=
  if s.mkeyValid then
    match s.vinUsed.find? (fun x => decide (26 ≤ x)) with
    | some x => .next (s.raise .operandRange (BitVec.ofNat 32 x))
    | none =>
      let s1 := s.setVout (mvmul (s.selected sel) s.vinUsed s.order)
      .next (s1.complete s1.voutWord)
  else .next (s.raise .notConfigured s.keyFlags)

/-! Block encryption and decryption (R159 to R164). -/

/-- `pad(t, n)`: right-pad with 'X' to a multiple of `n` (R159). DESIGN CHOICE (log entry 8), in states
no run reaches (R50): with `n` 0 or 1 nothing is added. -/
def pad (t : List Byte) (n : Nat) : List Byte := t ++ List.replicate ((n - t.length % n) % n) 0x58

/-- One block through the matrix (R160). -/
def hillBlock (m : Mat Residue) (n : Nat) (block : List Byte) : List Byte :=
  (mvmul m (block.map codecEnc) n).map codecDec

/-- `count` consecutive blocks of `n` letters through the matrix (R160). -/
def hillRun (m : Mat Residue) (n : Nat) : Nat → List Byte → List Byte
  | 0, _ => []
  | count + 1, t => hillBlock m n (t.take n) ++ hillRun m n count (t.drop n)

/-- `hill_blocks(M, t, n)` (R160). DESIGN CHOICE (log entry 8), in states no run reaches (R50): with `n`
0 there is no block and the text is empty, with `n` 1 each letter is a block. -/
def hillBlocks (m : Mat Residue) (t : List Byte) (n : Nat) : List Byte :=
  hillRun m n (t.length / n) t

/-- `hill_enc(s)` (R161). -/
def State.hillEnc (s : State) (text : List Byte) : List Byte :=
  hillBlocks s.k (pad (normalizeText text) s.order) s.order

/-- `HENC` (R162). -/
def execHenc (s : State) : Host.Outcome State Fault Refusal :=
  if s.mkeyValid then
    let (text, s1) := s.textIn
    let out := s.hillEnc text
    .next ((s1.textOut out).complete (BitVec.ofNat 32 out.length))
  else .next (s.raise .notConfigured s.keyFlags)

/-- `HDEC` (R164). DESIGN CHOICE (log entry 8), in states no run reaches (R50): with order 0 every text
with a letter is malformed, as `t mod 0` is `t`. -/
def execHdec (s : State) : Host.Outcome State Fault Refusal :=
  if s.mkeyValid then
    let (text, s1) := s.textIn
    let t := normalizeText text
    if t.length % s.order = 0 then
      let out := hillBlocks s.ki t s.order
      .next ((s1.textOut out).complete (BitVec.ofNat 32 out.length))
    else .next (s1.raise .malformedBlockLength (BitVec.ofNat 32 t.length))
  else .next (s.raise .notConfigured s.keyFlags)

end Sys2Proof.Machine
end

