-- ==== Sys2Proof/Machine/Substitution.lean ====
section
/-! DEFINITION. Polyalphabetic substitution: key construction (44_substitution.md R181), the
substitution functions (R183, R184) and the commands VKEY, VSHIFT, VENC, VDEC. -/

namespace Sys2Proof.Machine

/-- The offsets of a raw key: one for each of its letters (R181). -/
def keyOffsets (key : List Byte) : List Nat := (normalizeText key).map codecEnc

/-- The detail of EmptyKey: `VKLEN` (R222). -/
def State.emptyKeyInfo (s : State) : Word := 0#21 ++ s.vklen

/-- `clear_vkey()`: the `VOFF` storage is untouched (R181). -/
def State.clearVkey (s : State) : State := { s with vofflen := 0, vkeyValid := false }

/-- `install_vkey(o)` (R181). -/
def State.installVkey (s : State) (o : List Nat) : State :=
  { s with
    voff := Memory.storeList s.voff 0 (o.map (BitVec.ofNat 8))
    vofflen := BitVec.ofNat 11 o.length
    vkeyValid := true }

/-- `VKEY` (R182). -/
def execVkey (s : State) : Host.Outcome State Fault Refusal :=
  let (key, s1) := s.keyIn
  match keyOffsets key with
  | [] => .next (s1.clearVkey.raise .emptyKey s.emptyKeyInfo)
  | o :: os =>
    let s2 := s1.installVkey (o :: os)
    .next (s2.complete (0#21 ++ s2.vofflen))

/-- One substitution step on residues: `(v + o) mod 26`, or `(v - o + 26) mod 26` by the floor
modulo (R183 to R185). -/
def shiftResidue (dir : Dir) (v o : Nat) : Nat :=
  match dir with
  | .enc => (v + o) % 26
  | .dec => (((v : Int) - (o : Int) + 26) % 26).toNat

/-- The substitution of the letters of `t`, the first at position `i`, by the offsets `o` (R183,
R184). DESIGN CHOICE (log entry 8), in states no run reaches (R50): with no offsets each is 0. -/
def vigRun (dir : Dir) (o : List Nat) : Nat → List Byte → List Byte
  | _, [] => []
  | i, b :: bs =>
    codecDec (shiftResidue dir (codecEnc b) (o.getD (i % o.length) 0)) :: vigRun dir o (i + 1) bs

/-- `vig_enc(t)` with the offsets `o` (R183). -/
def vigEnc (o : List Nat) (t : List Byte) : List Byte := vigRun .enc o 0 t

/-- `vig_dec(t)` with the offsets `o` (R184). -/
def vigDec (o : List Nat) (t : List Byte) : List Byte := vigRun .dec o 0 t

/-- `VSHIFT pos, v, ENC|DEC` (R185). DESIGN CHOICE (log entry 8), in states no run reaches (R50): with
`VOFFLEN` 0 the index `pos mod VOFFLEN` is `pos` itself, so the offset is the byte `VOFF[pos]`, a
free value where that element holds none. -/
def execVshift (pos v : Nat) (dir : Dir) (s : State) : Host.Outcome State Fault Refusal :=
  if s.vkeyValid then
    if 26 ≤ v then .next (s.raise .operandRange (BitVec.ofNat 32 v))
    else
      let (o, s1) := s.offsetAt (pos % s.vofflen.toNat)
      .next (s1.complete (0#27 ++ BitVec.ofNat 5 (shiftResidue dir v o)))
  else .next (s.raise .notConfigured s.keyFlags)

/-- `VENC` (R186). -/
def execVenc (s : State) : Host.Outcome State Fault Refusal :=
  if s.vkeyValid then
    let (text, s1) := s.textIn
    let (o, s2) := s1.offsets
    let out := vigEnc o (normalizeText text)
    .next ((s2.textOut out).complete (BitVec.ofNat 32 out.length))
  else .next (s.raise .notConfigured s.keyFlags)

/-- `VDEC` (R187). -/
def execVdec (s : State) : Host.Outcome State Fault Refusal :=
  if s.vkeyValid then
    let (text, s1) := s.textIn
    let (o, s2) := s1.offsets
    let out := vigDec o (normalizeText text)
    .next ((s2.textOut out).complete (BitVec.ofNat 32 out.length))
  else .next (s.raise .notConfigured s.keyFlags)

end Sys2Proof.Machine
end

