-- ==== Sys2Proof/Machine/Pipeline.lean ====
section
/-! DEFINITION. The cipher pipeline: PBUILD, PENC, PDEC (45_pipeline.md). -/

namespace Sys2Proof.Machine

/-- `PBUILD`'s result: VOFFLEN in [31:16], DETINV in [12:8], DET in [4:0] (R201, R223). -/
def State.pbuildResult (s : State) : Word :=
  (0#5 ++ s.vofflen) ++ 0#3 ++ s.detinv ++ 0#3 ++ s.det

/-- `PBUILD rows, cols` (R201): the matrix key first, the substitution key only if that succeeds;
any failure clears both. -/
def execPbuild (rows cols : Nat) (s : State) : Host.Outcome State Fault Refusal :=
  match mkeyEval rows cols s.kin with
  | .error (e, info) => .next (s.clearMkey.clearVkey.raise e info)
  | .ok key =>
    let (raw, s1) := s.keyIn
    match keyOffsets raw with
    | [] => .next (s1.clearMkey.clearVkey.raise .emptyKey s.emptyKeyInfo)
    | o :: os =>
      let s2 := (s1.installMkey key).installVkey (o :: os)
      .next (s2.complete s2.pbuildResult)

/-- `PENC` (R202). -/
def execPenc (s : State) : Host.Outcome State Fault Refusal :=
  if s.pipeValid then
    let (text, s1) := s.textIn
    let h := s.hillEnc text
    let (o, s2) := s1.offsets
    let out := vigEnc o (normalizeText h)
    .next ((s2.textOut out).complete (BitVec.ofNat 32 out.length))
  else .next (s.raise .notConfigured s.keyFlags)

/-- `PDEC` (R203). With order 0, which no run reaches, as `HDEC` (log entry 8). -/
def execPdec (s : State) : Host.Outcome State Fault Refusal :=
  if s.pipeValid then
    let (text, s1) := s.textIn
    let (o, s2) := s1.offsets
    let v := vigDec o (normalizeText text)
    if v.length % s.order = 0 then
      let out := hillBlocks s.ki v s.order
      .next ((s2.textOut out).complete (BitVec.ofNat 32 out.length))
    else .next (s2.raise .malformedBlockLength (BitVec.ofNat 32 v.length))
  else .next (s.raise .notConfigured s.keyFlags)

end Sys2Proof.Machine
end

