-- ==== Sys2Proof/Machine/Dispatch.lean ====
section
/-! DEFINITION. One arm for each command of 30_encoding.md R82: each calls its meaning. -/

namespace Sys2Proof.Machine

def exec (i : Instr) (s : State) : Host.Outcome State Fault Refusal :=
  match i with
  | .nop => Sys2Proof.Machine.execNop s
  | .clr => Sys2Proof.Machine.execClr s
  | .cenc byte => Sys2Proof.Machine.execCenc byte s
  | .cdec byte => Sys2Proof.Machine.execCdec byte s
  | .norm => Sys2Proof.Machine.execNorm s
  | .gcd a b => Sys2Proof.Machine.execGcd a b s
  | .minv26 byte => Sys2Proof.Machine.execMinv26 byte s
  | .mac26 a b c => Sys2Proof.Machine.execMac26 a b c s
  | .mkey rows cols => Sys2Proof.Machine.execMkey rows cols s
  | .mvmul sel => Sys2Proof.Machine.execMvmul sel s
  | .henc => Sys2Proof.Machine.execHenc s
  | .hdec => Sys2Proof.Machine.execHdec s
  | .vkey => Sys2Proof.Machine.execVkey s
  | .vshift pos v dir => Sys2Proof.Machine.execVshift pos v dir s
  | .venc => Sys2Proof.Machine.execVenc s
  | .vdec => Sys2Proof.Machine.execVdec s
  | .pbuild rows cols => Sys2Proof.Machine.execPbuild rows cols s
  | .penc => Sys2Proof.Machine.execPenc s
  | .pdec => Sys2Proof.Machine.execPdec s

end Sys2Proof.Machine
end

