-- ==== Sys2Proof/WellFormed.lean ====
section
/-! DEFINITION. The operand ranges of the command syntax (30_encoding.md R89): every operand fits
its field of R81. -/

namespace Sys2Proof

/-- The command's operands are in the ranges R89 gives: "An operand outside its field's range is an
assembler error". -/
def WellFormed : Instr → Bool
  | .nop => true
  | .clr => true
  | .cenc byte => decide (byte < 256)
  | .cdec byte => decide (byte < 256)
  | .norm => true
  | .gcd a b => decide (a < 256) && decide (b < 256)
  | .minv26 byte => decide (byte < 256)
  | .mac26 a b c => decide (a < 32) && decide (b < 32) && decide (c < 32)
  | .mkey rows cols => decide (rows < 16) && decide (cols < 16)
  | .mvmul _ => true
  | .henc => true
  | .hdec => true
  | .vkey => true
  | .vshift pos v _ => decide (pos < 65536) && decide (v < 32)
  | .venc => true
  | .vdec => true
  | .pbuild rows cols => decide (rows < 16) && decide (cols < 16)
  | .penc => true
  | .pdec => true

end Sys2Proof
end

