-- ==== Sys2Proof/Decode.lean ====
section
/-! DEFINITION. Decoding and encoding of command words (30_encoding.md R80 to R88, R91). -/

namespace Sys2Proof

/-- Why a word is no command (R83). Both execute as `raise IllegalCommand`. -/
inductive IllegalReason where
  | unassignedOpcode  -- bits [31:24] are none of the 19 opcodes
  | reservedBitSet    -- the opcode is assigned and a bit its format marks 0 is 1
deriving DecidableEq, Repr

/-- What R86's `decode(w)` answers: a command with its fields, or `Illegal`, with the reason. -/
inductive Decoded where
  | command (i : Instr)
  | illegal (why : IllegalReason)
deriving DecidableEq, Repr

/-- A row of the opcode map: its mask and match value (R82), and how its fields are read (R81). -/
structure OpcodeRow where
  mnemonic : String
  mask : Word
  pattern : Word
  build : Word → Instr

/-- `w[lo+len-1:lo]`, read as an unsigned integer (R12, R87). -/
def wordField (w : Word) (lo len : Nat) : Nat := w.toNat / 2 ^ lo % 2 ^ len

/-- `SEL` from its bit: 0 selects `K`, 1 selects `KI` (R81). -/
def selOfBit (b : Nat) : KeySel := if b = 0 then .key else .inverse

/-- `DIR` from its bit: 0 encrypt, 1 decrypt (R81). -/
def dirOfBit (b : Nat) : Dir := if b = 0 then .enc else .dec

/-- The mask of each format (R82). -/
def maskN : Word := 0xFFFFFFFF
def maskB : Word := 0xFFFFFF00
def maskG : Word := 0xFFFF0000
def maskA : Word := 0xFFFF8000
def maskK : Word := 0xFFFFFF00
def maskM : Word := 0xFFFFFFFE
def maskV : Word := 0xFF0000C0

/-- The opcode map, families control, codec and arithmetic (R82). -/
def opcodeRowsLow : List OpcodeRow :=
  [ ⟨"NOP",    maskN, 0x00000000, fun _ => .nop⟩,
    ⟨"CLR",    maskN, 0x01000000, fun _ => .clr⟩,
    ⟨"CENC",   maskB, 0x10000000, fun w => .cenc (wordField w 0 8)⟩,
    ⟨"CDEC",   maskB, 0x11000000, fun w => .cdec (wordField w 0 8)⟩,
    ⟨"NORM",   maskN, 0x12000000, fun _ => .norm⟩,
    ⟨"GCD",    maskG, 0x20000000, fun w => .gcd (wordField w 8 8) (wordField w 0 8)⟩,
    ⟨"MINV26", maskB, 0x21000000, fun w => .minv26 (wordField w 0 8)⟩,
    ⟨"MAC26",  maskA, 0x22000000, fun w =>
      .mac26 (wordField w 10 5) (wordField w 5 5) (wordField w 0 5)⟩ ]

/-- The opcode map, families matrix, substitution and pipeline (R82). -/
def opcodeRowsHigh : List OpcodeRow :=
  [ ⟨"MKEY",   maskK, 0x30000000, fun w => .mkey (wordField w 4 4) (wordField w 0 4)⟩,
    ⟨"MVMUL",  maskM, 0x31000000, fun w => .mvmul (selOfBit (wordField w 0 1))⟩,
    ⟨"HENC",   maskN, 0x32000000, fun _ => .henc⟩,
    ⟨"HDEC",   maskN, 0x33000000, fun _ => .hdec⟩,
    ⟨"VKEY",   maskN, 0x40000000, fun _ => .vkey⟩,
    ⟨"VSHIFT", maskV, 0x41000000, fun w =>
      .vshift (wordField w 8 16) (wordField w 0 5) (dirOfBit (wordField w 5 1))⟩,
    ⟨"VENC",   maskN, 0x42000000, fun _ => .venc⟩,
    ⟨"VDEC",   maskN, 0x43000000, fun _ => .vdec⟩,
    ⟨"PBUILD", maskK, 0x50000000, fun w => .pbuild (wordField w 4 4) (wordField w 0 4)⟩,
    ⟨"PENC",   maskN, 0x51000000, fun _ => .penc⟩,
    ⟨"PDEC",   maskN, 0x52000000, fun _ => .pdec⟩ ]

/-- The 19 rows of R82. -/
def opcodeRows : List OpcodeRow := opcodeRowsLow ++ opcodeRowsHigh

/-- `(w AND mask(c)) = match(c)` (R82). -/
def OpcodeRow.matches (r : OpcodeRow) (w : Word) : Bool := w &&& r.mask == r.pattern

/-- `decode(w)` (R86): the row whose mask and match value `w` meets, or `Illegal` (R83). -/
def decode (w : Word) : Decoded :=
  match opcodeRows.find? (fun r => r.matches w) with
  | some r => .command (r.build w)
  | none =>
    if opcodeRows.any (fun r => w.extractLsb' 24 8 == r.pattern.extractLsb' 24 8) then
      .illegal .reservedBitSet
    else
      .illegal .unassignedOpcode

/-- The host's numbering of the opcode table: a command is one 32-bit word, so the table's bits are
the word's bits, and every bit at or above `nbits` is 0 (R80). -/
def decodeTableWord (nbits w : Nat) : Option Instr :=
  match decode (BitVec.ofNat 32 (w % 2 ^ nbits)) with
  | .command i => some i
  | .illegal _ => none

/-! The encoder, from the format table R81: each layout names every bit, highest first. -/

/-- Format N: bits [23:0] all 0. -/
def layoutN (opc : BitVec 8) : Word := opc ++ 0#24

/-- Format B: `BYTE = [7:0]`. -/
def layoutB (opc : BitVec 8) (byte : Nat) : Word := opc ++ 0#16 ++ BitVec.ofNat 8 byte

/-- Format G: `A = [15:8]`, `B = [7:0]`. -/
def layoutG (opc : BitVec 8) (a b : Nat) : Word :=
  opc ++ 0#8 ++ BitVec.ofNat 8 a ++ BitVec.ofNat 8 b

/-- Format A: `A = [14:10]`, `B = [9:5]`, `C = [4:0]`. -/
def layoutA (opc : BitVec 8) (a b c : Nat) : Word :=
  opc ++ 0#9 ++ BitVec.ofNat 5 a ++ BitVec.ofNat 5 b ++ BitVec.ofNat 5 c

/-- Format K: `ROWS = [7:4]`, `COLS = [3:0]`. -/
def layoutK (opc : BitVec 8) (rows cols : Nat) : Word :=
  opc ++ 0#16 ++ BitVec.ofNat 4 rows ++ BitVec.ofNat 4 cols

/-- The bit of `SEL` (R81). -/
def selBit : KeySel → BitVec 1
  | .key => 0
  | .inverse => 1

/-- Format M: `SEL = [0]`. -/
def layoutM (opc : BitVec 8) (sel : KeySel) : Word := opc ++ 0#23 ++ selBit sel

/-- The bit of `DIR` (R81). -/
def dirBit : Dir → BitVec 1
  | .enc => 0
  | .dec => 1

/-- Format V: `POS = [23:8]`, bits [7:6] 0, `DIR = [5]`, `V = [4:0]`. -/
def layoutV (opc : BitVec 8) (pos : Nat) (dir : Dir) (v : Nat) : Word :=
  opc ++ BitVec.ofNat 16 pos ++ 0#2 ++ dirBit dir ++ BitVec.ofNat 5 v

/-- The word of a well-formed command (R82, R91). -/
def encode : Instr → Word
  | .nop => layoutN 0x00
  | .clr => layoutN 0x01
  | .cenc byte => layoutB 0x10 byte
  | .cdec byte => layoutB 0x11 byte
  | .norm => layoutN 0x12
  | .gcd a b => layoutG 0x20 a b
  | .minv26 byte => layoutB 0x21 byte
  | .mac26 a b c => layoutA 0x22 a b c
  | .mkey rows cols => layoutK 0x30 rows cols
  | .mvmul sel => layoutM 0x31 sel
  | .henc => layoutN 0x32
  | .hdec => layoutN 0x33
  | .vkey => layoutN 0x40
  | .vshift pos v dir => layoutV 0x41 pos dir v
  | .venc => layoutN 0x42
  | .vdec => layoutN 0x43
  | .pbuild rows cols => layoutK 0x50 rows cols
  | .penc => layoutN 0x51
  | .pdec => layoutN 0x52

/-- The assembler's answer for one command (R89): the word, or nothing where an operand is outside
its field's range ("the assembler never truncates"). -/
def assemble (i : Instr) : Option Word := if WellFormed i then some (encode i) else none

end Sys2Proof
end

