-- ==== Sys2Proof/Machine/Bus.lean ====
section
/-! DEFINITION. The register window and the host's bus transactions (20_memory.md R60 to R68), the
busy rule (70_reset_and_hazards.md R257) and the reset input (R250). -/

namespace Sys2Proof.Machine

/-- What an aligned window offset names (R67). A buffer word is numbered from the buffer's base. -/
inductive Slot where
  | id
  | cmd
  | status
  | result
  | errinfo
  | det
  | detinv
  | tlen
  | vklen
  | vofflen
  | params
  | kin (idx : Fin 9)
  | k (idx : Fin 9)
  | ki (idx : Fin 9)
  | vin (idx : Fin 3)
  | vout (idx : Fin 3)
  | vkb (w : Nat)
  | voff (w : Nat)
  | txt (w : Nat)
  | reserved
deriving DecidableEq, Repr

/-- The single registers, by word index (offset / 4), 0x000 to 0x028 (R67). -/
def singleSlot (w : Nat) : Slot :=
  match w with
  | 0 => .id
  | 1 => .cmd
  | 2 => .status
  | 3 => .result
  | 4 => .errinfo
  | 5 => .det
  | 6 => .detinv
  | 7 => .tlen
  | 8 => .vklen
  | 9 => .vofflen
  | 10 => .params
  | _ => .reserved

/-- Element `w` of a nine-element file, or reserved. -/
def fileSlot9 (mk : Fin 9 → Slot) (w : Nat) : Slot := if h : w < 9 then mk ⟨w, h⟩ else .reserved

/-- Element `w` of a three-element file, or reserved. -/
def fileSlot3 (mk : Fin 3 → Slot) (w : Nat) : Slot := if h : w < 3 then mk ⟨w, h⟩ else .reserved

/-- The address map (R67), the words of a buffer at or above its capacity reserved (R64). `off` is
an aligned offset below 0x2000. -/
def slotAt (off : Nat) : Slot :=
  if off < 0x040 then singleSlot (off / 4)
  else if off < 0x080 then fileSlot9 .kin ((off - 0x040) / 4)
  else if off < 0x0C0 then fileSlot9 .k ((off - 0x080) / 4)
  else if off < 0x100 then fileSlot9 .ki ((off - 0x0C0) / 4)
  else if off < 0x110 then fileSlot3 .vin ((off - 0x100) / 4)
  else if off < 0x120 then fileSlot3 .vout ((off - 0x110) / 4)
  else if off < 0x800 then .reserved
  else if off < 0xC00 then
    if off - 0x800 < Config.vkeyMax then .vkb ((off - 0x800) / 4) else .reserved
  else if off < 0x1000 then
    if off - 0xC00 < Config.vkeyMax then .voff ((off - 0xC00) / 4) else .reserved
  else if off - 0x1000 < Config.textMax then .txt ((off - 0x1000) / 4)
  else .reserved

/-- The word of four bytes, lowest index in the lowest bits (R63). -/
def packWord (b0 b1 b2 b3 : Byte) : Word := b3 ++ b2 ++ b1 ++ b0

/-- The four bytes of a word, lowest bits first (R63, R66). -/
def unpackWord (v : Word) : List Byte :=
  [v.extractLsb' 0 8, v.extractLsb' 8 8, v.extractLsb' 16 8, v.extractLsb' 24 8]

/-- Word `w` of a buffer, the free-value counter being `d` (R63, R66, R77). -/
def readPacked (m : Memory) (w d : Nat) : Word × Nat :=
  let (b0, d0) := Memory.readByte m (4 * w) d
  let (b1, d1) := Memory.readByte m (4 * w + 1) d0
  let (b2, d2) := Memory.readByte m (4 * w + 2) d1
  let (b3, d3) := Memory.readByte m (4 * w + 3) d2
  (packWord b0 b1 b2 b3, d3)

/-- A byte of `VOFF` as the host reads it: 0 at or beyond `VOFFLEN`, whatever is stored (R46,
R66). -/
def readVoffByte (s : State) (a d : Nat) : Byte × Nat :=
  if a < s.vofflen.toNat then Memory.readByte s.voff a d else (0, d)

/-- Word `w` of `VOFF` as the host reads it (R66). -/
def readVoffWord (s : State) (w d : Nat) : Word × Nat :=
  let (b0, d0) := readVoffByte s (4 * w) d
  let (b1, d1) := readVoffByte s (4 * w + 1) d0
  let (b2, d2) := readVoffByte s (4 * w + 2) d1
  let (b3, d3) := readVoffByte s (4 * w + 3) d2
  (packWord b0 b1 b2 b3, d3)

/-- The value a read of a slot returns, and the free-value counter after (R23 to R47, R64, R65). -/
def readSlot (s : State) : Slot → Word × Nat
  | .id => (Config.idWord, s.draws)
  | .cmd => (0, s.draws)
  | .status => (s.statusWord, s.draws)
  | .result => (s.result, s.draws)
  | .errinfo => (s.errinfo, s.draws)
  | .det => (s.det.zeroExtend 32, s.draws)
  | .detinv => (s.detinv.zeroExtend 32, s.draws)
  | .tlen => (s.tlen.zeroExtend 32, s.draws)
  | .vklen => (s.vklen.zeroExtend 32, s.draws)
  | .vofflen => (s.vofflen.zeroExtend 32, s.draws)
  | .params => (Config.paramsWord, s.draws)
  | .kin idx => (s.kin.get idx, s.draws)
  | .k idx => ((s.k.get idx).zeroExtend 32, s.draws)
  | .ki idx => ((s.ki.get idx).zeroExtend 32, s.draws)
  | .vin idx => (s.vin.get idx, s.draws)
  | .vout idx => ((s.vout.get idx).zeroExtend 32, s.draws)
  | .vkb w => readPacked s.vkb w s.draws
  | .voff w => readVoffWord s w s.draws
  | .txt w => readPacked s.txt w s.draws
  | .reserved => (0, s.draws)

/-- The state after a write to a slot, `PENDING` being empty: read-only registers and reserved space
ignore it (R64, R65), a length above its capacity is ignored (R37, R38), a buffer word sets its four
bytes (R66), and `CMD` issues the command (R84). -/
def writeSlot (s : State) (v : Word) : Slot → State
  | .id => s
  | .cmd => { s with pending := some v }
  | .status => s
  | .result => s
  | .errinfo => s
  | .det => s
  | .detinv => s
  | .tlen => if v.toNat ≤ Config.textMax then { s with tlen := BitVec.ofNat 13 v.toNat } else s
  | .vklen => if v.toNat ≤ Config.vkeyMax then { s with vklen := BitVec.ofNat 11 v.toNat } else s
  | .vofflen => s
  | .params => s
  | .kin idx => { s with kin := s.kin.set idx v }
  | .k _ => s
  | .ki _ => s
  | .vin idx => { s with vin := s.vin.set idx v }
  | .vout _ => s
  | .vkb w => { s with vkb := Memory.storeList s.vkb (4 * w) (unpackWord v) }
  | .voff _ => s
  | .txt w => { s with txt := Memory.storeList s.txt (4 * w) (unpackWord v) }
  | .reserved => s

/-- The 13 bits of an offset the core decodes (R62). -/
def windowOffset (off : Word) : Nat := off.toNat % 0x2000

/-- Where a platform address falls in the window placed at `HV26_BASE`; nothing outside it (R67).
The core itself sees window offsets only (R62). -/
def platformOffset (addr : Nat) : Option Nat :=
  if Config.hv26Base ≤ addr ∧ addr < Config.hv26Base + 0x2000 then some (addr - Config.hv26Base)
  else none

/-- A transaction allowed while a command is pending: an aligned read of `ID` or `STATUS` (R257). -/
def readAllowedBusy (off : Word) : Bool :=
  windowOffset off == 0x000 || windowOffset off == 0x008

/-- The hazard (R257, R227): the model's fault, with `FAULT` set (R49). -/
def hostHazard (s : State) : Host.Outcome State Fault Refusal :=
  .fault (.hostHazard { s with faultMark := true })

/-- The ports' answer to the host. -/
def State.answer (s : State) (a : BusAnswer) : State := { s with bus := some a }

/-- What a read transaction sees: the word, the bus error mark, and the free-value counter after
(R62, R66, R228). -/
def busRead (s : State) (off : Word) : Word × Bool × Nat :=
  let o := windowOffset off
  if o % 4 = 0 then
    let (v, d) := readSlot s (slotAt o)
    (v, false, d)
  else (0, true, s.draws)

/-- `MemRead(off, 4) -> name` (R60, R90). -/
def memRead (off : Word) (name : String) (s : State) : Host.Outcome State Fault Refusal :=
  if s.busy && !readAllowedBusy off then hostHazard s
  else
    let (v, e, d) := busRead s off
    .next { (s.withDraws d).answer (.read v e) with reads := s.reads ++ [(name, v)] }

/-- `MemWrite(off, 4, v)` (R60). -/
def memWrite (off v : Word) (s : State) : Host.Outcome State Fault Refusal :=
  if s.busy then hostHazard s
  else
    let o := windowOffset off
    if o % 4 = 0 then .next ((writeSlot s v (slotAt o)).answer (.written false))
    else .next (s.answer (.written true))

/-- The reset input, asserted and released (R250): every register at its reset value, `PENDING`
empty, the buffers unspecified; a pending command is abandoned. `FAULT` stands (R51). What the host
still has to do, its named values, the schedule and the free-value counter are not the core's. -/
def State.resetInput (s : State) : State :=
  { State.reset with
    faultMark := s.faultMark
    draws := s.draws
    reads := s.reads
    host := s.host
    turns := s.turns }

end Sys2Proof.Machine
end

