-- ==== Sys2Proof/Machine/HostAgent.lean ====
section
/-! DEFINITION. The host's turn, and the statements of a host program (30_encoding.md R90). -/

namespace Sys2Proof.Machine

/-- The state with the host's first operation taken off its list. -/
def State.popHost (s : State) : State := { s with host := s.host.tail }

/-- One round of `wait`: read `STATUS`; the operation stays while bit 0 reads 1 (R90). -/
def waitRound (s : State) : Host.Outcome State Fault Refusal :=
  if s.busy then .next (s.answer (.read s.statusWord false))
  else .next (s.popHost.answer (.read s.statusWord false))

/-- The host's turn: its next operation, one transaction or a reset. A host with nothing to do lets
the turn pass. -/
def hostTurn (s : State) : Host.Outcome State Fault Refusal :=
  match s.host with
  | [] => .next s
  | .read off name :: _ => memRead off name s.popHost
  | .write off v :: _ => memWrite off v s.popHost
  | .wait :: _ => waitRound s
  | .reset :: _ => .next s.popHost.resetInput

/-- The statements of a host program (R90); `cmd` and `exec` carry the command of R89. -/
inductive HostStmt where
  | wr (off v : Word)
  | rd (off : Word) (name : String)
  | cmd (c : Instr)
  | wait
  | exec (c : Instr)
  | wrtext (base : Word) (text : List Byte)
  | wrkey (i j : Nat) (v : Int)
deriving DecidableEq, Repr

/-- The words of `wrtext`: four bytes each, the last padded with bytes 0x00 (R90). -/
def textWords : List Byte → List Word
  | [] => []
  | [a] => [packWord a 0 0 0]
  | [a, b] => [packWord a b 0 0]
  | [a, b, c] => [packWord a b c 0]
  | a :: b :: c :: d :: rest => packWord a b c d :: textWords rest

/-- Writes of consecutive words from `base` on. -/
def writeWords : Word → List Word → List HostOp
  | _, [] => []
  | base, v :: vs => .write base v :: writeWords (base + 4) vs

/-- The bus operations a statement expands to (R90); nothing where its command is an assembler error
(R89). -/
def HostStmt.expand : HostStmt → Option (List HostOp)
  | .wr off v => some [.write off v]
  | .rd off name => some [.read off name]
  | .cmd c => (assemble c).map fun w => [.write 0x004 w]
  | .wait => some [.wait]
  | .exec c => (assemble c).map fun w => [.write 0x004 w, .wait]
  | .wrtext base text => some (writeWords base (textWords text))
  | .wrkey i j v => some [.write (BitVec.ofNat 32 (0x040 + 4 * (3 * i + j))) (BitVec.ofInt 32 v)]

/-- The bus operations of a host program, its statements in order (R70, R90). -/
def expandProgram : List HostStmt → Option (List HostOp)
  | [] => some []
  | st :: rest =>
    match st.expand, expandProgram rest with
    | some a, some b => some (a ++ b)
    | _, _ => none

/-- The state with a host program still to run. -/
def State.loadHost (s : State) (ops : List HostOp) : State := { s with host := ops }

end Sys2Proof.Machine
end

