-- ==== Sys2Proof/Machine/Issue.lean ====
section
/-! DEFINITION. Taking the pending command (30_encoding.md R84 to R86) and whose turn it is
(00_scope.md R4). -/

namespace Sys2Proof.Machine

/-- The state with `PENDING` emptied (R85). No command reads `PENDING`, so emptying it before the
command's meaning and emptying it after come to the same. -/
def State.takePending (s : State) : State := { s with pending := none }

/-- The core's turn (R85): the pending command, decoded, runs as one transition; an illegal word
executes as `raise IllegalCommand(w)` (R83). With nothing pending the core's step is not enabled and
the turn passes. -/
def coreTurn (s : State) : Host.Outcome State Fault Refusal :=
  match s.pending with
  | none => .next s
  | some w =>
    match decode w with
    | .command i => exec i s.takePending
    | .illegal _ => .next (s.takePending.raise .illegalCommand w)

/-- One agent's turn. -/
def turnOf (a : Agent) (s : State) : Host.Outcome State Fault Refusal :=
  match a with
  | .host => hostTurn s
  | .core => coreTurn s

/-- Who moves next, and the schedule left: the schedule's first entry; with the schedule used up,
the core if a command is pending (R259), else the host (log entry 2). -/
def State.nextTurn (s : State) : Agent × List Agent :=
  match s.turns with
  | a :: rest => (a, rest)
  | [] => (if s.busy then .core else .host, [])

/-- One step of the machine: the agent whose turn it is moves. In a state whose `FAULT` is set the
model gives no further meaning (R49, R257). -/
def machineStep (s : State) : Host.Outcome State Fault Refusal :=
  if s.faultMark then hostHazard s
  else turnOf s.nextTurn.1 { s with turns := s.nextTurn.2 }

/-- A command word issued and the core to move next. -/
def issueWord (s : State) (w : Word) : State :=
  { s with pending := some w, turns := .core :: s.turns }

end Sys2Proof.Machine
end

