-- ==== Sys2Proof/Machine/Step.lean ====
section
/-! DEFINITION. The machine's step, and how the host places one command word where it runs next. -/

namespace Sys2Proof.Machine

/-- One step: see `machineStep`. -/
def step (s : State) : Host.Outcome State Fault Refusal := machineStep s

/-- The command word `w` as the next step's command: in `PENDING`, the core's turn next. This is the
state the host's write of the word to `CMD` leaves (R84; log entry 5). -/
def State.withFetchWord (s : State) (nbits w : Nat) : State :=
  issueWord s (BitVec.ofNat 32 (w % 2 ^ nbits))

end Sys2Proof.Machine
end

