-- ==== Sys2Proof/Machine/Assembler.lean ====
section
/-! DEFINITION. The text of commands (30_encoding.md R89) and of host programs (R90): one statement
a line, `;` starts a comment, numbers decimal or `0x` hexadecimal with `_` only grouping digits
(00_scope.md R12), `'c'` the ASCII code of c. -/

namespace Sys2Proof.Machine

/-- The tokens of a line. -/
inductive Token where
  | word (cs : List Char)
  | num (v : Nat)
  | text (bs : List Byte)
  | minus
  | comma
  | arrow
deriving DecidableEq, Repr

/-- A letter, a digit or `_`: the characters of a name or a number. -/
def isNameChar (c : Char) : Bool := c.isAlphanum || c == '_'

/-- The value of a hexadecimal digit. -/
def hexDigit (c : Char) : Option Nat :=
  if c.isDigit then some (c.toNat - 0x30)
  else if 0x61 ≤ c.toNat ∧ c.toNat ≤ 0x66 then some (c.toNat - 0x61 + 10)
  else if 0x41 ≤ c.toNat ∧ c.toNat ≤ 0x46 then some (c.toNat - 0x41 + 10)
  else none

/-- The number the digits spell in a base, `_` skipped (R12); nothing where one is no digit of the
base. -/
def digitsValue (base : Nat) : Nat → List Char → Option Nat
  | acc, [] => some acc
  | acc, c :: cs =>
    if c == '_' then digitsValue base acc cs
    else
      match hexDigit c with
      | some d => if d < base then digitsValue base (acc * base + d) cs else none
      | none => none

/-- A number: `0x` hexadecimal, else decimal (R89). -/
def numberValue : List Char → Option Nat
  | '0' :: 'x' :: c :: cs => digitsValue 16 0 (c :: cs)
  | cs => digitsValue 10 0 cs

/-- The ASCII byte of a character. -/
def charByte (c : Char) : Byte := BitVec.ofNat 8 c.toNat

/-- The tokens of a line, its comment left out; `fuel` is at least the line's length. -/
def lexLine : Nat → List Char → Option (List Token)
  | _, [] => some []
  | 0, _ :: _ => none
  | fuel + 1, c :: cs =>
    if c == ' ' then lexLine fuel cs
    else if c == ';' then some []
    else if c == ',' then (lexLine fuel cs).map (.comma :: ·)
    else if c == '-' then
      match cs with
      | '>' :: rest => (lexLine fuel rest).map (.arrow :: ·)
      | rest => (lexLine fuel rest).map (.minus :: ·)
    else if c.toNat = 0x27 then
      match cs with
      | x :: q :: rest =>
        if q.toNat = 0x27 then (lexLine fuel rest).map (.num x.toNat :: ·) else none
      | _ => none
    else if c.toNat = 0x22 then
      let (inside, rest) := cs.span fun x => x.toNat != 0x22
      match rest with
      | _ :: after => (lexLine fuel after).map (.text (inside.map charByte) :: ·)
      | [] => none
    else if isNameChar c then
      let (more, rest) := cs.span isNameChar
      if c.isDigit then
        match numberValue (c :: more), lexLine fuel rest with
        | some v, some ts => some (.num v :: ts)
        | _, _ => none
      else (lexLine fuel rest).map (.word (c :: more) :: ·)
    else none

/-- An operand: a number, negative where R90 reads it as two's complement, a name, or a string. -/
inductive Operand where
  | num (v : Int)
  | name (cs : List Char)
  | text (bs : List Byte)
deriving DecidableEq, Repr

/-- Operands separated by commas. -/
def operandsOf : List Token → Option (List Operand)
  | [] => some []
  | [.num v] => some [.num v]
  | [.minus, .num v] => some [.num (-v)]
  | [.word cs] => some [.name cs]
  | [.text bs] => some [.text bs]
  | .num v :: .comma :: t :: ts => (operandsOf (t :: ts)).map (.num v :: ·)
  | .minus :: .num v :: .comma :: t :: ts => (operandsOf (t :: ts)).map (.num (-v) :: ·)
  | .word cs :: .comma :: t :: ts => (operandsOf (t :: ts)).map (.name cs :: ·)
  | .text bs :: .comma :: t :: ts => (operandsOf (t :: ts)).map (.text bs :: ·)
  | _ => none

/-- The commands with no operand (format N). -/
def plainCommands : List (List Char × Instr) :=
  [ (['N', 'O', 'P'], .nop), (['C', 'L', 'R'], .clr), (['N', 'O', 'R', 'M'], .norm),
    (['H', 'E', 'N', 'C'], .henc), (['H', 'D', 'E', 'C'], .hdec), (['V', 'K', 'E', 'Y'], .vkey),
    (['V', 'E', 'N', 'C'], .venc), (['V', 'D', 'E', 'C'], .vdec), (['P', 'E', 'N', 'C'], .penc),
    (['P', 'D', 'E', 'C'], .pdec) ]

/-- The commands with one number (format B). -/
def byteCommands : List (List Char × (Nat → Instr)) :=
  [ (['C', 'E', 'N', 'C'], .cenc), (['C', 'D', 'E', 'C'], .cdec),
    (['M', 'I', 'N', 'V', '2', '6'], .minv26) ]

/-- The commands with two numbers (formats G and K). -/
def pairCommands : List (List Char × (Nat → Nat → Instr)) :=
  [ (['G', 'C', 'D'], .gcd), (['M', 'K', 'E', 'Y'], .mkey),
    (['P', 'B', 'U', 'I', 'L', 'D'], .pbuild) ]

/-- The command a mnemonic and its operands spell (R89), its operands not yet checked. -/
def spelledCommand (mn : List Char) : List Operand → Option Instr
  | [] => plainCommands.lookup mn
  | [.num (.ofNat a)] => (byteCommands.lookup mn).map fun f => f a
  | [.num (.ofNat a), .num (.ofNat b)] => (pairCommands.lookup mn).map fun f => f a b
  | [.num (.ofNat a), .num (.ofNat b), .num (.ofNat c)] =>
    if mn = ['M', 'A', 'C', '2', '6'] then some (.mac26 a b c) else none
  | [.name cs] =>
    if mn = ['M', 'V', 'M', 'U', 'L'] then
      if cs = ['K'] then some (.mvmul .key)
      else if cs = ['K', 'I'] then some (.mvmul .inverse)
      else none
    else none
  | [.num (.ofNat p), .num (.ofNat v), .name cs] =>
    if mn = ['V', 'S', 'H', 'I', 'F', 'T'] then
      if cs = ['E', 'N', 'C'] then some (.vshift p v .enc)
      else if cs = ['D', 'E', 'C'] then some (.vshift p v .dec)
      else none
    else none
  | _ => none

/-- The command of R89's syntax: nothing where an operand is outside its field's range. -/
def commandOf (mn : List Char) (ops : List Operand) : Option Instr :=
  match spelledCommand mn ops with
  | some i => if WellFormed i then some i else none
  | none => none

/-- A line that is one command (R89). -/
def parseCommand (line : List Char) : Option Instr :=
  match lexLine line.length line with
  | some (.word mn :: ts) =>
    match operandsOf ts with
    | some ops => commandOf mn ops
    | none => none
  | _ => none

/-- A 32-bit word written as a number, negative numbers in two's complement (R90); nothing where it
does not fit 32 bits (DESIGN CHOICE, log entry 17: R90 gives no range). -/
def wordOfNumber (v : Int) : Option Word :=
  if -(2 ^ 31) ≤ v ∧ v < 2 ^ 32 then some (BitVec.ofInt 32 v) else none

/-- The statement a keyword and the tokens after it spell (R90). DESIGN CHOICE (log entry 17): R90
gives no range for the `i` and `j` of `wrkey` and no width for an offset or a base; a line whose `i`
or `j` is 3 or more, or whose offset or base does not fit 32 bits, is refused. -/
def spelledStatement (kw : List Char) (ts : List Token) : Option HostStmt :=
  if kw = ['w', 'r'] then
    match operandsOf ts with
    | some [.num (.ofNat off), .num v] =>
      if off < 2 ^ 32 then (wordOfNumber v).map (.wr (BitVec.ofNat 32 off)) else none
    | _ => none
  else if kw = ['r', 'd'] then
    match ts with
    | [.num off, .arrow, .word name] =>
      if off < 2 ^ 32 then some (.rd (BitVec.ofNat 32 off) (String.ofList name)) else none
    | _ => none
  else if kw = ['c', 'm', 'd'] then
    match ts with
    | .word mn :: rest => ((operandsOf rest).bind (commandOf mn)).map .cmd
    | _ => none
  else if kw = ['e', 'x', 'e', 'c'] then
    match ts with
    | .word mn :: rest => ((operandsOf rest).bind (commandOf mn)).map .exec
    | _ => none
  else if kw = ['w', 'a', 'i', 't'] then
    if ts = [] then some .wait else none
  else if kw = ['w', 'r', 't', 'e', 'x', 't'] then
    match operandsOf ts with
    | some [.num (.ofNat base), .text bs] =>
      if base < 2 ^ 32 then some (.wrtext (BitVec.ofNat 32 base) bs) else none
    | _ => none
  else if kw = ['w', 'r', 'k', 'e', 'y'] then
    match operandsOf ts with
    | some [.num (.ofNat i), .num (.ofNat j), .num v] =>
      if i < 3 ∧ j < 3 ∧ (wordOfNumber v).isSome then some (.wrkey i j v) else none
    | _ => none
  else none

/-- A line of a host program: a statement, or nothing but a comment (R90). The outer answer is none
where the line is neither. -/
def parseStatement (line : List Char) : Option (Option HostStmt) :=
  match lexLine line.length line with
  | some [] => some none
  | some (.word kw :: ts) => (spelledStatement kw ts).map some
  | _ => none

end Sys2Proof.Machine
end

