-- ==== Sys2Proof/Safety.lean ====
section
/-! DEFINITION. What counts as a safe run, in the terms the statements use: the invariants of
10_state.md R50, the end of a run (70_reset_and_hazards.md R261), and the frames. -/

namespace Sys2Proof.Machine

/-- Element (i, j) of the product of two key matrices of order `n`, modulo 26 (R156). -/
def mulEntry (a b : Mat Residue) (n : Nat) (i j : Fin 3) : Nat :=
  if n = 2 then
    ((a.at i 0).toNat * (b.at 0 j).toNat + (a.at i 1).toNat * (b.at 1 j).toNat) % 26
  else
    ((a.at i 0).toNat * (b.at 0 j).toNat + (a.at i 1).toNat * (b.at 1 j).toNat +
      (a.at i 2).toNat * (b.at 2 j).toNat) % 26

/-- The product of two key matrices of order `n` is the identity modulo 26 (R156). -/
def IsIdentity (a b : Mat Residue) (n : Nat) : Prop :=
  ∀ i j : Fin 3, i.val < n → j.val < n → mulEntry a b n i j = if i = j then 1 else 0

/-- Residues in the n×n block, 0 elsewhere (R41, R42). -/
def KeyShape (m : Mat Residue) (n : Nat) : Prop :=
  ∀ idx : Fin 9, (m.get idx).toNat < 26 ∧ (inBlock n idx = false → m.get idx = 0)

/-- A matrix key that passed every check (R50, second clause). -/
structure State.MkeyLoaded (s : State) : Prop where
  order : s.order = 2 ∨ s.order = 3
  det_residue : s.det.toNat < 26
  detinv_residue : s.detinv.toNat < 26
  coprime : Nat.gcd s.det.toNat 26 = 1
  inverse : s.det.toNat * s.detinv.toNat % 26 = 1
  key_shape : KeyShape s.k s.order
  inv_shape : KeyShape s.ki s.order
  right_inverse : IsIdentity s.k s.ki s.order
  left_inverse : IsIdentity s.ki s.k s.order

/-- No matrix key (R50, first clause). -/
structure State.MkeyAbsent (s : State) : Prop where
  order : s.n = 0
  det : s.det = 0
  detinv : s.detinv = 0
  key : s.k = Mat.zero
  inv : s.ki = Mat.zero

/-- A substitution key that passed its check (R50, fourth clause). -/
structure State.VkeyLoaded (s : State) : Prop where
  nonempty : 1 ≤ s.vofflen.toNat
  fits : s.vofflen.toNat ≤ Config.vkeyMax
  residues : ∀ a, a < s.vofflen.toNat → ∃ b, Memory.lookup s.voff a = some b ∧ b.toNat < 26

/-- A buffer in its canonical form, within its capacity. -/
structure BufferOk (m : Memory) (cap : Nat) : Prop where
  wf : Memory.wf m = true
  below : Memory.below cap m = true

/-- The invariants every step keeps: those of R50; the buffers' canonical form and capacity; `ERR`
at most 8 (R30, R221); `VOUT` residues (R44). -/
structure State.Inv (s : State) : Prop where
  no_mkey : s.mkeyValid = false → s.MkeyAbsent
  mkey : s.mkeyValid = true → s.MkeyLoaded
  no_vkey : s.vkeyValid = false → s.vofflen = 0
  vkey : s.vkeyValid = true → s.VkeyLoaded
  tlen : s.tlen.toNat ≤ Config.textMax
  vklen : s.vklen.toNat ≤ Config.vkeyMax
  err : s.err.toNat ≤ 8
  vout : ∀ i : Fin 3, (s.vout.get i).toNat < 26
  txt : BufferOk s.txt Config.textMax
  vkb : BufferOk s.vkb Config.vkeyMax
  voff : BufferOk s.voff Config.vkeyMax

/-- The end of a run of a host program (R261): the host has nothing left to do, no command is
pending, and `FAULT` is clear. -/
def State.correctEnd (s : State) : Bool := s.host.isEmpty && !s.busy && !s.faultMark

/-- The matrix-key registers are the same (R27). -/
def SameMkey (s t : State) : Prop :=
  t.mkeyValid = s.mkeyValid ∧ t.n = s.n ∧ t.det = s.det ∧ t.detinv = s.detinv ∧ t.k = s.k ∧
    t.ki = s.ki

/-- The substitution-key registers are the same, the storage of `VOFF` byte by byte (R28). -/
def SameVkey (s t : State) : Prop :=
  t.vkeyValid = s.vkeyValid ∧ t.vofflen = s.vofflen ∧
    ∀ a, Memory.lookup t.voff a = Memory.lookup s.voff a

/-- The text is the same, byte by byte, with its length. -/
def SameText (s t : State) : Prop :=
  t.tlen = s.tlen ∧ ∀ a, Memory.lookup t.txt a = Memory.lookup s.txt a

/-- What only the host writes is the same (R256): `KIN`, `VIN`, `VKLEN`, and `VKB` byte by byte. -/
def SameHostRegisters (s t : State) : Prop :=
  t.kin = s.kin ∧ t.vin = s.vin ∧ t.vklen = s.vklen ∧
    ∀ a, Memory.lookup t.vkb a = Memory.lookup s.vkb a

/-- What no command touches is the same: `PENDING`, `FAULT`, the host's side and the schedule. -/
def SameOutside (s t : State) : Prop :=
  t.pending = s.pending ∧ t.faultMark = s.faultMark ∧ t.bus = s.bus ∧ t.reads = s.reads ∧
    t.host = s.host ∧ t.turns = s.turns

/-- The text `TXT[0..TLEN-1]` of a state is exactly `bs`, and no later byte holds a defined value
(R116). -/
def HoldsText (t : State) (bs : List Byte) : Prop :=
  t.tlen.toNat = bs.length ∧
    (∀ a, a < bs.length → Memory.lookup t.txt a = bs[a]?) ∧
    (∀ a, bs.length ≤ a → Memory.lookup t.txt a = none)

/-- Nothing but the text, its length, the report and the count of free values has changed: the frame
of the text commands (R37, R47). -/
def OnlyTextChanged (s t : State) : Prop :=
  t = { s with
    txt := t.txt, tlen := t.tlen, draws := t.draws
    err := t.err, errinfo := t.errinfo, result := t.result }

/-- Nothing but the substitution key, the report and the count of free values has changed: the frame
of `VKEY` (R28, R182). -/
def OnlyVkeyChanged (s t : State) : Prop :=
  t = { s with
    vkeyValid := t.vkeyValid, vofflen := t.vofflen, voff := t.voff, draws := t.draws
    err := t.err, errinfo := t.errinfo, result := t.result }

/-- The state after NotConfigured: `ERR` 6, the detail telling which keys are loaded, nothing else
changed (R221, R222, R225). -/
def notConfigured (s : State) : State :=
  { s with
    err := 6
    errinfo := BitVec.ofNat 32 ((if s.mkeyValid then 1 else 0) + if s.vkeyValid then 2 else 0) }

/-- `KIN` as signed integers (R40). -/
def kinInts (kin : Mat Word) : Mat Int := Mat.ofFn fun idx => (kin.get idx).toInt

/-- Element (i, j) of a key matrix as a number; 0 outside the register file (R18). -/
def entry (m : Mat Residue) (i j : Nat) : Nat :=
  if h : 3 * i + j < 9 then (m.get ⟨3 * i + j, h⟩).toNat else 0

/-- `(sum over j < n of M(i, j) * v[j]) mod 26` (R157). -/
def rowDot (m : Mat Residue) (n i : Nat) (v : Nat → Nat) : Nat :=
  ((List.range n).map fun j => entry m i j * v j).sum % 26

/-- The letter at position `a` of `hill_blocks(M, t, n)`: row `a mod n` times the block of `t` that
holds position `a` (R160). -/
def blockLetter (m : Mat Residue) (n : Nat) (t : List Byte) (a : Nat) : Byte :=
  codecDec (rowDot m n (a % n) fun j => codecEnc (t.getD (a - a % n + j) 0))

/-- The stored offset of position `a`: `VOFF[a mod L]` (R183). -/
def offsetOf (s : State) (a : Nat) : Nat :=
  ((Memory.lookup s.voff (a % s.vofflen.toNat)).getD 0).toNat

/-- Every byte is an uppercase letter. -/
def UpperLetters (t : List Byte) : Prop := ∀ b ∈ t, 0x41 ≤ b.toNat ∧ b.toNat ≤ 0x5A

/-- The commands that write the matrix key (R27). -/
def WritesMkey (i : Instr) : Prop := i = .clr ∨ (∃ r c, i = .mkey r c) ∨ ∃ r c, i = .pbuild r c

/-- The commands that write the substitution key (R28). -/
def WritesVkey (i : Instr) : Prop := i = .clr ∨ i = .vkey ∨ ∃ r c, i = .pbuild r c

/-- The commands that write `TXT` and `TLEN` (R37, R47). -/
def WritesText (i : Instr) : Prop :=
  i = .norm ∨ i = .henc ∨ i = .hdec ∨ i = .venc ∨ i = .vdec ∨ i = .penc ∨ i = .pdec

end Sys2Proof.Machine
end

