-- ==== Sys2Proof/Certificates/Slice0/Obligations.lean ====
section
/-! DEFINITION. The statements for the provers. Each docstring names the rule of spec/ the statement
formalises. -/

open Sys2Proof Sys2Proof.Machine

/-! ## Encoding -/

/-- R86, R89, R91: decoding the word of a well-formed command gives the command back, every operand
at every value its field admits. -/
def Obligations.DecodeOfEncodeIsIdentity : Prop :=
  ∀ i : Instr, WellFormed i = true → decode (encode i) = .command i

/-- R83, R86: a word that decodes to a command is exactly that command's word, and the command is
well-formed; so no two words spell one command and no operand bit is dropped. -/
def Obligations.DecodedWordEncodesBack : Prop :=
  ∀ (w : Word) (i : Instr), decode w = .command i → WellFormed i = true ∧ encode i = w

/-- R91: the encoded word of each command form. -/
def Obligations.EncodedWordsOfEachForm : Prop :=
  (encode .nop = 0x00000000 ∧ encode .clr = 0x01000000 ∧ encode .norm = 0x12000000 ∧
    encode .henc = 0x32000000 ∧ encode .hdec = 0x33000000 ∧ encode .vkey = 0x40000000 ∧
    encode .venc = 0x42000000 ∧ encode .vdec = 0x43000000 ∧ encode .penc = 0x51000000 ∧
    encode .pdec = 0x52000000) ∧
  (∀ b, b < 256 →
    encode (.cenc b) = BitVec.ofNat 32 (0x10000000 ||| b) ∧
    encode (.cdec b) = BitVec.ofNat 32 (0x11000000 ||| b) ∧
    encode (.minv26 b) = BitVec.ofNat 32 (0x21000000 ||| b)) ∧
  (∀ a b, a < 256 → b < 256 →
    encode (.gcd a b) = BitVec.ofNat 32 (0x20000000 ||| a <<< 8 ||| b)) ∧
  (∀ a b c, a < 32 → b < 32 → c < 32 →
    encode (.mac26 a b c) = BitVec.ofNat 32 (0x22000000 ||| a <<< 10 ||| b <<< 5 ||| c)) ∧
  (∀ r c, r < 16 → c < 16 →
    encode (.mkey r c) = BitVec.ofNat 32 (0x30000000 ||| r <<< 4 ||| c) ∧
    encode (.pbuild r c) = BitVec.ofNat 32 (0x50000000 ||| r <<< 4 ||| c)) ∧
  (encode (.mvmul .key) = 0x31000000 ∧ encode (.mvmul .inverse) = 0x31000001) ∧
  (∀ p v, p < 65536 → v < 32 →
    encode (.vshift p v .enc) = BitVec.ofNat 32 (0x41000000 ||| p <<< 8 ||| v) ∧
    encode (.vshift p v .dec) = BitVec.ofNat 32 (0x41000020 ||| p <<< 8 ||| v)) ∧
  (encode (.mkey 2 2) = 0x30000022 ∧ encode (.mkey 3 3) = 0x30000033 ∧
    encode (.gcd 9 26) = 0x2000091A ∧ encode (.mac26 3 7 12) = 0x22000CEC ∧
    encode (.vshift 7 4 .dec) = 0x41000724)

/-- R81, R82: a few words written out from the spec decode to the commands they spell, one for each
family and format. -/
def Obligations.SpecWordsDecode : Prop :=
  decode 0x00000000 = .command .nop ∧
  decode 0x10000068 = .command (.cenc 0x68) ∧
  decode 0x2000091A = .command (.gcd 9 26) ∧
  decode 0x22000CEC = .command (.mac26 3 7 12) ∧
  decode 0x30000022 = .command (.mkey 2 2) ∧
  decode 0x31000001 = .command (.mvmul .inverse) ∧
  decode 0x41000724 = .command (.vshift 7 4 .dec) ∧
  decode 0x50000033 = .command (.pbuild 3 3) ∧
  decode 0x22008000 = .illegal .reservedBitSet ∧
  decode 0xFF000000 = .illegal .unassignedOpcode

/-- R83: a word whose opcode is none of the nineteen, or in which a bit its format marks 0 is 1,
executes as `raise IllegalCommand(w)` with no other state change; every other word is a command. -/
def Obligations.IllegalWordsRaiseIllegalCommand : Prop :=
  ∀ (s : State) (w : Word), s.pending = some w →
    ((∀ r ∈ opcodeRows, w &&& r.mask ≠ r.pattern) →
      coreTurn s = .next { s with pending := none, err := 7, errinfo := w }) ∧
    (∀ r ∈ opcodeRows, w &&& r.mask = r.pattern →
      ∃ i, decode w = .command i ∧ coreTurn s = exec i { s with pending := none }) ∧
    opcodeRows.map (fun r => (r.mnemonic, r.mask, r.pattern)) =
      [("NOP", 0xFFFFFFFF, 0x00000000), ("CLR", 0xFFFFFFFF, 0x01000000),
       ("CENC", 0xFFFFFF00, 0x10000000), ("CDEC", 0xFFFFFF00, 0x11000000),
       ("NORM", 0xFFFFFFFF, 0x12000000), ("GCD", 0xFFFF0000, 0x20000000),
       ("MINV26", 0xFFFFFF00, 0x21000000), ("MAC26", 0xFFFF8000, 0x22000000),
       ("MKEY", 0xFFFFFF00, 0x30000000), ("MVMUL", 0xFFFFFFFE, 0x31000000),
       ("HENC", 0xFFFFFFFF, 0x32000000), ("HDEC", 0xFFFFFFFF, 0x33000000),
       ("VKEY", 0xFFFFFFFF, 0x40000000), ("VSHIFT", 0xFF0000C0, 0x41000000),
       ("VENC", 0xFFFFFFFF, 0x42000000), ("VDEC", 0xFFFFFFFF, 0x43000000),
       ("PBUILD", 0xFFFFFF00, 0x50000000), ("PENC", 0xFFFFFFFF, 0x51000000),
       ("PDEC", 0xFFFFFFFF, 0x52000000)]

/-! ## The machine -/

/-- R85, R83, R60, R90, R250, R256: what one step is, with `FAULT` clear. Where the core moves, it
is the pending command's meaning with `PENDING` emptied, or the raise of an illegal word; where the
host moves, it is the first operation of its list, taken off: the read transaction, the write
transaction, one round of `wait`, the reset input, or nothing. Who moves is the schedule's first
entry; that the core moves when the schedule is used up and a command is pending, and else the host,
is the model's choice (log entry 2). That the `STATUS` read of a `wait` is recorded as the ports'
answer and enters no named value is the model's reading of R90, and that a reset leaves the host's
side is its choice (log entry 3). -/
def Obligations.StepRunsDecodedCommand : Prop :=
  (∀ (s : State) (w : Word) (i : Instr),
    s.faultMark = false → s.pending = some w → decode w = .command i →
    (∀ rest, s.turns = .core :: rest →
      step s = exec i { s with pending := none, turns := rest }) ∧
    (s.turns = [] → step s = exec i { s with pending := none })) ∧
  (∀ (s : State) (rest : List Agent), s.faultMark = false →
    s.turns = .core :: rest ∨ (s.turns = [] ∧ rest = [] ∧ s.pending ≠ none) →
    step s = coreTurn { s with turns := rest } ∧
    (s.pending = none → step s = .next { s with turns := rest }) ∧
    (∀ w why, s.pending = some w → decode w = .illegal why →
      step s = .next { s with pending := none, turns := rest, err := 7, errinfo := w })) ∧
  ∀ (s : State) (rest : List Agent), s.faultMark = false →
    s.turns = .host :: rest ∨ (s.turns = [] ∧ rest = [] ∧ s.pending = none) →
    step s = hostTurn { s with turns := rest } ∧
    (s.host = [] → step s = .next { s with turns := rest }) ∧
    (∀ off name ops, s.host = .read off name :: ops →
      step s = memRead off name { s with turns := rest, host := ops }) ∧
    (∀ off v ops, s.host = .write off v :: ops →
      step s = memWrite off v { s with turns := rest, host := ops }) ∧
    (∀ ops, s.host = .wait :: ops →
      step s = .next { s with
        turns := rest, host := if s.pending = none then ops else s.host
        bus := some (.read s.statusWord false) }) ∧
    (∀ ops, s.host = .reset :: ops →
      step s = .next ({ s with turns := rest, host := ops } : State).resetInput)

/-- R25, R26, R29: the layout of `STATUS`, with `BUSY` exactly when a command is pending and
`PIPE_VALID` the conjunction of the two key flags. -/
def Obligations.StatusLayout : Prop :=
  ∀ s : State,
    s.statusWord.getLsbD 0 = s.pending.isSome ∧
    s.statusWord.getLsbD 1 = s.mkeyValid ∧
    s.statusWord.getLsbD 2 = s.vkeyValid ∧
    s.statusWord.getLsbD 3 = (s.mkeyValid && s.vkeyValid) ∧
    s.statusWord.extractLsb' 4 4 = s.err ∧
    s.statusWord.extractLsb' 8 2 = s.n ∧
    s.statusWord.extractLsb' 10 22 = 0

/-- R250, R51: the reset input sets every register to its reset value, empties `PENDING` and leaves
no byte of a buffer with a defined value; `FAULT` is unchanged. It is allowed while a command is
pending, which it abandons. The model's own fields are not spoken of (log entry 3). -/
def Obligations.ResetInputSetsResetValues : Prop :=
  ∀ (s : State) (rest : List HostOp), s.host = .reset :: rest →
    ∃ t, hostTurn s = .next t ∧
      t = { t with
        mkeyValid := false, vkeyValid := false, err := 0, n := 0, result := 0, errinfo := 0
        det := 0, detinv := 0, tlen := 0, vklen := 0, vofflen := 0
        kin := ⟨0, 0, 0, 0, 0, 0, 0, 0, 0⟩, k := ⟨0, 0, 0, 0, 0, 0, 0, 0, 0⟩
        ki := ⟨0, 0, 0, 0, 0, 0, 0, 0, 0⟩, vin := ⟨0, 0, 0⟩, vout := ⟨0, 0, 0⟩
        pending := none, faultMark := s.faultMark } ∧
      ∀ a, Memory.lookup t.txt a = none ∧ Memory.lookup t.vkb a = none ∧
        Memory.lookup t.voff a = none

/-- R23 to R44, R67: with no command pending, an aligned read below 0x800 answers without an error
and leaves the core as it was, and its value is the register the map puts there, zero-extended, in
every state. R251: so after reset `STATUS` reads 0, `ID` and `PARAMS` read their constants, and
every other register, `VOFF` too, reads 0. -/
def Obligations.RegistersReadAfterReset : Prop :=
  (∀ (s : State) (off : Word) (name : String), s.pending = none →
    off.toNat % 4 = 0 → off.toNat % 0x2000 < 0x800 →
    ∃ v : Word,
      memRead off name s = .next { s with
        bus := some (.read v false), reads := s.reads ++ [(name, v)] } ∧
      (off.toNat % 0x2000 = 0x000 → v = 0x48563236) ∧
      (off.toNat % 0x2000 = 0x008 → v = s.statusWord) ∧
      (off.toNat % 0x2000 = 0x00C → v = s.result) ∧
      (off.toNat % 0x2000 = 0x010 → v = s.errinfo) ∧
      (off.toNat % 0x2000 = 0x014 → v.toNat = s.det.toNat) ∧
      (off.toNat % 0x2000 = 0x018 → v.toNat = s.detinv.toNat) ∧
      (off.toNat % 0x2000 = 0x01C → v.toNat = s.tlen.toNat) ∧
      (off.toNat % 0x2000 = 0x020 → v.toNat = s.vklen.toNat) ∧
      (off.toNat % 0x2000 = 0x024 → v.toNat = s.vofflen.toNat) ∧
      (off.toNat % 0x2000 = 0x028 → v.toNat = 65536 * Config.vkeyMax + Config.textMax) ∧
      (∀ idx : Fin 9,
        (off.toNat % 0x2000 = 0x040 + 4 * idx.val → v = s.kin.get idx) ∧
        (off.toNat % 0x2000 = 0x080 + 4 * idx.val → v.toNat = (s.k.get idx).toNat) ∧
        (off.toNat % 0x2000 = 0x0C0 + 4 * idx.val → v.toNat = (s.ki.get idx).toNat)) ∧
      ∀ idx : Fin 3,
        (off.toNat % 0x2000 = 0x100 + 4 * idx.val → v = s.vin.get idx) ∧
        (off.toNat % 0x2000 = 0x110 + 4 * idx.val → v.toNat = (s.vout.get idx).toNat)) ∧
  ∀ off : Word, windowOffset off % 4 = 0 →
    windowOffset off < 0x800 ∨ (0xC00 ≤ windowOffset off ∧ windowOffset off < 0x1000) →
    (busRead State.reset off).1 =
        (if windowOffset off = 0x000 then 0x48563236
         else if windowOffset off = 0x028 then
           BitVec.ofNat 32 (65536 * Config.vkeyMax + Config.textMax)
         else 0) ∧
      (busRead State.reset off).2.1 = false

/-- R84: a write of `w` to `CMD` with `PENDING` empty sets `PENDING` to `w`, so that `BUSY` reads 1,
and changes nothing else; with a command pending it is the hazard. -/
def Obligations.CmdWriteIssuesCommand : Prop :=
  ∀ (s : State) (w : Word),
    (s.pending = none →
      memWrite 0x004 w s = .next { s with pending := some w, bus := some (.written false) } ∧
      State.statusWord { s with pending := some w } = s.statusWord + 1) ∧
    (s.pending ≠ none →
      memWrite 0x004 w s = .fault (.hostHazard { s with faultMark := true }))

/-- R257, R227: while a command is pending, every transaction but an aligned read of `ID` or
`STATUS` (a read of another offset, aligned or not, and every write) is the fault HostHazard,
`FAULT` set; those two reads are answered. -/
def Obligations.BusyRule : Prop :=
  ∀ (s : State) (off v : Word) (name : String), s.pending.isSome = true →
    memWrite off v s = .fault (.hostHazard { s with faultMark := true }) ∧
    (off.toNat % 0x2000 ≠ 0x000 ∧ off.toNat % 0x2000 ≠ 0x008 →
      memRead off name s = .fault (.hostHazard { s with faultMark := true })) ∧
    (off.toNat % 0x2000 = 0x000 →
      memRead off name s = .next { s with
        bus := some (.read 0x48563236 false), reads := s.reads ++ [(name, 0x48563236)] }) ∧
    (off.toNat % 0x2000 = 0x008 →
      memRead off name s = .next { s with
        bus := some (.read s.statusWord false), reads := s.reads ++ [(name, s.statusWord)] })

/-- R62, R228: with no command pending, a misaligned write changes no state and a misaligned read
returns 0 and changes no state; both are answered with the bus error response, and no aligned
transaction, a command pending or not, ever is. -/
def Obligations.MisalignedTransactionIsBusError : Prop :=
  ∀ (s : State) (off v : Word) (name : String),
    (s.pending = none → off.toNat % 4 ≠ 0 →
      memWrite off v s = .next { s with bus := some (.written true) } ∧
      memRead off name s = .next { s with
        bus := some (.read 0 true), reads := s.reads ++ [(name, 0)] }) ∧
    (s.pending = none → off.toNat % 4 = 0 →
      (∃ t, memWrite off v s = .next t ∧ t.bus = some (.written false)) ∧
      ∃ t x, memRead off name s = .next t ∧ t.bus = some (.read x false)) ∧
    (off.toNat % 4 = 0 → ∀ t,
      (memWrite off v s = .next t → t.bus = some (.written false)) ∧
      (memRead off name s = .next t → ∃ x, t.bus = some (.read x false)))

/-- R68: a read of any offset, no command pending, changes nothing of the core: only the host's
answer and named values, and the model's count of free values; and it answers the same kind of
response again. -/
def Obligations.ReadsHaveNoSideEffects : Prop :=
  ∀ (s : State) (off : Word) (name : String), s.pending = none →
    ∃ (v : Word) (e : Bool) (d : Nat), s.draws ≤ d ∧
      memRead off name s = .next { s with
        draws := d, bus := some (.read v e), reads := s.reads ++ [(name, v)] } ∧
      (d = s.draws → memRead off name { s with
        draws := d, bus := some (.read v e), reads := s.reads ++ [(name, v)] } = .next { s with
          bus := some (.read v e), reads := s.reads ++ [(name, v)] ++ [(name, v)] })

/-- R64, R65: an aligned write to a read-only register, to `VOFF` or to a reserved offset is ignored
and raises no error; a read of a reserved offset and of `CMD` returns 0. -/
def Obligations.ReadOnlyAndReservedOffsets : Prop :=
  ∀ (s : State) (off v : Word) (name : String), s.pending = none → off.toNat % 4 = 0 →
    ((off.toNat % 0x2000 ∈ [0x000, 0x008, 0x00C, 0x010, 0x014, 0x018, 0x024, 0x028] ∨
      (0x02C ≤ off.toNat % 0x2000 ∧ off.toNat % 0x2000 < 0x040) ∨
      (0x064 ≤ off.toNat % 0x2000 ∧ off.toNat % 0x2000 < 0x100) ∨
      (0x10C ≤ off.toNat % 0x2000 ∧ off.toNat % 0x2000 < 0x800) ∨
      (0x800 + Config.vkeyMax ≤ off.toNat % 0x2000 ∧ off.toNat % 0x2000 < 0x1000) ∨
      0x1000 + Config.textMax ≤ off.toNat % 0x2000) →
      memWrite off v s = .next { s with bus := some (.written false) }) ∧
    ((off.toNat % 0x2000 = 0x004 ∨
      (0x02C ≤ off.toNat % 0x2000 ∧ off.toNat % 0x2000 < 0x040) ∨
      (0x064 ≤ off.toNat % 0x2000 ∧ off.toNat % 0x2000 < 0x080) ∨
      (0x0A4 ≤ off.toNat % 0x2000 ∧ off.toNat % 0x2000 < 0x0C0) ∨
      (0x0E4 ≤ off.toNat % 0x2000 ∧ off.toNat % 0x2000 < 0x100) ∨
      (0x10C ≤ off.toNat % 0x2000 ∧ off.toNat % 0x2000 < 0x110) ∨
      (0x11C ≤ off.toNat % 0x2000 ∧ off.toNat % 0x2000 < 0x800) ∨
      (0x800 + Config.vkeyMax ≤ off.toNat % 0x2000 ∧ off.toNat % 0x2000 < 0xC00) ∨
      (0xC00 + Config.vkeyMax ≤ off.toNat % 0x2000 ∧ off.toNat % 0x2000 < 0x1000) ∨
      0x1000 + Config.textMax ≤ off.toNat % 0x2000) →
      memRead off name s = .next { s with
        bus := some (.read 0 false), reads := s.reads ++ [(name, 0)] })

/-- R63, R66: an aligned write of `v` to word `w` of `TXT` (or of `VKB`) sets byte `4w+b` to
`v[8b+7:8b]`, leaves every other byte and both lengths as they were, and a read of that word then
returns `v`. And in every state with nothing pending a
read of a word of `TXT` (or of `VKB`) changes nothing of the core but the count of free values, and
gives each defined element `4w+b` in bits [8b+7:8b]. -/
def Obligations.BufferWordWriteSetsItsBytes : Prop :=
  (∀ (s : State) (w : Nat) (v : Word) (name : String), s.pending = none →
    (4 * w < Config.textMax →
      ∃ t, memWrite (BitVec.ofNat 32 (0x1000 + 4 * w)) v s = .next t ∧
        t = { s with txt := t.txt, bus := some (.written false) } ∧
        (∀ b, b < 4 → Memory.lookup t.txt (4 * w + b) = some (v.extractLsb' (8 * b) 8)) ∧
        (∀ a, a < 4 * w ∨ 4 * w + 4 ≤ a → Memory.lookup t.txt a = Memory.lookup s.txt a) ∧
        memRead (BitVec.ofNat 32 (0x1000 + 4 * w)) name t = .next { t with
          bus := some (.read v false), reads := s.reads ++ [(name, v)] }) ∧
    (4 * w < Config.vkeyMax →
      ∃ t, memWrite (BitVec.ofNat 32 (0x800 + 4 * w)) v s = .next t ∧
        t = { s with vkb := t.vkb, bus := some (.written false) } ∧
        (∀ b, b < 4 → Memory.lookup t.vkb (4 * w + b) = some (v.extractLsb' (8 * b) 8)) ∧
        (∀ a, a < 4 * w ∨ 4 * w + 4 ≤ a → Memory.lookup t.vkb a = Memory.lookup s.vkb a) ∧
        memRead (BitVec.ofNat 32 (0x800 + 4 * w)) name t = .next { t with
          bus := some (.read v false), reads := s.reads ++ [(name, v)] })) ∧
  ∀ (s : State) (w : Nat) (name : String), s.pending = none →
    (4 * w < Config.textMax →
      ∃ v d, memRead (BitVec.ofNat 32 (0x1000 + 4 * w)) name s = .next { s with
          draws := d, bus := some (.read v false), reads := s.reads ++ [(name, v)] } ∧
        ∀ b x, b < 4 → Memory.lookup s.txt (4 * w + b) = some x →
          v.extractLsb' (8 * b) 8 = x) ∧
    (4 * w < Config.vkeyMax →
      ∃ v d, memRead (BitVec.ofNat 32 (0x800 + 4 * w)) name s = .next { s with
          draws := d, bus := some (.read v false), reads := s.reads ++ [(name, v)] } ∧
        ∀ b x, b < 4 → Memory.lookup s.vkb (4 * w + b) = some x →
          v.extractLsb' (8 * b) 8 = x)

/-- R46, R66: a read of a word of `VOFF` returns the stored byte below `VOFFLEN` and 0 at or beyond
it. -/
def Obligations.VoffReadsZeroBeyondItsLength : Prop :=
  ∀ (s : State) (w b : Nat) (x : Byte), 4 * w < Config.vkeyMax → b < 4 →
    (4 * w + b < s.vofflen.toNat → Memory.lookup s.voff (4 * w + b) = some x →
      (busRead s (BitVec.ofNat 32 (0xC00 + 4 * w))).1.extractLsb' (8 * b) 8 = x) ∧
    (s.vofflen.toNat ≤ 4 * w + b →
      (busRead s (BitVec.ofNat 32 (0xC00 + 4 * w))).1.extractLsb' (8 * b) 8 = 0)

/-- R37, R38, R40, R43: a write to `TLEN` or `VKLEN` stores a value up to the capacity and is
ignored above it; a write to an element of `KIN` or `VIN` stores all 32 bits there and nowhere else.
-/
def Obligations.HostRegisterWrites : Prop :=
  ∀ (s : State) (v : Word), s.pending = none →
    (∃ t, memWrite 0x01C v s = .next t ∧
      t = { s with tlen := t.tlen, bus := some (.written false) } ∧
      t.tlen.toNat = (if v.toNat ≤ Config.textMax then v.toNat else s.tlen.toNat)) ∧
    (∃ t, memWrite 0x020 v s = .next t ∧
      t = { s with vklen := t.vklen, bus := some (.written false) } ∧
      t.vklen.toNat = (if v.toNat ≤ Config.vkeyMax then v.toNat else s.vklen.toNat)) ∧
    (∀ idx : Fin 9, ∃ t, memWrite (BitVec.ofNat 32 (0x040 + 4 * idx.val)) v s = .next t ∧
      t = { s with kin := t.kin, bus := some (.written false) } ∧
      (∀ j, t.kin.get j = if j = idx then v else s.kin.get j) ∧
      (busRead t (BitVec.ofNat 32 (0x040 + 4 * idx.val))).1 = v) ∧
    (∀ idx : Fin 3, ∃ t, memWrite (BitVec.ofNat 32 (0x100 + 4 * idx.val)) v s = .next t ∧
      t = { s with vin := t.vin, bus := some (.written false) } ∧
      (∀ j, t.vin.get j = if j = idx then v else s.vin.get j) ∧
      (busRead t (BitVec.ofNat 32 (0x100 + 4 * idx.val))).1 = v)

/-- R77: reading a byte of a buffer that holds no defined value takes the next free value, and a
second read of it takes another one; a defined byte is read as it is. The form of the free values, a
counter and `Config.draw`, is the model's choice (log entry 1). -/
def Obligations.UnwrittenBytesReadAsFreshValues : Prop :=
  ∀ (m : Memory) (a d : Nat),
    (Memory.lookup m a = none →
      Memory.readByte m a d = (Config.draw d, d + 1) ∧
      Memory.readByte m a (Memory.readByte m a d).2 = (Config.draw (d + 1), d + 2)) ∧
    (∀ b, Memory.lookup m a = some b → Memory.readByte m a d = (b, d)) ∧
    (∀ len, (Memory.readBytes m a len d).2 =
      d + ((List.range len).filter fun j => (Memory.lookup m (a + j)).isNone).length)

/-- R50, R51: the invariants hold after reset. -/
def Obligations.InvHoldsAtReset : Prop := State.Inv State.reset

/-- R50: every step, of the host or of the core, in every state that meets the invariants, keeps
them. -/
def Obligations.StepKeepsInv : Prop :=
  ∀ s t : State, s.Inv → step s = .next t → t.Inv

/-- R49: no step that goes on changes `FAULT`; and, the model's choice (log entry 4), a state with
`FAULT` set steps to the fault. -/
def Obligations.FaultMarkNeverCleared : Prop :=
  ∀ s t : State, (step s = .next t → t.faultMark = s.faultMark) ∧
    (s.faultMark = true → step s = .fault (.hostHazard s))

/-- R90, R259: `wait` ends: with a command pending and `k` host turns scheduled first, the command
runs and the host goes on to its next operation, whatever the command and its operands. That the
core moves once the schedule is used up is the model's form of the fairness R259 assumes (log entry
2). -/
def Obligations.WaitEndsAfterTheCommand : Prop :=
  ∀ (s : State) (w : Word) (rest : List HostOp) (k : Nat),
    s.faultMark = false → s.pending = some w → s.host = .wait :: rest →
    s.turns = List.replicate k .host →
    ∃ t, Sys2Proof.core.run (k + 2) s = .next t ∧ t.pending = none ∧ t.host = rest ∧
      t.faultMark = false

/-- R84, R85, R90: `exec c` of a host program, the write of the command's word to `CMD` and a
`wait`: three steps run the command's meaning once and leave the host at its next operation, having
read the `STATUS` the command left. The order of the three steps is the model's schedule (log entry
2). That the `STATUS` read of the `wait` enters no named value is the model's reading of R90 (log
entry 3). -/
def Obligations.HostExecRunsTheCommand : Prop :=
  ∀ (s : State) (i : Instr) (rest : List HostOp),
    WellFormed i = true → s.faultMark = false → s.pending = none → s.turns = [] →
    s.host = .write 0x004 (encode i) :: .wait :: rest →
    HostStmt.expand (.exec i) = some [.write 0x004 (encode i), .wait] ∧
    ∃ t, exec i { s with host := .wait :: rest, bus := some (.written false) } = .next t ∧
      Sys2Proof.core.run 3 s =
        .next { t with host := rest, bus := some (.read t.statusWord false) }

/-! ## What no command, or only some commands, may change -/

/-- R100, R227, R256: every command ends in a next state (no fault, no refusal); no command touches
`PENDING`, `FAULT`, the bus, the host's side or the schedule; none but `CLR` writes `KIN`, `VIN` and
`VKLEN`; none writes `VKB`. -/
def Obligations.CommandsLeaveHostSideAlone : Prop :=
  ∀ (i : Instr) (s : State), ∃ t, exec i s = .next t ∧ SameOutside s t ∧
    (∀ a, Memory.lookup t.vkb a = Memory.lookup s.vkb a) ∧
    (i ≠ .clr → SameHostRegisters s t)

/-- R27, R28: the matrix key is written by `MKEY`, `PBUILD` and `CLR` only, the substitution key by
`VKEY`, `PBUILD` and `CLR` only. -/
def Obligations.OnlyKeyCommandsWriteKeys : Prop :=
  ∀ (i : Instr) (s : State), ∃ t, exec i s = .next t ∧
    (¬ WritesMkey i → SameMkey s t) ∧ (¬ WritesVkey i → SameVkey s t)

/-- R225: the core step of a command that raises empties `PENDING`, changes `ERR` and `ERRINFO` and
nothing else, except that `MKEY` and `PBUILD` clear the matrix key and `VKEY` and `PBUILD` the
substitution key. -/
def Obligations.FailedCommandChangesOnlyReport : Prop :=
  ∀ (i : Instr) (w : Word) (s t : State), s.pending = some w → decode w = .command i →
    coreTurn s = .next t → t.err ≠ 0 →
    t.result = s.result ∧ t.vout = s.vout ∧ SameText s t ∧ SameHostRegisters s t ∧
      SameOutside { s with pending := none } t ∧
      (WritesMkey i → t.mkeyValid = false ∧ t.MkeyAbsent) ∧ (¬ WritesMkey i → SameMkey s t) ∧
      (WritesVkey i → t.vkeyValid = false ∧ t.vofflen = 0) ∧ (¬ WritesVkey i → SameVkey s t) ∧
      ∀ a, Memory.lookup t.voff a = Memory.lookup s.voff a

/-- The frame of NOP, CENC, CDEC, GCD, MINV26, MAC26, for every operand and state: a next state that
differs in `ERR`, `ERRINFO` and `RESULT` only; every byte of the buffers reads as before; and of
VSHIFT, which may also take a free value. -/
def Obligations.ReportOnlyCommandsFrame : Prop :=
  ∀ (i : Instr) (s : State),
    (i = .nop ∨ (∃ b, i = .cenc b) ∨ (∃ b, i = .cdec b) ∨ (∃ a b, i = .gcd a b) ∨
      (∃ b, i = .minv26 b) ∨ (∃ a b c, i = .mac26 a b c) →
      ∃ t, exec i s = .next t ∧
        t = { s with err := t.err, errinfo := t.errinfo, result := t.result } ∧
        ∀ a, Memory.lookup t.txt a = Memory.lookup s.txt a ∧
          Memory.lookup t.vkb a = Memory.lookup s.vkb a ∧
          Memory.lookup t.voff a = Memory.lookup s.voff a) ∧
    ((∃ p v dir, i = .vshift p v dir) →
      ∃ t, exec i s = .next t ∧
        t = { s with err := t.err, errinfo := t.errinfo, result := t.result, draws := t.draws } ∧
        ∀ a, Memory.lookup t.txt a = Memory.lookup s.txt a ∧
          Memory.lookup t.vkb a = Memory.lookup s.vkb a ∧
          Memory.lookup t.voff a = Memory.lookup s.voff a)

/-- The frame of MVMUL, MKEY, VKEY, PBUILD, for every operand and state: `TXT` and `VKB` read as
before byte by byte; MVMUL writes `VOUT` and the report only; MKEY the matrix key and the report
only; VKEY and PBUILD the keys, the report and, of `VOFF`, only the elements below the new
`VOFFLEN`. -/
def Obligations.KeyCommandsFrame : Prop :=
  ∀ (s : State),
    (∀ sel, ∃ t, exec (.mvmul sel) s = .next t ∧
      t = { s with vout := t.vout, err := t.err, errinfo := t.errinfo, result := t.result } ∧
      SameText s t ∧ SameHostRegisters s t ∧ SameVkey s t) ∧
    (∀ r c, ∃ t, exec (.mkey r c) s = .next t ∧
      t = { s with
        mkeyValid := t.mkeyValid, n := t.n, det := t.det, detinv := t.detinv, k := t.k, ki := t.ki
        err := t.err, errinfo := t.errinfo, result := t.result } ∧
      SameText s t ∧ SameHostRegisters s t ∧ SameVkey s t) ∧
    (∃ t, exec .vkey s = .next t ∧
      OnlyVkeyChanged s t ∧
      SameText s t ∧ SameHostRegisters s t ∧ SameMkey s t ∧
      ∀ a, t.vofflen.toNat ≤ a → Memory.lookup t.voff a = Memory.lookup s.voff a) ∧
    (∀ r c, ∃ t, exec (.pbuild r c) s = .next t ∧
      t = { s with
        mkeyValid := t.mkeyValid, n := t.n, det := t.det, detinv := t.detinv, k := t.k, ki := t.ki
        vkeyValid := t.vkeyValid, vofflen := t.vofflen, voff := t.voff, draws := t.draws
        err := t.err, errinfo := t.errinfo, result := t.result } ∧
      SameText s t ∧ SameHostRegisters s t ∧
      ∀ a, t.vofflen.toNat ≤ a → Memory.lookup t.voff a = Memory.lookup s.voff a)

/-- The frame of the text commands NORM, HENC, HDEC, VENC, VDEC, PENC, PDEC, in every state: only
`TXT`, `TLEN`, the report and the model's count of free values change; every byte of `VKB` and of
`VOFF` reads as before; and if the command raises, so does every byte of `TXT`. -/
def Obligations.TextCommandsFrame : Prop :=
  ∀ (i : Instr) (s : State), WritesText i →
    ∃ t, exec i s = .next t ∧
      OnlyTextChanged s t ∧
      SameHostRegisters s t ∧ SameMkey s t ∧ SameVkey s t ∧
      (t.err ≠ 0 → SameText s t) ∧
      (t.err = 0 → t.result.toNat % 8192 = t.tlen.toNat)

/-! ## Functions -/

/-- R111 to R114, R120: the letters are the 52 ASCII codes; `codec_enc` maps both cases of a letter
to 0..25; `codec_dec` and `codec_enc` are inverse to each other, on letters and on texts. -/
def Obligations.CodecIsBijection : Prop :=
  (∀ b : Byte, isLetter b = true ↔
    (0x41 ≤ b.toNat ∧ b.toNat ≤ 0x5A) ∨ (0x61 ≤ b.toNat ∧ b.toNat ≤ 0x7A)) ∧
  (∀ b : Byte, isLetter b = true →
    (upper b).toNat = (if 0x61 ≤ b.toNat then b.toNat - 0x20 else b.toNat) ∧
    codecEnc b = (upper b).toNat - 0x41 ∧ codecEnc b < 26 ∧ codecDec (codecEnc b) = upper b) ∧
  (∀ v, v < 26 → (codecDec v).toNat = 0x41 + v ∧ codecEnc (codecDec v) = v) ∧
  (∀ t : List Byte, UpperLetters t → (t.map codecEnc).map codecDec = t) ∧
  (∀ l : List Nat, (∀ v ∈ l, v < 26) → (l.map codecDec).map codecEnc = l)

/-- R115: `normalizeText` keeps the letters, uppercased, in order; it is idempotent, never
lengthens, and gives uppercase letters only. -/
def Obligations.NormalizeKeepsLettersUppercased : Prop :=
  ∀ t : List Byte,
    normalizeText t = (t.filter isLetter).map upper ∧
    (normalizeText t).length ≤ t.length ∧
    normalizeText (normalizeText t) = normalizeText t ∧
    UpperLetters (normalizeText t)

/-- R133: the search over 1..25 finds an inverse exactly when the residue is coprime to 26, and it
is the only one in 1..25. -/
def Obligations.Minv26FindsTheOnlyInverse : Prop :=
  ∀ a, a < 26 →
    ((minv26 a).isSome = true ↔ Nat.gcd a 26 = 1) ∧
    (∀ x, minv26 a = some x ↔ 1 ≤ x ∧ x ≤ 25 ∧ a * x % 26 = 1)

/-- R152: the adjugate times the matrix, on either side, is the determinant times the identity, for
every integer matrix of order 2 and of order 3. -/
def Obligations.AdjugateTimesMatrixIsDeterminant : Prop :=
  ∀ (k : Mat Int) (n : Nat), n = 2 ∨ n = 3 → ∀ i j : Fin 3, i.val < n → j.val < n →
    (k.at i 0 * (adj k n).at 0 j + k.at i 1 * (adj k n).at 1 j +
        (if n = 3 then k.at i 2 * (adj k n).at 2 j else 0) = if i = j then det k n else 0) ∧
    ((adj k n).at i 0 * k.at 0 j + (adj k n).at i 1 * k.at 1 j +
        (if n = 3 then (adj k n).at i 2 * k.at 2 j else 0) = if i = j then det k n else 0)

/-- R226: no key load ever reports NoModularInverse. -/
def Obligations.NoModularInverseNeverReported : Prop :=
  ∀ (rows cols : Nat) (kin : Mat Word) (info : Word),
    mkeyEval rows cols kin ≠ .error (.noModularInverse, info)

/-- R156: after a successful `MKEY` or `PBUILD`, `K·KI` and `KI·K` are the identity modulo 26. -/
def Obligations.LoadedInverseIsInverse : Prop :=
  ∀ (s t : State) (r c : Nat),
    exec (.mkey r c) s = .next t ∨ exec (.pbuild r c) s = .next t → t.err = 0 →
    t.mkeyValid = true ∧ (t.order = 2 ∨ t.order = 3) ∧
      IsIdentity t.k t.ki t.order ∧ IsIdentity t.ki t.k t.order

/-- R159, R163: padding adds at most n - 1 fillers 'X', to a multiple of n, nothing to an empty
text; the padded text of a command fits `TXT`. -/
def Obligations.PaddedTextFits : Prop :=
  ∀ (t : List Byte) (n : Nat), n = 2 ∨ n = 3 →
    (∃ j, j < n ∧ pad t n = t ++ List.replicate j 0x58) ∧ (pad t n).length % n = 0 ∧ pad [] n = [] ∧
    (t.length ≤ Config.textMax → (pad (normalizeText t) n).length ≤ Config.textMax)

/-! ## Control commands -/

/-- R101: NOP is the word 0; it clears the report and changes nothing else; any nonzero bit in
[23:0] makes the word illegal. -/
def Obligations.NopClearsTheReport : Prop :=
  (∀ s : State, exec .nop s = .next { s with err := 0, errinfo := 0 }) ∧
  decode 0x00000000 = .command .nop ∧
  ∀ w : Word, w.extractLsb' 24 8 = 0 → w ≠ 0 → ∃ why, decode w = .illegal why

/-- R102: CLR sets every register and field to its reset value except `ID`, `PARAMS`, `VKB`, `TXT`
and `PENDING`; the `VOFF` storage and `FAULT` stand; `STATUS` then reads 0 but for `BUSY`, and every
word of `VOFF` reads 0. -/
def Obligations.ClrResetsRegisters : Prop :=
  decode 0x01000000 = .command .clr ∧
  ∀ s : State, ∃ t, exec .clr s = .next t ∧
    t = { s with
      mkeyValid := false, vkeyValid := false, err := 0, n := 0, result := 0, errinfo := 0
      det := 0, detinv := 0, tlen := 0, vklen := 0, vofflen := 0
      kin := ⟨0, 0, 0, 0, 0, 0, 0, 0, 0⟩, k := ⟨0, 0, 0, 0, 0, 0, 0, 0, 0⟩
      ki := ⟨0, 0, 0, 0, 0, 0, 0, 0, 0⟩, vin := ⟨0, 0, 0⟩, vout := ⟨0, 0, 0⟩ } ∧
    t.statusWord.toNat = s.busy.toNat ∧
    ∀ w, 4 * w < Config.vkeyMax → (busRead t (BitVec.ofNat 32 (0xC00 + 4 * w))).1 = 0

/-! ## Codec and arithmetic commands -/

/-- R117: CENC gives bit 8 set and the value of a letter of either case, 0 for any other byte, and
never an error. -/
def Obligations.CencGivesLetterValue : Prop :=
  ∀ (b : Nat) (s : State), b < 256 →
    decode (BitVec.ofNat 32 (0x10000000 ||| b)) = .command (.cenc b) ∧
    exec (.cenc b) s = .next { s with
      err := 0, errinfo := 0
      result := BitVec.ofNat 32
        (if 0x41 ≤ b ∧ b ≤ 0x5A then 0x100 + (b - 0x41)
         else if 0x61 ≤ b ∧ b ≤ 0x7A then 0x100 + (b - 0x61) else 0) }

/-- R118: CDEC gives the letter of a residue and raises OperandRange at 26 and above. -/
def Obligations.CdecGivesLetter : Prop :=
  ∀ (v : Nat) (s : State), v < 256 →
    decode (BitVec.ofNat 32 (0x11000000 ||| v)) = .command (.cdec v) ∧
    exec (.cdec v) s = .next
      (if v < 26 then { s with err := 0, errinfo := 0, result := BitVec.ofNat 32 (0x41 + v) }
       else { s with err := 8, errinfo := BitVec.ofNat 32 v })

/-- R119: NORM rewrites the text to its letters, uppercased; `RESULT` is the new length; the bytes
beyond it hold no defined value. -/
def Obligations.NormRewritesText : Prop :=
  decode 0x12000000 = .command .norm ∧
  ∀ s : State, s.tlen.toNat ≤ Config.textMax →
    ∃ t, exec .norm s = .next t ∧
      HoldsText t ((s.textIn.1.filter isLetter).map upper) ∧
      t.result.toNat = ((s.textIn.1.filter isLetter).map upper).length ∧
      t.err = 0 ∧ t.errinfo = 0 ∧ OnlyTextChanged s t

/-- R116, R181, R77: `text_in()` reads `TXT[0..TLEN-1]`, and the raw key of VKEY and PBUILD is
`VKB[0..VKLEN-1]`: the defined bytes as they stand, and for each byte that holds none the next free
value, counted from the state's count in rising order; with all of them defined the read takes no
free value. The count and `Config.draw` are the model's choice (log entry 1). -/
def Obligations.TextInReadsTheBuffer : Prop :=
  ∀ s : State,
    (s.textIn.1.length = s.tlen.toNat ∧
      (∀ a b, a < s.tlen.toNat → Memory.lookup s.txt a = some b → s.textIn.1[a]? = some b) ∧
      (∀ a, a < s.tlen.toNat → Memory.lookup s.txt a = none →
        s.textIn.1[a]? = some (Config.draw (s.draws +
          ((List.range a).filter fun j => (Memory.lookup s.txt j).isNone).length))) ∧
      s.textIn.2 = { s with draws := s.textIn.2.draws } ∧
      (Memory.defined s.txt 0 s.tlen.toNat = true → s.textIn.2 = s)) ∧
    s.keyIn.1.length = s.vklen.toNat ∧
    (∀ a b, a < s.vklen.toNat → Memory.lookup s.vkb a = some b → s.keyIn.1[a]? = some b) ∧
    (∀ a, a < s.vklen.toNat → Memory.lookup s.vkb a = none →
      s.keyIn.1[a]? = some (Config.draw (s.draws +
        ((List.range a).filter fun j => (Memory.lookup s.vkb j).isNone).length))) ∧
    s.keyIn.2 = { s with draws := s.keyIn.2.draws } ∧
    (Memory.defined s.vkb 0 s.vklen.toNat = true → s.keyIn.2 = s)

/-- R134: GCD gives the greatest common divisor in [7:0] and bit 8 set when it is 1, for every
operand pair. -/
def Obligations.GcdGivesDivisorAndFlag : Prop :=
  ∀ (a b : Nat) (s : State), a < 256 → b < 256 →
    decode (BitVec.ofNat 32 (0x20000000 ||| a <<< 8 ||| b)) = .command (.gcd a b) ∧
    exec (.gcd a b) s = .next { s with
      err := 0, errinfo := 0
      result := BitVec.ofNat 32 (Nat.gcd a b + if Nat.gcd a b = 1 then 0x100 else 0) }

/-- R135: MINV26 gives the inverse with bit 8 set, 0 for a residue that has none, and raises
OperandRange at 26 and above. -/
def Obligations.Minv26GivesInverse : Prop :=
  ∀ (a : Nat) (s : State), a < 256 →
    decode (BitVec.ofNat 32 (0x21000000 ||| a)) = .command (.minv26 a) ∧
    (a < 26 → ∀ x, 1 ≤ x → x ≤ 25 → a * x % 26 = 1 →
      exec (.minv26 a) s = .next { s with
        err := 0, errinfo := 0, result := BitVec.ofNat 32 (0x100 + x) }) ∧
    (a < 26 → (∀ x, 1 ≤ x → x ≤ 25 → a * x % 26 ≠ 1) →
      exec (.minv26 a) s = .next { s with err := 0, errinfo := 0, result := 0 }) ∧
    (26 ≤ a → exec (.minv26 a) s = .next { s with err := 8, errinfo := BitVec.ofNat 32 a })

/-- R136: MAC26 gives `(C + A*B) mod 26`; the first field of 26 or more in the order A, B, C is
reported by OperandRange. -/
def Obligations.Mac26GivesProductSum : Prop :=
  ∀ (a b c : Nat) (s : State), a < 32 → b < 32 → c < 32 →
    decode (BitVec.ofNat 32 (0x22000000 ||| a <<< 10 ||| b <<< 5 ||| c)) = .command (.mac26 a b c) ∧
    exec (.mac26 a b c) s = .next
      (if 26 ≤ a then { s with err := 8, errinfo := BitVec.ofNat 32 a }
       else if 26 ≤ b then { s with err := 8, errinfo := BitVec.ofNat 32 b }
       else if 26 ≤ c then { s with err := 8, errinfo := BitVec.ofNat 32 c }
       else { s with
        err := 0, errinfo := 0, result := BitVec.ofNat 32 ((c + a * b) % 26) })

/-! ## Matrix commands -/

/-- R153, R155: MKEY on a shape other than (2, 2) and (3, 3) raises InvalidKeyShape; on a
determinant that is not coprime to 26 it raises SingularKey; both clear the matrix key. The
determinant is that of the integers in `KIN`, unreduced. -/
def Obligations.MkeyRejectsBadKeys : Prop :=
  ∀ (s : State) (r c : Nat), r < 16 → c < 16 →
    decode (BitVec.ofNat 32 (0x30000000 ||| r <<< 4 ||| c)) = .command (.mkey r c) ∧
    (¬ (r = c ∧ (r = 2 ∨ r = 3)) →
      exec (.mkey r c) s = .next { s with
        mkeyValid := false, n := 0, det := 0, detinv := 0
        k := ⟨0, 0, 0, 0, 0, 0, 0, 0, 0⟩, ki := ⟨0, 0, 0, 0, 0, 0, 0, 0, 0⟩
        err := 1, errinfo := BitVec.ofNat 32 (16 * r + c) }) ∧
    (r = c ∧ (r = 2 ∨ r = 3) → ∀ d : Nat, (d : Int) = det (kinInts s.kin) r % 26 →
      Nat.gcd d 26 ≠ 1 →
      exec (.mkey r c) s = .next { s with
        mkeyValid := false, n := 0, det := 0, detinv := 0
        k := ⟨0, 0, 0, 0, 0, 0, 0, 0, 0⟩, ki := ⟨0, 0, 0, 0, 0, 0, 0, 0, 0⟩
        err := 2, errinfo := BitVec.ofNat 32 (256 * Nat.gcd d 26 + d) })

/-- R153 to R155: MKEY on a determinant coprime to 26 loads the key: `K` is `KIN` reduced modulo 26,
`DET` the determinant, `DETINV` its inverse, `KI` is `DETINV · adj`, reduced; elements outside the
block are 0; `RESULT` holds DETINV and DET; nothing else changes. -/
def Obligations.MkeyLoadsGoodKeys : Prop :=
  ∀ (s : State) (n d : Nat), n = 2 ∨ n = 3 → (d : Int) = det (kinInts s.kin) n % 26 →
    Nat.gcd d 26 = 1 →
    ∃ t, exec (.mkey n n) s = .next t ∧
      t = { s with
        mkeyValid := true, n := BitVec.ofNat 2 n, det := BitVec.ofNat 5 d, detinv := t.detinv
        k := t.k, ki := t.ki, err := 0, errinfo := 0
        result := BitVec.ofNat 32 (256 * t.detinv.toNat + d) } ∧
      t.detinv.toNat < 26 ∧ d * t.detinv.toNat % 26 = 1 ∧
      ∀ idx : Fin 9,
        ((t.k.get idx).toNat : Int) =
          (if inBlock n idx then (s.kin.get idx).toInt % 26 else 0) ∧
        ((t.ki.get idx).toNat : Int) =
          (if inBlock n idx then t.detinv.toNat * (adj (kinInts s.kin) n).get idx % 26 else 0)

/-- R157, R158: MVMUL without a matrix key raises NotConfigured; with a loaded key of order n and
residues in `VIN[0..n-1]` writes the product of `K` (or `KI`) and `VIN` to `VOUT`, 0 beyond n, and
packs `VOUT` into `RESULT`. With an operand of 26 or more it reports the lowest-numbered one and
changes nothing else. -/
def Obligations.MvmulMultipliesVector : Prop :=
  ∀ (s : State) (sel : KeySel),
    let m := match sel with | .key => s.k | .inverse => s.ki
    let v := fun j =>
      if j = 0 then s.vin.e0.toNat else if j = 1 then s.vin.e1.toNat else s.vin.e2.toNat
    decode (match sel with | .key => 0x31000000 | .inverse => 0x31000001) = .command (.mvmul sel) ∧
    (s.mkeyValid = false → exec (.mvmul sel) s = .next (notConfigured s)) ∧
    (s.mkeyValid = true → s.order = 2 ∨ s.order = 3 → (∀ j, j < s.order → v j < 26) →
      ∃ t, exec (.mvmul sel) s = .next t ∧
        t = { s with
          vout := t.vout, err := 0, errinfo := 0
          result := BitVec.ofNat 32
            (t.vout.e0.toNat + 256 * t.vout.e1.toNat + 65536 * t.vout.e2.toNat) } ∧
        ∀ i : Fin 3,
          (t.vout.get i).toNat = if i.val < s.order then rowDot m s.order i.val v else 0) ∧
    (s.mkeyValid = true → s.order = 2 ∨ s.order = 3 →
      ∀ j, j < s.order → 26 ≤ v j → (∀ l, l < j → v l < 26) →
      exec (.mvmul sel) s = .next { s with err := 8, errinfo := BitVec.ofNat 32 (v j) })

/-- R160 to R162: HENC without a matrix key raises NotConfigured; with a loaded key of order n
rewrites the text, normalised and padded, block by block through `K`; `RESULT` is the new length, a
multiple of n. -/
def Obligations.HencEncryptsText : Prop :=
  decode 0x32000000 = .command .henc ∧
  (∀ s : State, s.mkeyValid = false → exec .henc s = .next (notConfigured s)) ∧
  ∀ s : State, s.mkeyValid = true → s.order = 2 ∨ s.order = 3 → s.tlen.toNat ≤ Config.textMax →
    let p := pad (normalizeText s.textIn.1) s.order
    ∃ t out, exec .henc s = .next t ∧ HoldsText t out ∧ out.length = p.length ∧
      (∀ a, a < p.length → out[a]? = some (blockLetter s.k s.order p a)) ∧
      t.result.toNat = p.length ∧ t.err = 0 ∧ t.errinfo = 0 ∧ OnlyTextChanged s t

/-- R164: HDEC without a matrix key raises NotConfigured; with a loaded key of order n rewrites the
text, normalised, block by block through `KI`; a letter count that is no multiple of n raises
MalformedBlockLength with that count. -/
def Obligations.HdecDecryptsText : Prop :=
  decode 0x33000000 = .command .hdec ∧
  (∀ s : State, s.mkeyValid = false → exec .hdec s = .next (notConfigured s)) ∧
  ∀ s : State, s.mkeyValid = true → s.order = 2 ∨ s.order = 3 → s.tlen.toNat ≤ Config.textMax →
    let p := normalizeText s.textIn.1
    (p.length % s.order = 0 →
      ∃ t out, exec .hdec s = .next t ∧ HoldsText t out ∧ out.length = p.length ∧
        (∀ a, a < p.length → out[a]? = some (blockLetter s.ki s.order p a)) ∧
        t.result.toNat = p.length ∧ t.err = 0 ∧ t.errinfo = 0 ∧ OnlyTextChanged s t) ∧
    (p.length % s.order ≠ 0 →
      exec .hdec s = .next { s.textIn.2 with err := 5, errinfo := BitVec.ofNat 32 p.length })

/-- R165: with a valid matrix key, HENC then HDEC leaves the normalised and padded text, and a text
of uppercase letters whose length is a multiple of n itself. -/
def Obligations.HillRoundTrip : Prop :=
  ∀ s : State, s.Inv → s.mkeyValid = true →
    ∃ t u, exec .henc s = .next t ∧ exec .hdec t = .next u ∧
      HoldsText u (pad (normalizeText s.textIn.1) s.order) ∧
      (UpperLetters s.textIn.1 → s.textIn.1.length % s.order = 0 → HoldsText u s.textIn.1)

/-! ## Substitution commands -/

/-- R181, R182: VKEY caches the value of each letter of `VKB[0..VKLEN-1]` in `VOFF`, its count in
`VOFFLEN` and `RESULT`, the matrix key unchanged; a key with no letter raises EmptyKey with `VKLEN`
and clears the key. What the raw key is read as is TextInReadsTheBuffer. -/
def Obligations.VkeyCachesOffsets : Prop :=
  decode 0x40000000 = .command .vkey ∧
  ∀ s : State, s.vklen.toNat ≤ Config.vkeyMax →
    let o := (s.keyIn.1.filter isLetter).map codecEnc
    (o ≠ [] →
      ∃ t, exec .vkey s = .next t ∧ t.vkeyValid = true ∧ t.vofflen.toNat = o.length ∧
        (∀ a, a < o.length → (Memory.lookup t.voff a).map BitVec.toNat = o[a]?) ∧
        t.result.toNat = o.length ∧ t.err = 0 ∧ t.errinfo = 0 ∧ OnlyVkeyChanged s t) ∧
    (o = [] →
      exec .vkey s = .next { s.keyIn.2 with
        vkeyValid := false, vofflen := 0, err := 3, errinfo := BitVec.ofNat 32 s.vklen.toNat })

/-- R185: VSHIFT without a substitution key raises NotConfigured; with a loaded key it shifts a
residue by the offset of its position, reduced modulo the key length; it raises OperandRange at 26
and above. -/
def Obligations.VshiftShiftsResidue : Prop :=
  ∀ (s : State) (p v : Nat), p < 65536 → v < 32 →
    decode (BitVec.ofNat 32 (0x41000000 ||| p <<< 8 ||| v)) = .command (.vshift p v .enc) ∧
    decode (BitVec.ofNat 32 (0x41000020 ||| p <<< 8 ||| v)) = .command (.vshift p v .dec) ∧
    (s.vkeyValid = false → ∀ dir, exec (.vshift p v dir) s = .next (notConfigured s)) ∧
    (s.vkeyValid = true → s.VkeyLoaded → v < 26 →
      exec (.vshift p v .enc) s = .next { s with
        err := 0, errinfo := 0, result := BitVec.ofNat 32 ((v + offsetOf s p) % 26) } ∧
      exec (.vshift p v .dec) s = .next { s with
        err := 0, errinfo := 0, result := BitVec.ofNat 32 ((v + 26 - offsetOf s p) % 26) }) ∧
    (s.vkeyValid = true → 26 ≤ v → ∀ dir,
      exec (.vshift p v dir) s = .next { s with err := 8, errinfo := BitVec.ofNat 32 v })

/-- R183, R184, R186, R187: VENC and VDEC without a substitution key raise NotConfigured; with a
loaded key VENC adds to each retained letter the offset of its position, VDEC
subtracts it; `RESULT` is the new length. -/
def Obligations.VencAndVdecShiftText : Prop :=
  decode 0x42000000 = .command .venc ∧ decode 0x43000000 = .command .vdec ∧
  (∀ s : State, s.vkeyValid = false →
    exec .venc s = .next (notConfigured s) ∧ exec .vdec s = .next (notConfigured s)) ∧
  ∀ s : State, s.vkeyValid = true → s.VkeyLoaded → s.tlen.toNat ≤ Config.textMax →
    let p := normalizeText s.textIn.1
    (∃ t out, exec .venc s = .next t ∧ HoldsText t out ∧ out.length = p.length ∧
      (∀ a b, p[a]? = some b →
        out[a]? = some (codecDec ((codecEnc b + offsetOf s a) % 26))) ∧
      t.result.toNat = p.length ∧ t.err = 0 ∧ t.errinfo = 0 ∧ OnlyTextChanged s t) ∧
    (∃ t out, exec .vdec s = .next t ∧ HoldsText t out ∧ out.length = p.length ∧
      (∀ a b, p[a]? = some b →
        out[a]? = some (codecDec ((codecEnc b + 26 - offsetOf s a) % 26))) ∧
      t.result.toNat = p.length ∧ t.err = 0 ∧ t.errinfo = 0 ∧ OnlyTextChanged s t)

/-- R188: with a valid substitution key, VENC then VDEC leaves the normalised text. -/
def Obligations.SubstitutionRoundTrip : Prop :=
  ∀ s : State, s.Inv → s.vkeyValid = true →
    ∃ t u, exec .venc s = .next t ∧ exec .vdec t = .next u ∧
      HoldsText u (normalizeText s.textIn.1)

/-! ## Pipeline commands -/

/-- R201: PBUILD loads both keys exactly as MKEY and VKEY would; if the matrix key fails, the error
and detail are MKEY's and the substitution key is not examined; if the substitution key fails, they
are VKEY's; either failure clears both keys. The runs compared start with equal counts of free
values, so that an undefined byte of the raw key reads the same in both: the model's choice (log
entry 1). -/
def Obligations.PbuildLoadsBothOrNeither : Prop :=
  ∀ (s m v : State) (r c : Nat), r < 16 → c < 16 →
    exec (.mkey r c) s = .next m → exec .vkey s = .next v →
    decode (BitVec.ofNat 32 (0x50000000 ||| r <<< 4 ||| c)) = .command (.pbuild r c) ∧
    (m.err ≠ 0 → exec (.pbuild r c) s = .next { m with vkeyValid := false, vofflen := 0 }) ∧
    (m.err = 0 → v.err ≠ 0 →
      exec (.pbuild r c) s = .next { v with
        mkeyValid := false, n := 0, det := 0, detinv := 0
        k := ⟨0, 0, 0, 0, 0, 0, 0, 0, 0⟩, ki := ⟨0, 0, 0, 0, 0, 0, 0, 0, 0⟩ }) ∧
    (m.err = 0 → v.err = 0 →
      exec (.pbuild r c) s = .next { m with
        vkeyValid := true, vofflen := v.vofflen, voff := v.voff, draws := v.draws
        result := BitVec.ofNat 32
          (65536 * v.vofflen.toNat + 256 * m.detinv.toNat + m.det.toNat) })

/-- R201: PBUILD on a good shape, a determinant coprime to 26 and a raw key with a letter completes
with both keys loaded. -/
def Obligations.PbuildCompletes : Prop :=
  ∀ (s : State) (n d : Nat), n = 2 ∨ n = 3 → (d : Int) = det (kinInts s.kin) n % 26 →
    Nat.gcd d 26 = 1 → s.vklen.toNat ≤ Config.vkeyMax →
    (s.keyIn.1.filter isLetter) ≠ [] →
    ∃ t, exec (.pbuild n n) s = .next t ∧ t.pipeValid = true ∧ t.err = 0 ∧ t.errinfo = 0 ∧
      t.order = n ∧ t.det.toNat = d ∧
      t.vofflen.toNat = (s.keyIn.1.filter isLetter).length

/-- R202: PENC without both keys raises NotConfigured; with both loaded it rewrites the text: the
Hill stage over the normalised and padded text, then the substitution stage, positions counted from
0 over the Hill output. -/
def Obligations.PencEncryptsText : Prop :=
  decode 0x51000000 = .command .penc ∧
  (∀ s : State, (s.mkeyValid && s.vkeyValid) = false → exec .penc s = .next (notConfigured s)) ∧
  ∀ s : State, s.mkeyValid = true → s.order = 2 ∨ s.order = 3 →
    s.vkeyValid = true → s.VkeyLoaded → s.tlen.toNat ≤ Config.textMax →
    let p := pad (normalizeText s.textIn.1) s.order
    ∃ t out, exec .penc s = .next t ∧ HoldsText t out ∧ out.length = p.length ∧
      (∀ a, a < p.length →
        out[a]? = some (codecDec ((codecEnc (blockLetter s.k s.order p a) + offsetOf s a) % 26))) ∧
      t.result.toNat = p.length ∧ t.err = 0 ∧ t.errinfo = 0 ∧ OnlyTextChanged s t

/-- R203: PDEC without both keys raises NotConfigured; with both loaded it rewrites the text: the
substitution stage, then the Hill stage through `KI`; a letter count that is no multiple of n raises
MalformedBlockLength with that count, the text unchanged. -/
def Obligations.PdecDecryptsText : Prop :=
  decode 0x52000000 = .command .pdec ∧
  (∀ s : State, (s.mkeyValid && s.vkeyValid) = false → exec .pdec s = .next (notConfigured s)) ∧
  ∀ (s : State) (v : List Byte), s.mkeyValid = true → s.order = 2 ∨ s.order = 3 →
    s.vkeyValid = true → s.VkeyLoaded → s.tlen.toNat ≤ Config.textMax →
    v.length = (normalizeText s.textIn.1).length →
    (∀ a b, (normalizeText s.textIn.1)[a]? = some b →
      v[a]? = some (codecDec ((codecEnc b + 26 - offsetOf s a) % 26))) →
    (v.length % s.order = 0 →
      ∃ t out, exec .pdec s = .next t ∧ HoldsText t out ∧ out.length = v.length ∧
        (∀ a, a < v.length → out[a]? = some (blockLetter s.ki s.order v a)) ∧
        t.result.toNat = v.length ∧ t.err = 0 ∧ t.errinfo = 0 ∧ OnlyTextChanged s t) ∧
    (v.length % s.order ≠ 0 →
      exec .pdec s = .next { s.textIn.2 with err := 5, errinfo := BitVec.ofNat 32 v.length })

/-- R204: with a valid pipeline, PENC then PDEC leaves the normalised and padded text, and a text of
uppercase letters whose length is a multiple of n itself. -/
def Obligations.PipelineRoundTrip : Prop :=
  ∀ s : State, s.Inv → s.mkeyValid = true → s.vkeyValid = true →
    ∃ t u, exec .penc s = .next t ∧ exec .pdec t = .next u ∧
      HoldsText u (pad (normalizeText s.textIn.1) s.order) ∧
      (UpperLetters s.textIn.1 → s.textIn.1.length % s.order = 0 → HoldsText u s.textIn.1)
end

