-- ==== Sys2Proof/Laws/Decode.lean ====
section
/-! SUPPORT. The laws of the decoder: rows do not overlap, a word that meets a row decodes to that
row's command, and how the fields of a laid-out word are read back. -/

namespace Sys2Proof

/-- Concatenation as arithmetic. -/
theorem toNat_append_add {n m : Nat} (x : BitVec n) (y : BitVec m) :
    (x ++ y).toNat = x.toNat * 2 ^ m + y.toNat := by
  rw [BitVec.toNat_append, ← Nat.shiftLeft_add_eq_or_of_lt y.isLt, Nat.shiftLeft_eq]

/-- A word from its number. -/
theorem ofNat_append {n m : Nat} (a b : Nat) (hb : b < 2 ^ m) :
    (BitVec.ofNat n a ++ BitVec.ofNat m b : BitVec (n + m)) = BitVec.ofNat (n + m) (a * 2 ^ m + b) := by
  apply BitVec.eq_of_toNat_eq
  rw [toNat_append_add, BitVec.toNat_ofNat, BitVec.toNat_ofNat, BitVec.toNat_ofNat,
    Nat.mod_eq_of_lt hb, Nat.pow_add, Nat.mul_comm (2 ^ n), Nat.mod_mul]
  have h1 : (a * 2 ^ m + b) % 2 ^ m = b := by
    rw [Nat.mul_comm, Nat.mul_add_mod, Nat.mod_eq_of_lt hb]
  have h2 : (a * 2 ^ m + b) / 2 ^ m = a := by
    rw [Nat.mul_comm, Nat.mul_add_div (by positivity), Nat.div_eq_of_lt hb, Nat.add_zero]
  rw [h1, h2, Nat.mul_comm, Nat.add_comm]

/-- Every row fixes the whole opcode byte. -/
theorem opcodeRows_mask_top : ∀ r ∈ opcodeRows, r.mask.extractLsb' 24 8 = 0xFF#8 := by
  simp only [opcodeRows, opcodeRowsLow, opcodeRowsHigh, List.cons_append, List.nil_append,
    List.forall_mem_cons]
  refine ⟨?_, ?_, ?_, ?_, ?_, ?_, ?_, ?_, ?_, ?_, ?_, ?_, ?_, ?_, ?_, ?_, ?_, ?_, ?_, ?_⟩ <;>
    decide

/-- The opcode bytes of the rows differ (R82: "No two rows overlap"). -/
theorem opcodeRows_nodup : (opcodeRows.map fun r => r.pattern.extractLsb' 24 8).Nodup := by decide

/-- A word that meets a row has that row's opcode byte. -/
theorem OpcodeRow.top_of_matches {r : OpcodeRow} {w : Word} (hr : r ∈ opcodeRows)
    (h : r.matches w = true) : w.extractLsb' 24 8 = r.pattern.extractLsb' 24 8 := by
  have hm := opcodeRows_mask_top r hr
  simp only [OpcodeRow.matches, beq_iff_eq] at h
  rw [← h, BitVec.extractLsb'_and, hm]
  exact (BitVec.and_allOnes (x := w.extractLsb' 24 8)).symm

/-- A word that meets a row decodes to that row's command. -/
theorem decode_of_row {r : OpcodeRow} {w : Word} (hr : r ∈ opcodeRows)
    (h : r.matches w = true) : decode w = .command (r.build w) := by
  unfold decode
  cases hf : opcodeRows.find? fun r => r.matches w with
  | none => exact absurd h (by simpa using List.find?_eq_none.1 hf r hr)
  | some r' =>
    have hr' := List.mem_of_find?_eq_some hf
    have hm' : r'.matches w = true := by simpa using List.find?_some hf
    have htop : r'.pattern.extractLsb' 24 8 = r.pattern.extractLsb' 24 8 := by
      rw [← OpcodeRow.top_of_matches hr' hm', OpcodeRow.top_of_matches hr h]
    rw [List.inj_on_of_nodup_map opcodeRows_nodup hr' hr htop]

/-- A word that decodes to a command meets a row that builds it. -/
theorem row_of_decode {w : Word} {i : Instr} (h : decode w = .command i) :
    ∃ r ∈ opcodeRows, r.matches w = true ∧ r.build w = i := by
  unfold decode at h
  cases hf : opcodeRows.find? fun r => r.matches w with
  | none =>
    rw [hf] at h
    simp only at h
    split at h <;> cases h
  | some r =>
    rw [hf] at h
    cases h
    exact ⟨r, List.mem_of_find?_eq_some hf, by simpa using List.find?_some hf, rfl⟩

/-- A word that meets no row is illegal. -/
theorem decode_illegal {w : Word} (h : ∀ r ∈ opcodeRows, r.matches w = false) :
    ∃ why, decode w = .illegal why := by
  unfold decode
  have hf : (opcodeRows.find? fun r => r.matches w) = none :=
    List.find?_eq_none.2 fun r hr => by simp [h r hr]
  rw [hf]
  simp only
  split <;> exact ⟨_, rfl⟩

/-! The number of each layout's word. -/

theorem layoutN_toNat (opc : BitVec 8) : (layoutN opc).toNat = opc.toNat * 2 ^ 24 := by
  simp only [layoutN, toNat_append_add, BitVec.toNat_ofNat]; omega

theorem layoutB_toNat (opc : BitVec 8) (b : Nat) (h : b < 256) :
    (layoutB opc b).toNat = opc.toNat * 2 ^ 24 + b := by
  simp only [layoutB, toNat_append_add, BitVec.toNat_ofNat]; omega

theorem layoutG_toNat (opc : BitVec 8) (a b : Nat) (ha : a < 256) (hb : b < 256) :
    (layoutG opc a b).toNat = opc.toNat * 2 ^ 24 + a * 2 ^ 8 + b := by
  simp only [layoutG, toNat_append_add, BitVec.toNat_ofNat]; omega

theorem layoutA_toNat (opc : BitVec 8) (a b c : Nat) (ha : a < 32) (hb : b < 32) (hc : c < 32) :
    (layoutA opc a b c).toNat = opc.toNat * 2 ^ 24 + a * 2 ^ 10 + b * 2 ^ 5 + c := by
  simp only [layoutA, toNat_append_add, BitVec.toNat_ofNat]; omega

theorem layoutK_toNat (opc : BitVec 8) (r c : Nat) (hr : r < 16) (hc : c < 16) :
    (layoutK opc r c).toNat = opc.toNat * 2 ^ 24 + r * 2 ^ 4 + c := by
  simp only [layoutK, toNat_append_add, BitVec.toNat_ofNat]; omega

theorem layoutM_toNat (opc : BitVec 8) (sel : KeySel) :
    (layoutM opc sel).toNat = opc.toNat * 2 ^ 24 + (selBit sel).toNat := by
  simp only [layoutM, toNat_append_add, BitVec.toNat_ofNat]; omega

theorem layoutV_toNat (opc : BitVec 8) (p : Nat) (dir : Dir) (v : Nat) (hp : p < 65536)
    (hv : v < 32) :
    (layoutV opc p dir v).toNat =
      opc.toNat * 2 ^ 24 + p * 2 ^ 8 + (dirBit dir).toNat * 2 ^ 5 + v := by
  simp only [layoutV, toNat_append_add, BitVec.toNat_ofNat]; omega

/-! What each mask tests, as arithmetic on the word's number. -/

/-- A mask of all bits from `k` up tests the word's quotient. -/
theorem and_highMask (w : Word) (k : Nat) (hk : k ≤ 32) :
    w &&& BitVec.ofNat 32 (2 ^ 32 - 2 ^ k) = BitVec.ofNat 32 (w.toNat / 2 ^ k * 2 ^ k) := by
  have hmask : BitVec.ofNat 32 (2 ^ 32 - 2 ^ k) = BitVec.allOnes 32 <<< k := by
    interval_cases k <;> decide
  have hval : BitVec.ofNat 32 (w.toNat / 2 ^ k * 2 ^ k) = (w >>> k) <<< k := by
    apply BitVec.eq_of_toNat_eq
    simp [BitVec.toNat_shiftLeft, BitVec.toNat_ushiftRight, Nat.shiftLeft_eq, Nat.shiftRight_eq_div_pow]
  rw [hmask, hval]
  ext i hi
  simp only [BitVec.getElem_and, BitVec.getElem_shiftLeft, BitVec.getElem_allOnes,
    BitVec.getElem_ushiftRight]
  by_cases hik : i < k
  · simp [hik]
  · simp only [hik, decide_false, Bool.not_false, Bool.true_and, Bool.and_true]
    rw [show k + (i - k) = i by omega]
    exact (BitVec.getLsbD_eq_getElem hi).symm

/-- A word cut at the field boundaries of format V. -/
theorem splitV (w : Word) :
    w = w.extractLsb' 24 8 ++ w.extractLsb' 8 16 ++ w.extractLsb' 6 2 ++ w.extractLsb' 0 6 := by
  apply BitVec.eq_of_toNat_eq
  simp only [toNat_append_add, BitVec.extractLsb'_toNat, Nat.shiftRight_eq_div_pow]
  have := w.isLt
  omega

/-- The mask of format V tests the opcode byte and bits [7:6]. -/
theorem and_maskV (w p : Word) (hp : p = p.extractLsb' 24 8 ++ 0#24) :
    w &&& maskV = p ↔ w.extractLsb' 24 8 = p.extractLsb' 24 8 ∧ w.extractLsb' 6 2 = 0#2 := by
  have hm : maskV = 0xFF#8 ++ 0#16 ++ 3#2 ++ 0#6 := by decide
  have h0 : (0#24 : BitVec 24) = 0#16 ++ 0#2 ++ 0#6 := by decide
  have hand : w &&& maskV =
      w.extractLsb' 24 8 ++ 0#16 ++ w.extractLsb' 6 2 ++ 0#6 := by
    conv_lhs => rw [splitV w, hm, BitVec.and_append, BitVec.and_append, BitVec.and_append]
    have h8 : (0xFF#8 : BitVec 8) = BitVec.allOnes 8 := by decide
    have h2 : (3#2 : BitVec 2) = BitVec.allOnes 2 := by decide
    rw [h8, h2, BitVec.and_allOnes, BitVec.and_allOnes, BitVec.and_zero, BitVec.and_zero]
  rw [hand]
  constructor
  · intro h
    constructor
    · rw [← h]
      apply BitVec.eq_of_toNat_eq
      simp only [toNat_append_add, BitVec.extractLsb'_toNat, Nat.shiftRight_eq_div_pow,
        BitVec.toNat_ofNat]
      have := w.isLt
      omega
    · have h' := congrArg (fun x => x.extractLsb' 6 2) h
      rw [hp] at h'
      have ht := congrArg BitVec.toNat h'
      apply BitVec.eq_of_toNat_eq
      simp only [toNat_append_add, BitVec.extractLsb'_toNat, Nat.shiftRight_eq_div_pow,
        BitVec.toNat_ofNat] at ht ⊢
      have := w.isLt
      have := p.isLt
      omega
  · rintro ⟨h1, h2⟩
    conv_rhs => rw [hp]
    rw [h1, h2]
    apply BitVec.eq_of_toNat_eq
    simp only [toNat_append_add, BitVec.toNat_ofNat]
    omega

end Sys2Proof
end

