-- ==== Sys2Proof/Laws/Memory.lean ====
section
/-! SUPPORT. The laws of a buffer's bytes: a read after a store, the canonical form, and what
reading a run of bytes gives. -/

namespace Sys2Proof.Machine

@[simp] theorem Memory.lookup_nil (a : Nat) : Memory.lookup [] a = none := rfl

theorem Memory.lookup_cons (i : Nat) (b : Byte) (m : Memory) (a : Nat) :
    Memory.lookup ((i, b) :: m) a = if i = a then some b else Memory.lookup m a := rfl

/-- A read after a store: the byte stored, and every other element as before. -/
theorem Memory.lookup_store (m : Memory) (a c : Nat) (b : Byte) :
    Memory.lookup (Memory.store m a b) c = if c = a then some b else Memory.lookup m c := by
  induction m with
  | nil => simp only [Memory.store, Memory.lookup_cons, Memory.lookup_nil, eq_comm]
  | cons cell rest ih =>
    obtain ⟨i, x⟩ := cell
    simp only [Memory.store]
    split
    · simp only [Memory.lookup_cons, eq_comm (a := a) (b := c)]
    · split
      · next h => subst h; simp only [Memory.lookup_cons, eq_comm (a := a) (b := c)]; split <;> rfl
      · simp only [Memory.lookup_cons, ih]
        split <;> split <;> first | rfl | omega

/-- A read after a run of stores. -/
theorem Memory.lookup_storeList (bs : List Byte) (m : Memory) (a c : Nat) :
    Memory.lookup (Memory.storeList m a bs) c =
      if a ≤ c ∧ c < a + bs.length then bs[c - a]? else Memory.lookup m c := by
  induction bs generalizing m a with
  | nil => simp [Memory.storeList]
  | cons b bs ih =>
    simp only [Memory.storeList, ih, Memory.lookup_store, List.length_cons]
    by_cases hc : c = a
    · subst hc; rw [if_neg (by omega), if_pos rfl, if_pos (by omega)]; simp
    · by_cases hin : a ≤ c ∧ c < a + (bs.length + 1)
      · rw [if_pos (by omega), if_pos hin]
        obtain ⟨j, rfl⟩ : ∃ j, c = a + 1 + j := ⟨c - a - 1, by omega⟩
        rw [show a + 1 + j - (a + 1) = j by omega, show a + 1 + j - a = j + 1 by omega]
        simp
      · rw [if_neg (by omega), if_neg hc, if_neg hin]

/-- What a buffer that holds exactly `bs` reads as. -/
theorem Memory.lookup_ofBytes (bs : List Byte) (a c : Nat) :
    Memory.lookup (Memory.ofBytes a bs) c = if a ≤ c then bs[c - a]? else none := by
  induction bs generalizing a with
  | nil => simp [Memory.ofBytes]
  | cons b bs ih =>
    simp only [Memory.ofBytes, Memory.lookup_cons, ih]
    by_cases hc : a = c
    · subst hc; simp
    · by_cases hle : a ≤ c
      · rw [if_neg hc, if_pos (by omega), if_pos hle]
        obtain ⟨j, rfl⟩ : ∃ j, c = a + 1 + j := ⟨c - a - 1, by omega⟩
        rw [show a + 1 + j - (a + 1) = j by omega, show a + 1 + j - a = j + 1 by omega]
        simp
      · rw [if_neg hc, if_neg (by omega), if_neg hle]

/-! The canonical form. -/

/-- The canonical form in the library's terms. -/
theorem Memory.wf_iff (m : Memory) : Memory.wf m = true ↔ m.Pairwise fun x y => x.1 < y.1 := by
  induction m with
  | nil => simp [Memory.wf]
  | cons x m ih =>
    cases m with
    | nil => simp [Memory.wf]
    | cons y m =>
      simp only [Memory.wf, Bool.and_eq_true, decide_eq_true_eq, ih, List.pairwise_cons]
      constructor
      · rintro ⟨hxy, hm⟩
        refine ⟨?_, hm⟩
        intro z hz
        rcases List.mem_cons.1 hz with rfl | hz
        · exact hxy
        · exact lt_trans hxy (hm.1 z hz)
      · rintro ⟨hx, hm⟩
        exact ⟨hx y (List.mem_cons_self ..), hm⟩

theorem Memory.mem_store (m : Memory) (a : Nat) (b : Byte) (c : Host.Cell) :
    c ∈ Memory.store m a b → c = (a, b) ∨ c ∈ m := by
  induction m with
  | nil => simp [Memory.store]
  | cons x m ih =>
    obtain ⟨i, y⟩ := x
    simp only [Memory.store]
    split
    · simp
    · split
      · simp only [List.mem_cons]; tauto
      · simp only [List.mem_cons]; tauto

/-- A store keeps the canonical form. -/
theorem Memory.wf_store (m : Memory) (a : Nat) (b : Byte) (h : Memory.wf m = true) :
    Memory.wf (Memory.store m a b) = true := by
  rw [Memory.wf_iff] at h ⊢
  induction m with
  | nil => simp [Memory.store]
  | cons x m ih =>
    obtain ⟨i, y⟩ := x
    rw [List.pairwise_cons] at h
    simp only [Memory.store]
    split
    · next hai =>
      rw [List.pairwise_cons]
      refine ⟨?_, List.pairwise_cons.2 h⟩
      intro z hz
      rcases List.mem_cons.1 hz with rfl | hz
      · exact hai
      · exact lt_trans hai (h.1 z hz)
    · split
      · next hai => subst hai; exact List.pairwise_cons.2 h
      · next h1 h2 =>
        rw [List.pairwise_cons]
        refine ⟨?_, ih h.2⟩
        intro z hz
        rcases Memory.mem_store m a b z hz with rfl | hz
        · show i < a; omega
        · exact h.1 z hz

/-- A store below the capacity keeps every index below it. -/
theorem Memory.below_store (cap : Nat) (m : Memory) (a : Nat) (b : Byte)
    (h : Memory.below cap m = true) (ha : a < cap) : Memory.below cap (Memory.store m a b) = true := by
  simp only [Memory.below, List.all_eq_true, decide_eq_true_eq] at h ⊢
  intro c hc
  rcases Memory.mem_store m a b c hc with rfl | hc
  · exact ha
  · exact h c hc

theorem Memory.wf_storeList (bs : List Byte) (m : Memory) (a : Nat) (h : Memory.wf m = true) :
    Memory.wf (Memory.storeList m a bs) = true := by
  induction bs generalizing m a with
  | nil => exact h
  | cons b bs ih => exact ih _ _ (Memory.wf_store m a b h)

theorem Memory.below_storeList (cap : Nat) (bs : List Byte) (m : Memory) (a : Nat)
    (h : Memory.below cap m = true) (ha : a + bs.length ≤ cap) :
    Memory.below cap (Memory.storeList m a bs) = true := by
  induction bs generalizing m a with
  | nil => exact h
  | cons b bs ih =>
    simp only [List.length_cons] at ha
    exact ih _ _ (Memory.below_store cap m a b h (by omega)) (by omega)

theorem Memory.mem_ofBytes (bs : List Byte) (a : Nat) (c : Host.Cell)
    (h : c ∈ Memory.ofBytes a bs) : a ≤ c.1 ∧ c.1 < a + bs.length := by
  induction bs generalizing a with
  | nil => simp [Memory.ofBytes] at h
  | cons b bs ih =>
    simp only [Memory.ofBytes, List.mem_cons] at h
    rcases h with rfl | h
    · simp
    · have := ih _ h; simp only [List.length_cons]; omega

/-- A buffer that holds exactly `bs` is in canonical form. -/
theorem Memory.wf_ofBytes (bs : List Byte) (a : Nat) : Memory.wf (Memory.ofBytes a bs) = true := by
  rw [Memory.wf_iff]
  induction bs generalizing a with
  | nil => simp [Memory.ofBytes]
  | cons b bs ih =>
    simp only [Memory.ofBytes, List.pairwise_cons]
    exact ⟨fun z hz => by have := Memory.mem_ofBytes bs (a + 1) z hz; show a < z.1; omega, ih _⟩

theorem Memory.below_ofBytes (cap : Nat) (bs : List Byte) (a : Nat) (h : a + bs.length ≤ cap) :
    Memory.below cap (Memory.ofBytes a bs) = true := by
  simp only [Memory.below, List.all_eq_true, decide_eq_true_eq]
  intro c hc
  have := Memory.mem_ofBytes bs a c hc
  omega

/-! Reading. -/

theorem Memory.readByte_some {m : Memory} {a : Nat} {b : Byte} (d : Nat)
    (h : Memory.lookup m a = some b) : Memory.readByte m a d = (b, d) := by
  simp [Memory.readByte, h]

theorem Memory.readByte_none {m : Memory} {a : Nat} (d : Nat) (h : Memory.lookup m a = none) :
    Memory.readByte m a d = (Config.draw d, d + 1) := by
  simp [Memory.readByte, h]

theorem Memory.readByte_mono (m : Memory) (a d : Nat) : d ≤ (Memory.readByte m a d).2 := by
  simp only [Memory.readByte]; split <;> simp

@[simp] theorem Memory.readBytes_length (m : Memory) (len a d : Nat) :
    (Memory.readBytes m a len d).1.length = len := by
  induction len generalizing a d with
  | zero => rfl
  | succ len ih => simp [Memory.readBytes, ih]

/-- A byte that holds a defined value is read as it stands. -/
theorem Memory.readBytes_get (m : Memory) (len a d j : Nat) (b : Byte) (hj : j < len)
    (h : Memory.lookup m (a + j) = some b) : (Memory.readBytes m a len d).1[j]? = some b := by
  induction len generalizing a d j with
  | zero => omega
  | succ len ih =>
    simp only [Memory.readBytes]
    cases j with
    | zero =>
      have h0 : Memory.lookup m a = some b := h
      simp [Memory.readByte_some d h0]
    | succ j =>
      rw [List.getElem?_cons_succ]
      exact ih _ _ _ (by omega) (by rw [← h]; congr 1; omega)

/-- A byte that holds no defined value is read as the next free value, counted in rising order. -/
theorem Memory.readBytes_free (m : Memory) (len a d j : Nat) (hj : j < len)
    (h : Memory.lookup m (a + j) = none) :
    (Memory.readBytes m a len d).1[j]? = some (Config.draw (d +
      ((List.range j).filter fun l => (Memory.lookup m (a + l)).isNone).length)) := by
  induction len generalizing a d j with
  | zero => omega
  | succ len ih =>
    simp only [Memory.readBytes]
    cases j with
    | zero =>
      rw [Nat.add_zero] at h
      simp [Memory.readByte_none d h]
    | succ j =>
      rw [List.getElem?_cons_succ, ih _ _ _ (by omega) (by rw [← h]; congr 1; omega),
        List.range_succ_eq_map, List.filter_cons, List.filter_map, Nat.add_zero]
      have hf : (fun l => (Memory.lookup m (a + l)).isNone) ∘ Nat.succ =
          fun l => (Memory.lookup m (a + 1 + l)).isNone := by
        funext l; simp only [Function.comp]; congr 2; omega
      rw [hf]
      cases ha : Memory.lookup m a with
      | none => simp [Memory.readByte_none d ha]; congr 1; omega
      | some b => simp [Memory.readByte_some d ha]

/-- Reading defined bytes takes no free value. -/
theorem Memory.readBytes_draws (m : Memory) (len a d : Nat)
    (h : ∀ j, j < len → (Memory.lookup m (a + j)).isSome = true) :
    (Memory.readBytes m a len d).2 = d := by
  induction len generalizing a d with
  | zero => rfl
  | succ len ih =>
    simp only [Memory.readBytes]
    obtain ⟨b, hb⟩ := Option.isSome_iff_exists.1 (h 0 (by omega))
    rw [Nat.add_zero] at hb
    rw [Memory.readByte_some d hb]
    exact ih _ _ fun j hj => by
      have := h (j + 1) (by omega)
      rwa [show a + (j + 1) = a + 1 + j by omega] at this

/-- A buffer that holds exactly `bs` is read back as `bs`. -/
theorem Memory.readBytes_ofBytes (bs : List Byte) (d : Nat) :
    Memory.readBytes (Memory.ofBytes 0 bs) 0 bs.length d = (bs, d) := by
  refine Prod.ext ?_ ?_
  · apply List.ext_getElem?
    intro j
    by_cases hj : j < bs.length
    · have hb : bs[j]? = some bs[j] := List.getElem?_eq_getElem hj
      rw [hb]
      exact Memory.readBytes_get _ _ _ _ _ _ hj (by simp [Memory.lookup_ofBytes, hb])
    · rw [List.getElem?_eq_none (by simpa using hj),
        List.getElem?_eq_none (by simpa using hj)]
  · exact Memory.readBytes_draws _ _ _ _ fun j hj => by simp [Memory.lookup_ofBytes, hj]

end Sys2Proof.Machine
end

