-- ==== Sys2Proof/Laws/Bus.lean ====
section
/-! SUPPORT. The laws of the window: the capacities, what an offset names, what a transaction does
when no command is pending, and how words and bytes of a buffer go together. -/

namespace Sys2Proof.Machine

/-- The capacity of `TXT` (R9). -/
theorem textMax_bounds :
    12 ≤ Config.textMax ∧ Config.textMax ≤ 4092 ∧ Config.textMax % 12 = 0 := by
  have := Config.textUnits.isLt
  unfold Config.textMax
  omega

/-- The capacity of `VKB` and `VOFF` (R10). -/
theorem vkeyMax_bounds : 4 ≤ Config.vkeyMax ∧ Config.vkeyMax ≤ 1024 ∧ Config.vkeyMax % 4 = 0 := by
  have := Config.vkeyUnits.isLt
  unfold Config.vkeyMax
  omega

/-- `STATUS` as a number: each field at its place (R25). -/
theorem State.statusWord_toNat (s : State) :
    s.statusWord.toNat = s.n.toNat * 256 + s.err.toNat * 16 + s.pipeValid.toNat * 8 +
      s.vkeyValid.toNat * 4 + s.mkeyValid.toNat * 2 + s.busy.toNat := by
  simp only [State.statusWord, toNat_append_add, BitVec.toNat_ofBool, BitVec.toNat_ofNat]
  omega

/-! Transactions with no command pending. -/

/-- A read leaves the core as it was: the answer, the named value and the count of free values. -/
theorem memRead_idle (s : State) (off : Word) (name : String) (hb : s.busy = false) :
    memRead off name s = .next { s with
      draws := (busRead s off).2.2, bus := some (.read (busRead s off).1 (busRead s off).2.1)
      reads := s.reads ++ [(name, (busRead s off).1)] } := by
  unfold memRead
  rw [hb]
  rfl

/-- An aligned write writes its slot. -/
theorem memWrite_idle (s : State) (off v : Word) (hb : s.busy = false)
    (ha : windowOffset off % 4 = 0) :
    memWrite off v s = .next { writeSlot s v (slotAt (windowOffset off)) with
      bus := some (.written false) } := by
  unfold memWrite
  rw [hb]
  simp only [ha]
  rfl

theorem readVoffByte_mono (s : State) (a d : Nat) : d ≤ (readVoffByte s a d).2 := by
  simp only [readVoffByte]
  split
  · exact Memory.readByte_mono _ _ _
  · simp

/-- The free-value counter never falls. -/
theorem readSlot_mono (s : State) (sl : Slot) : s.draws ≤ (readSlot s sl).2 := by
  have hm := fun m a d => Memory.readByte_mono m a d
  have hv := fun a d => readVoffByte_mono s a d
  cases sl <;> simp only [readSlot, readPacked, readVoffWord, le_refl]
  · exact (hm _ _ _).trans ((hm _ _ _).trans ((hm _ _ _).trans (hm _ _ _)))
  · exact (hv _ _).trans ((hv _ _).trans ((hv _ _).trans (hv _ _)))
  · exact (hm _ _ _).trans ((hm _ _ _).trans ((hm _ _ _).trans (hm _ _ _)))

/-! What an offset names. -/

theorem slotAt_txt (w : Nat) (h : 4 * w < Config.textMax) : slotAt (0x1000 + 4 * w) = .txt w := by
  unfold slotAt
  rw [if_neg, if_neg, if_neg, if_neg, if_neg, if_neg, if_neg, if_neg, if_neg, if_pos] <;>
    first | omega | skip
  congr 1
  omega

theorem slotAt_vkb (w : Nat) (h : 4 * w < Config.vkeyMax) : slotAt (0x800 + 4 * w) = .vkb w := by
  have := vkeyMax_bounds
  unfold slotAt
  rw [if_neg, if_neg, if_neg, if_neg, if_neg, if_neg, if_neg, if_pos, if_pos] <;>
    first | omega | skip
  congr 1
  omega

theorem slotAt_voff (w : Nat) (h : 4 * w < Config.vkeyMax) : slotAt (0xC00 + 4 * w) = .voff w := by
  have := vkeyMax_bounds
  unfold slotAt
  rw [if_neg, if_neg, if_neg, if_neg, if_neg, if_neg, if_neg, if_neg, if_pos, if_pos] <;>
    first | omega | skip
  congr 1
  omega

theorem singleSlot_not_buffer (w x : Nat) : singleSlot w ≠ .vkb x ∧ singleSlot w ≠ .txt x := by
  constructor <;> (intro h; unfold singleSlot at h; split at h <;> cases h)

theorem fileSlot9_cases (mk : Fin 9 → Slot) (w : Nat) :
    (∃ i, fileSlot9 mk w = mk i) ∨ fileSlot9 mk w = .reserved := by
  unfold fileSlot9
  split
  · exact .inl ⟨_, rfl⟩
  · exact .inr rfl

theorem fileSlot3_cases (mk : Fin 3 → Slot) (w : Nat) :
    (∃ i, fileSlot3 mk w = mk i) ∨ fileSlot3 mk w = .reserved := by
  unfold fileSlot3
  split
  · exact .inl ⟨_, rfl⟩
  · exact .inr rfl

/-! Words and bytes. -/

/-- `PARAMS` reads `VKEY_MAX` above `TEXT_MAX` (R32). -/
theorem paramsWord_toNat :
    Config.paramsWord.toNat = 65536 * Config.vkeyMax + Config.textMax := by
  have h := textMax_bounds
  have h' := vkeyMax_bounds
  unfold Config.paramsWord
  generalize Config.vkeyMax = k at *
  generalize Config.textMax = t at *
  rw [toNat_append_add, BitVec.toNat_ofNat, BitVec.toNat_ofNat]
  omega
/-! What the offsets of the register space name (R67). -/

theorem slotAt_single (o : Nat) (h : o < 0x040) : slotAt o = singleSlot (o / 4) := by
  unfold slotAt; rw [if_pos h]

theorem slotAt_kin (i : Fin 9) : slotAt (0x040 + 4 * i.val) = .kin i := by revert i; decide

theorem slotAt_k (i : Fin 9) : slotAt (0x080 + 4 * i.val) = .k i := by revert i; decide

theorem slotAt_ki (i : Fin 9) : slotAt (0x0C0 + 4 * i.val) = .ki i := by revert i; decide

theorem slotAt_vin (i : Fin 3) : slotAt (0x100 + 4 * i.val) = .vin i := by revert i; decide

theorem slotAt_vout (i : Fin 3) : slotAt (0x110 + 4 * i.val) = .vout i := by revert i; decide

/-- No offset below 0x800 is a word of a buffer. -/
theorem slotAt_register (o : Nat) (h : o < 0x800) (w : Nat) :
    slotAt o ≠ .vkb w ∧ slotAt o ≠ .voff w ∧ slotAt o ≠ .txt w := by
  unfold slotAt
  have h1 : ∀ k, singleSlot k ≠ .voff w := fun k => by unfold singleSlot; split <;> simp
  have h2 := fun k => singleSlot_not_buffer k w
  split
  · exact ⟨(h2 _).1, h1 _, (h2 _).2⟩
  repeat' split
  all_goals first | (unfold fileSlot9; split <;> simp) | (unfold fileSlot3; split <;> simp) | simp

/-- A read below 0x800 takes no free value. -/
theorem readSlot_register (s : State) (o : Nat) (h : o < 0x800) :
    (readSlot s (slotAt o)).2 = s.draws := by
  have := slotAt_register o h
  cases hs : slotAt o <;> simp [readSlot, hs] at this ⊢

/-- A word cut into its bytes and packed again. -/
theorem packWord_unpack (v : Word) :
    packWord (v.extractLsb' 0 8) (v.extractLsb' 8 8) (v.extractLsb' 16 8) (v.extractLsb' 24 8) =
      v := by
  apply BitVec.eq_of_toNat_eq
  simp only [packWord, toNat_append_add, BitVec.extractLsb'_toNat, Nat.shiftRight_eq_div_pow]
  have := v.isLt
  omega

/-- Byte `b` of a packed word (R63). -/
theorem packWord_byte (b0 b1 b2 b3 : Byte) (b : Nat) (hb : b < 4) :
    (packWord b0 b1 b2 b3).extractLsb' (8 * b) 8 = [b0, b1, b2, b3].getD b 0 := by
  have := b0.isLt
  have := b1.isLt
  have := b2.isLt
  have := b3.isLt
  interval_cases b <;>
    (apply BitVec.eq_of_toNat_eq
     rw [BitVec.extractLsb'_toNat]
     simp only [packWord, toNat_append_add, Nat.shiftRight_eq_div_pow]
     simp
     omega)

/-- A packed word holds each defined byte of its buffer word at its place (R63, R66). -/
theorem readPacked_byte (m : Memory) (w d b : Nat) (x : Byte) (hb : b < 4)
    (h : Memory.lookup m (4 * w + b) = some x) :
    (readPacked m w d).1.extractLsb' (8 * b) 8 = x := by
  have hx : ∀ e, (Memory.readByte m (4 * w + b) e).1 = x := fun e => by
    rw [Memory.readByte_some e h]
  simp only [readPacked, packWord_byte _ _ _ _ b hb]
  interval_cases b <;> exact hx _

/-- The bytes a word write stores (R66). -/
theorem Memory.lookup_storeWord (m : Memory) (w : Nat) (v : Word) (b : Nat) (hb : b < 4) :
    Memory.lookup (Memory.storeList m (4 * w) (unpackWord v)) (4 * w + b) =
      some (v.extractLsb' (8 * b) 8) := by
  rw [Memory.lookup_storeList, if_pos (by simp [unpackWord]; omega)]
  interval_cases b <;> simp [unpackWord]

/-- A word written is the word read. -/
theorem readPacked_storeWord (m : Memory) (w : Nat) (v : Word) (d : Nat) :
    readPacked (Memory.storeList m (4 * w) (unpackWord v)) w d = (v, d) := by
  have h := Memory.lookup_storeWord m w v
  have h0 := h 0 (by decide)
  rw [Nat.add_zero] at h0
  simp only [readPacked]
  rw [Memory.readByte_some _ h0, Memory.readByte_some _ (h 1 (by decide)),
    Memory.readByte_some _ (h 2 (by decide)), Memory.readByte_some _ (h 3 (by decide))]
  simp [packWord_unpack]

/-! Register files. -/

@[simp] theorem Mat.get_ofFn {α : Type} (f : Fin 9 → α) (i : Fin 9) : (Mat.ofFn f).get i = f i := by
  fin_cases i <;> rfl

theorem Mat.get_set {α : Type} (m : Mat α) (i j : Fin 9) (v : α) :
    (m.set i v).get j = if j = i then v else m.get j := by
  simp [Mat.set]

theorem Vec.get_set {α : Type} (m : Vec α) (i j : Fin 3) (v : α) :
    (m.set i v).get j = if j = i then v else m.get j := by
  fin_cases i <;> fin_cases j <;> rfl

end Sys2Proof.Machine
end

