-- ==== Sys2Proof/Laws/Codec.lean ====
section
/-! SUPPORT. The laws of the codec functions and of reading and writing the text: what a letter
codes to, what normalisation keeps, and what `text_in` and `text_out` leave. -/

namespace Sys2Proof.Machine

theorem isLetter_iff (b : Byte) :
    isLetter b = true ↔
      (0x41 ≤ b.toNat ∧ b.toNat ≤ 0x5A) ∨ (0x61 ≤ b.toNat ∧ b.toNat ≤ 0x7A) := by
  simp [isLetter]

theorem upper_toNat (b : Byte) :
    (upper b).toNat = if 0x61 ≤ b.toNat ∧ b.toNat ≤ 0x7A then b.toNat - 0x20 else b.toNat := by
  have := b.isLt
  unfold upper
  split
  · rw [BitVec.toNat_sub]; simp; omega
  · rfl

theorem upper_range {b : Byte} (h : isLetter b = true) :
    0x41 ≤ (upper b).toNat ∧ (upper b).toNat ≤ 0x5A := by
  rw [isLetter_iff] at h
  rw [upper_toNat]
  split <;> omega

/-- An uppercase letter stays as it is. -/
theorem upper_of_upper {b : Byte} (h : 0x41 ≤ b.toNat ∧ b.toNat ≤ 0x5A) : upper b = b := by
  unfold upper
  rw [if_neg (by omega)]

theorem codecEnc_lt {b : Byte} (h : isLetter b = true) : codecEnc b < 26 := by
  have := upper_range h
  unfold codecEnc
  omega

theorem codecDec_toNat {v : Nat} (h : v < 26) : (codecDec v).toNat = 0x41 + v := by
  unfold codecDec
  rw [BitVec.toNat_ofNat]
  omega

theorem isLetter_codecDec {v : Nat} (h : v < 26) : isLetter (codecDec v) = true := by
  rw [isLetter_iff, codecDec_toNat h]
  omega

/-- Normalising uppercase letters changes nothing. -/
theorem normalizeText_of_upper {t : List Byte} (h : UpperLetters t) : normalizeText t = t := by
  induction t with
  | nil => rfl
  | cons b bs ih =>
    have hb := h b (by simp)
    have hl : isLetter b = true := by rw [isLetter_iff]; omega
    simp only [normalizeText, hl, if_true, upper_of_upper hb]
    rw [ih fun c hc => h c (by simp [hc])]

/-! Reading and writing the text. -/

theorem State.textIn_length (s : State) : s.textIn.1.length = s.tlen.toNat :=
  Memory.readBytes_length _ _ _ _

/-- Reading the text moves the free-value counter and nothing else. -/
theorem State.textIn_state (s : State) : s.textIn.2 = s.withDraws s.textIn.2.draws := rfl

theorem State.keyIn_length (s : State) : s.keyIn.1.length = s.vklen.toNat :=
  Memory.readBytes_length _ _ _ _

/-- Reading the raw key moves the free-value counter and nothing else. -/
theorem State.keyIn_state (s : State) : s.keyIn.2 = s.withDraws s.keyIn.2.draws := rfl

/-- A text written is the text held. -/
theorem holdsText_textOut (s : State) (bs : List Byte) (w : Word) (h : bs.length < 8192) :
    HoldsText ((s.textOut bs).complete w) bs := by
  refine ⟨?_, fun a _ => ?_, fun a ha => ?_⟩
  · show (BitVec.ofNat 13 bs.length).toNat = _
    rw [BitVec.toNat_ofNat]
    omega
  · show Memory.lookup (Memory.ofBytes 0 bs) a = _
    rw [Memory.lookup_ofBytes]
    simp
  · show Memory.lookup (Memory.ofBytes 0 bs) a = _
    rw [Memory.lookup_ofBytes]
    simpa using ha

/-- A text held is read back as it is, and reading it takes no free value. -/
theorem textIn_of_holdsText {t : State} {bs : List Byte} (h : HoldsText t bs) :
    t.textIn.1 = bs ∧ t.textIn.2 = t := by
  obtain ⟨h1, h2, h3⟩ := h
  constructor
  · apply List.ext_getElem?
    intro a
    by_cases ha : a < bs.length
    · have hg := h2 a ha
      rw [List.getElem?_eq_getElem ha] at hg ⊢
      exact Memory.readBytes_get _ _ _ _ _ _ (by omega) (by rw [Nat.zero_add]; exact hg)
    · rw [List.getElem?_eq_none (by rw [State.textIn_length]; omega),
        List.getElem?_eq_none (by omega)]
  · show t.withDraws _ = t
    rw [Memory.readBytes_draws]
    · rfl
    · intro j hj
      rw [Nat.zero_add, h2 j (by omega)]
      simp
      omega

end Sys2Proof.Machine
end

