-- ==== Sys2Proof/Laws/Key.lean ====
section
/-! SUPPORT. The laws of the key functions: residues, the reduced key and its inverse element by
element, the determinant and the adjugate modulo 26, and the four ways `mkey_eval` ends. -/

namespace Sys2Proof.Machine

theorem residueOf_toNat (x : Int) : ((residueOf x).toNat : Int) = x % 26 := by
  unfold residueOf
  rw [BitVec.toNat_ofNat]
  omega

theorem matInt_get (m : Mat Residue) (i : Fin 9) : (matInt m).get i = (m.get i).toNat := by
  unfold matInt
  rw [Mat.get_ofFn]

/-- An element of the reduced key (R153). -/
theorem reduceKin_toNat (kin : Mat Word) (n : Nat) (i : Fin 9) :
    (((reduceKin kin n).get i).toNat : Int) =
      if inBlock n i then (kin.get i).toInt % 26 else 0 := by
  unfold reduceKin
  rw [Mat.get_ofFn]
  split
  · exact residueOf_toNat _
  · rfl

/-- An element of the inverse (R153). -/
theorem invertKey_toNat (k : Mat Residue) (n di : Nat) (i : Fin 9) :
    (((invertKey k n di).get i).toNat : Int) =
      if inBlock n i then (di * (adj (matInt k) n).get i) % 26 else 0 := by
  unfold invertKey
  rw [Mat.get_ofFn]
  split
  · exact residueOf_toNat _
  · rfl

/-- Two integer matrices agree modulo 26 in their n×n block. -/
def MatCongr (n : Nat) (a b : Mat Int) : Prop :=
  ∀ i : Fin 9, inBlock n i = true → a.get i ≡ b.get i [ZMOD 26]

theorem matCongr_reduceKin (kin : Mat Word) (n : Nat) :
    MatCongr n (matInt (reduceKin kin n)) (kinInts kin) := by
  intro i h
  rw [matInt_get, reduceKin_toNat, if_pos h, kinInts, Mat.get_ofFn]
  exact Int.mod_modEq _ _

/-- The determinant modulo 26 depends on the residues alone. -/
theorem det_congr {n : Nat} (hn : n = 2 ∨ n = 3) {a b : Mat Int} (h : MatCongr n a b) :
    det a n ≡ det b n [ZMOD 26] := by
  rcases hn with rfl | rfl
  · have h0 := h 0 rfl
    have h1 := h 1 rfl
    have h3 := h 3 rfl
    have h4 := h 4 rfl
    simp only [Mat.get] at *
    simp only [det, if_true]
    exact (h0.mul h4).sub (h1.mul h3)
  · have h0 := h 0 rfl
    have h1 := h 1 rfl
    have h2 := h 2 rfl
    have h3 := h 3 rfl
    have h4 := h 4 rfl
    have h5 := h 5 rfl
    have h6 := h 6 rfl
    have h7 := h 7 rfl
    have h8 := h 8 rfl
    simp only [Mat.get] at *
    simp only [det]
    exact ((h0.mul ((h4.mul h8).sub (h5.mul h7))).sub
      (h1.mul ((h3.mul h8).sub (h5.mul h6)))).add (h2.mul ((h3.mul h7).sub (h4.mul h6)))

/-- The adjugate modulo 26 depends on the residues alone. -/
theorem adj_congr {n : Nat} (hn : n = 2 ∨ n = 3) {a b : Mat Int} (h : MatCongr n a b) (i : Fin 9)
    (hi : inBlock n i = true) : (adj a n).get i ≡ (adj b n).get i [ZMOD 26] := by
  rcases hn with rfl | rfl
  · have h0 := h 0 rfl
    have h1 := h 1 rfl
    have h3 := h 3 rfl
    have h4 := h 4 rfl
    simp only [Mat.get] at h0 h1 h3 h4
    fin_cases i <;> simp [inBlock] at hi <;> simp only [adj, if_true, Mat.get] <;>
      first | assumption | exact h1.neg | exact h3.neg
  · have h0 := h 0 rfl
    have h1 := h 1 rfl
    have h2 := h 2 rfl
    have h3 := h 3 rfl
    have h4 := h 4 rfl
    have h5 := h 5 rfl
    have h6 := h 6 rfl
    have h7 := h 7 rfl
    have h8 := h 8 rfl
    simp only [Mat.get] at h0 h1 h2 h3 h4 h5 h6 h7 h8
    fin_cases i <;> simp only [adj, Mat.get] <;> simp only [show ¬ (3 = 2) by decide, if_false] <;>
      (refine Int.ModEq.sub (Int.ModEq.mul ?_ ?_) (Int.ModEq.mul ?_ ?_) <;> assumption)

/-- The search finds an inverse of a residue coprime to 26. -/
theorem minv26_of_coprime : ∀ d, d < 26 → Nat.gcd d 26 = 1 →
    ∃ x, minv26 d = some x ∧ 1 ≤ x ∧ x ≤ 25 ∧ d * x % 26 = 1 := by
  intro d hd
  interval_cases d <;> first
    | (intro h; exact absurd h (by decide))
    | (intro _; exact ⟨_, rfl, by decide, by decide, by decide⟩)

/-- The ways `mkey_eval` ends (R153): a bad shape, a singular key, or a key. -/
theorem mkeyEval_cases (rows cols : Nat) (kin : Mat Word) :
    (¬ (rows = cols ∧ (rows = 2 ∨ rows = 3)) ∧
      mkeyEval rows cols kin = .error (.invalidKeyShape, shapeInfo rows cols)) ∨
    (rows = cols ∧ (rows = 2 ∨ rows = 3) ∧
      ∃ d : Nat, d < 26 ∧ (d : Int) = det (matInt (reduceKin kin rows)) rows % 26 ∧
        ((Nat.gcd d 26 ≠ 1 ∧
          mkeyEval rows cols kin = .error (.singularKey, singularInfo (Nat.gcd d 26) d)) ∨
        (Nat.gcd d 26 = 1 ∧ ∃ di, 1 ≤ di ∧ di ≤ 25 ∧ d * di % 26 = 1 ∧
          mkeyEval rows cols kin = .ok
            ⟨rows, reduceKin kin rows, invertKey (reduceKin kin rows) rows di, d, di⟩))) := by
  by_cases hs : rows = cols ∧ (rows = 2 ∨ rows = 3)
  · right
    refine ⟨hs.1, hs.2, (det (matInt (reduceKin kin rows)) rows % 26).toNat, by omega, by omega, ?_⟩
    obtain ⟨d, hd⟩ : ∃ d, (det (matInt (reduceKin kin rows)) rows % 26).toNat = d := ⟨_, rfl⟩
    have hd26 : d < 26 := by omega
    unfold mkeyEval
    rw [if_pos hs]
    simp only [hd]
    by_cases hg : Nat.gcd d 26 = 1
    · obtain ⟨di, hdi, h1, h2, h3⟩ := minv26_of_coprime d hd26 hg
      have h0 : d ≠ 0 := by rintro rfl; simp at hg
      exact .inr ⟨hg, di, h1, h2, h3, by rw [if_neg (by simp [hg, h0]), hdi]⟩
    · exact .inl ⟨hg, by rw [if_pos (Or.inr hg)]⟩
  · exact .inl ⟨hs, by unfold mkeyEval; rw [if_neg hs]⟩

/-! The substitution key. -/

theorem keyOffsets_eq (key : List Byte) : keyOffsets key = (key.filter isLetter).map codecEnc := by
  unfold keyOffsets
  induction key with
  | nil => rfl
  | cons b bs ih =>
    simp only [normalizeText, List.filter_cons]
    split
    · next h =>
      have hb : codecEnc (upper b) = codecEnc b := by
        unfold codecEnc
        rw [upper_of_upper (upper_range h)]
      simp only [List.map_cons, ih, hb]
    · exact ih

theorem keyOffsets_lt (key : List Byte) : ∀ o ∈ keyOffsets key, o < 26 := by
  intro o ho
  rw [keyOffsets_eq, List.mem_map] at ho
  obtain ⟨b, hb, rfl⟩ := ho
  exact codecEnc_lt (List.mem_filter.1 hb).2

theorem keyOffsets_length (key : List Byte) : (keyOffsets key).length ≤ key.length := by
  rw [keyOffsets_eq, List.length_map]
  exact List.length_filter_le _ _

/-- An installed offset is read back. -/
theorem lookup_installVkey (s : State) (o : List Nat) (a : Nat) (ha : a < o.length) :
    Memory.lookup (s.installVkey o).voff a = some (BitVec.ofNat 8 o[a]) := by
  show Memory.lookup (Memory.storeList s.voff 0 (o.map (BitVec.ofNat 8))) a = _
  rw [Memory.lookup_storeList, if_pos (by simp; omega)]
  simp [ha]

/-- What `VOFF` held beyond the installed offsets, it holds. -/
theorem lookup_installVkey_above (s : State) (o : List Nat) (a : Nat) (ha : o.length ≤ a) :
    Memory.lookup (s.installVkey o).voff a = Memory.lookup s.voff a := by
  show Memory.lookup (Memory.storeList s.voff 0 _) a = _
  rw [Memory.lookup_storeList, if_neg (by simp; omega)]

/-- With a loaded key every position has a stored offset, a residue. -/
theorem State.VkeyLoaded.offset {s : State} (h : s.VkeyLoaded) (a : Nat) :
    ∃ b, Memory.lookup s.voff (a % s.vofflen.toNat) = some b ∧ b.toNat < 26 ∧
      offsetOf s a = b.toNat := by
  have h1 := h.nonempty
  obtain ⟨b, hb, hlt⟩ := h.residues (a % s.vofflen.toNat) (Nat.mod_lt _ (by omega))
  exact ⟨b, hb, hlt, by unfold offsetOf; rw [hb]; rfl⟩

/-- With a loaded key the offsets read are the stored ones, and reading them takes no free value. -/
theorem State.VkeyLoaded.offsets {s : State} (h : s.VkeyLoaded) :
    s.offsets.1.length = s.vofflen.toNat ∧
      (∀ a, s.offsets.1.getD (a % s.vofflen.toNat) 0 = offsetOf s a) ∧ s.offsets.2 = s := by
  refine ⟨?_, ?_, ?_⟩
  · show (List.map _ _).length = _
    rw [List.length_map, Memory.readBytes_length]
  · intro a
    obtain ⟨b, hb, hlt, hoff⟩ := h.offset a
    have h0 : a % s.vofflen.toNat < s.vofflen.toNat :=
      Nat.mod_lt _ (by have := h.nonempty; omega)
    have hg := Memory.readBytes_get s.voff s.vofflen.toNat 0 s.draws (a % s.vofflen.toNat) b h0
      (by rw [Nat.zero_add]; exact hb)
    show (List.map _ _).getD _ 0 = _
    rw [List.getD_eq_getElem?_getD, List.getElem?_map, hg, hoff]
    rfl
  · show s.withDraws _ = s
    rw [Memory.readBytes_draws]
    · rfl
    · intro j hj
      rw [Nat.zero_add]
      obtain ⟨b, hb, _⟩ := h.residues j hj
      rw [hb]
      rfl

end Sys2Proof.Machine
end

