-- ==== Sys2Proof/Laws/Cipher.lean ====
section
/-! SUPPORT. The laws of the two cipher stages, letter by letter: the matrix–vector product as a row
times a vector, blocks of letters through the matrix, and letters through the offsets. -/

namespace Sys2Proof.Machine

theorem rowDot_lt (m : Mat Residue) (n i : Nat) (v : Nat → Nat) : rowDot m n i v < 26 :=
  Nat.mod_lt _ (by decide)

/-- A row reads the first `n` elements of the vector only. -/
theorem rowDot_congr (m : Mat Residue) (n i : Nat) (v w : Nat → Nat)
    (h : ∀ j, j < n → v j = w j) : rowDot m n i v = rowDot m n i w := by
  unfold rowDot
  congr 2
  apply List.map_congr_left
  intro j hj
  rw [h j (List.mem_range.1 hj)]

/-- The chain of multiply-accumulates is the row times the vector (R157). -/
theorem mvmul_eq (m : Mat Residue) (n : Nat) (hn : n = 2 ∨ n = 3) (v : Nat → Nat) :
    mvmul m ((List.range n).map v) n = (List.range n).map fun i => rowDot m n i v := by
  rcases hn with rfl | rfl
  · simp [mvmul, matRows, List.range_succ, mvRow, mac26, rowDot, entry, Mat.get]
  · simp [mvmul, matRows, List.range_succ, mvRow, mac26, rowDot, entry, Mat.get, Nat.add_assoc]

theorem mvmul_list (m : Mat Residue) (n : Nat) (hn : n = 2 ∨ n = 3) (l : List Nat)
    (hl : l.length = n) :
    mvmul m l n = (List.range n).map fun i => rowDot m n i fun j => l.getD j 0 := by
  rw [← mvmul_eq m n hn]
  congr 1
  apply List.ext_getElem?
  intro i
  by_cases h : i < n
  · simp [h, hl]
  · simp [hl, h]

theorem mvmul_length (m : Mat Residue) (n : Nat) (hn : n = 2 ∨ n = 3) (l : List Nat) :
    (mvmul m l n).length = n := by
  rcases hn with rfl | rfl <;> rfl

theorem mvRow_lt (acc : Nat) (h : acc < 26) (a b : List Nat) : mvRow acc a b < 26 := by
  induction a generalizing acc b with
  | nil => simpa [mvRow] using h
  | cons x xs ih =>
    cases b with
    | nil => simpa [mvRow] using h
    | cons y ys => exact ih _ (Nat.mod_lt _ (by decide)) _

/-- The product is made of residues, whatever the vector. -/
theorem mvmul_lt (m : Mat Residue) (v : List Nat) (n : Nat) : ∀ x ∈ mvmul m v n, x < 26 := by
  intro x hx
  unfold mvmul at hx
  rw [List.mem_map] at hx
  obtain ⟨r, _, rfl⟩ := hx
  exact mvRow_lt 0 (by decide) _ _

theorem hillBlock_length (m : Mat Residue) (n : Nat) (hn : n = 2 ∨ n = 3) (l : List Byte) :
    (hillBlock m n l).length = n := by
  simp [hillBlock, mvmul_length m n hn]

theorem hillRun_length (m : Mat Residue) (n : Nat) (hn : n = 2 ∨ n = 3) (c : Nat)
    (t : List Byte) : (hillRun m n c t).length = n * c := by
  induction c generalizing t with
  | zero => rfl
  | succ c ih =>
    simp only [hillRun, List.length_append, ih, hillBlock_length m n hn]
    ring

theorem hillBlock_get (m : Mat Residue) (n : Nat) (hn : n = 2 ∨ n = 3) (l : List Byte)
    (hl : l.length = n) (i : Nat) (hi : i < n) :
    (hillBlock m n l)[i]? =
      some (codecDec (rowDot m n i fun j => codecEnc (l.getD j 0))) := by
  unfold hillBlock
  rw [mvmul_list m n hn _ (by simpa using hl)]
  simp only [List.map_map, List.getElem?_map, List.getElem?_range hi, Option.map_some,
    Function.comp]
  congr 2
  apply rowDot_congr
  intro j hj
  simp [List.getD_eq_getElem?_getD, hl, hj]

/-- Consecutive blocks, letter by letter (R160). -/
theorem hillRun_get (m : Mat Residue) (n : Nat) (hn : n = 2 ∨ n = 3) (c : Nat) (t : List Byte)
    (ht : t.length = n * c) (a : Nat) (ha : a < n * c) :
    (hillRun m n c t)[a]? = some (blockLetter m n t a) := by
  induction c generalizing t a with
  | zero => simp at ha
  | succ c ih =>
    have hns : n * (c + 1) = n * c + n := by ring
    have hlt : (t.take n).length = n := by rw [List.length_take]; omega
    simp only [hillRun]
    by_cases h : a < n
    · rw [List.getElem?_append_left (by rw [hillBlock_length m n hn]; exact h),
        hillBlock_get m n hn _ hlt a h]
      unfold blockLetter
      rw [Nat.mod_eq_of_lt h, Nat.sub_self]
      congr 2
      apply rowDot_congr
      intro j hj
      simp [List.getD_eq_getElem?_getD, hj]
    · rw [List.getElem?_append_right (by rw [hillBlock_length m n hn]; omega),
        hillBlock_length m n hn, ih (t.drop n) (by rw [List.length_drop]; omega) (a - n) (by omega)]
      unfold blockLetter
      have h1 : (a - n) % n = a % n := by rw [← Nat.mod_eq_sub_mod (by omega)]
      rw [h1]
      congr 2
      apply rowDot_congr
      intro j hj
      have h2 : a % n ≤ a - n := by rw [← h1]; exact Nat.mod_le _ _
      have h3 : n + (a - n - a % n + j) = a - a % n + j := by omega
      simp [List.getD_eq_getElem?_getD, List.getElem?_drop, h3]

theorem hillBlocks_length_le (m : Mat Residue) (n : Nat) (hn : n = 2 ∨ n = 3) (t : List Byte) :
    (hillBlocks m t n).length ≤ t.length := by
  unfold hillBlocks
  rw [hillRun_length m n hn]
  exact Nat.mul_div_le _ _

/-! The substitution stage. -/

theorem shiftResidue_lt (dir : Dir) (v o : Nat) : shiftResidue dir v o < 26 := by
  cases dir <;> simp only [shiftResidue] <;> omega

/-- Decryption subtracts without falling below 0 (R184). -/
theorem shiftResidue_dec (v o : Nat) (hv : v < 26) (ho : o < 26) :
    shiftResidue .dec v o = (v + 26 - o) % 26 := by
  simp only [shiftResidue]
  omega

theorem vigRun_length (dir : Dir) (o : List Nat) (i : Nat) (t : List Byte) :
    (vigRun dir o i t).length = t.length := by
  induction t generalizing i with
  | nil => rfl
  | cons b bs ih => simp [vigRun, ih]

/-- The substitution, letter by letter (R183, R184). -/
theorem vigRun_get (dir : Dir) (o : List Nat) (i : Nat) (t : List Byte) (a : Nat) :
    (vigRun dir o i t)[a]? = (t[a]?).map fun b =>
      codecDec (shiftResidue dir (codecEnc b) (o.getD ((i + a) % o.length) 0)) := by
  induction t generalizing i a with
  | nil => rfl
  | cons b bs ih =>
    cases a with
    | zero => rfl
    | succ a =>
      simp only [vigRun, List.getElem?_cons_succ, ih, show i + 1 + a = i + (a + 1) by omega]

/-- The substitution gives uppercase letters. -/
theorem vigRun_upper (dir : Dir) (o : List Nat) (i : Nat) (t : List Byte) :
    UpperLetters (vigRun dir o i t) := by
  intro b hb
  obtain ⟨a, hlt, rfl⟩ := List.mem_iff_getElem.1 hb
  have hg := vigRun_get dir o i t a
  rw [List.getElem?_eq_getElem hlt,
    List.getElem?_eq_getElem (by rw [vigRun_length] at hlt; exact hlt)] at hg
  simp only [Option.map_some, Option.some.injEq] at hg
  rw [hg, codecDec_toNat (shiftResidue_lt _ _ _)]
  have := shiftResidue_lt dir (codecEnc (t[a]'(by rw [vigRun_length] at hlt; exact hlt)))
    (o.getD ((i + a) % o.length) 0)
  omega

end Sys2Proof.Machine
end

