-- ==== Sys2Proof/Laws/State.lean ====
section
/-! SUPPORT. One lemma per field of State per update, true by rfl: what each named update of the
state writes and what it leaves. -/

namespace Sys2Proof.Machine

/-! `State.raise` -/

@[simp] theorem State.raise_mkeyValid (s : State) (e : ErrCode) (x : Word) :
    (s.raise e x).mkeyValid = s.mkeyValid := rfl
@[simp] theorem State.raise_vkeyValid (s : State) (e : ErrCode) (x : Word) :
    (s.raise e x).vkeyValid = s.vkeyValid := rfl
@[simp] theorem State.raise_err (s : State) (e : ErrCode) (x : Word) :
    (s.raise e x).err = e.code := rfl
@[simp] theorem State.raise_n (s : State) (e : ErrCode) (x : Word) : (s.raise e x).n = s.n := rfl
@[simp] theorem State.raise_result (s : State) (e : ErrCode) (x : Word) :
    (s.raise e x).result = s.result := rfl
@[simp] theorem State.raise_errinfo (s : State) (e : ErrCode) (x : Word) :
    (s.raise e x).errinfo = x := rfl
@[simp] theorem State.raise_det (s : State) (e : ErrCode) (x : Word) :
    (s.raise e x).det = s.det := rfl
@[simp] theorem State.raise_detinv (s : State) (e : ErrCode) (x : Word) :
    (s.raise e x).detinv = s.detinv := rfl
@[simp] theorem State.raise_tlen (s : State) (e : ErrCode) (x : Word) :
    (s.raise e x).tlen = s.tlen := rfl
@[simp] theorem State.raise_vklen (s : State) (e : ErrCode) (x : Word) :
    (s.raise e x).vklen = s.vklen := rfl
@[simp] theorem State.raise_vofflen (s : State) (e : ErrCode) (x : Word) :
    (s.raise e x).vofflen = s.vofflen := rfl
@[simp] theorem State.raise_kin (s : State) (e : ErrCode) (x : Word) :
    (s.raise e x).kin = s.kin := rfl
@[simp] theorem State.raise_k (s : State) (e : ErrCode) (x : Word) : (s.raise e x).k = s.k := rfl
@[simp] theorem State.raise_ki (s : State) (e : ErrCode) (x : Word) : (s.raise e x).ki = s.ki := rfl
@[simp] theorem State.raise_vin (s : State) (e : ErrCode) (x : Word) :
    (s.raise e x).vin = s.vin := rfl
@[simp] theorem State.raise_vout (s : State) (e : ErrCode) (x : Word) :
    (s.raise e x).vout = s.vout := rfl
@[simp] theorem State.raise_vkb (s : State) (e : ErrCode) (x : Word) :
    (s.raise e x).vkb = s.vkb := rfl
@[simp] theorem State.raise_voff (s : State) (e : ErrCode) (x : Word) :
    (s.raise e x).voff = s.voff := rfl
@[simp] theorem State.raise_txt (s : State) (e : ErrCode) (x : Word) :
    (s.raise e x).txt = s.txt := rfl
@[simp] theorem State.raise_pending (s : State) (e : ErrCode) (x : Word) :
    (s.raise e x).pending = s.pending := rfl
@[simp] theorem State.raise_faultMark (s : State) (e : ErrCode) (x : Word) :
    (s.raise e x).faultMark = s.faultMark := rfl
@[simp] theorem State.raise_draws (s : State) (e : ErrCode) (x : Word) :
    (s.raise e x).draws = s.draws := rfl
@[simp] theorem State.raise_bus (s : State) (e : ErrCode) (x : Word) :
    (s.raise e x).bus = s.bus := rfl
@[simp] theorem State.raise_reads (s : State) (e : ErrCode) (x : Word) :
    (s.raise e x).reads = s.reads := rfl
@[simp] theorem State.raise_host (s : State) (e : ErrCode) (x : Word) :
    (s.raise e x).host = s.host := rfl
@[simp] theorem State.raise_turns (s : State) (e : ErrCode) (x : Word) :
    (s.raise e x).turns = s.turns := rfl

/-! `State.complete` -/

@[simp] theorem State.complete_mkeyValid (s : State) (x : Word) :
    (s.complete x).mkeyValid = s.mkeyValid := rfl
@[simp] theorem State.complete_vkeyValid (s : State) (x : Word) :
    (s.complete x).vkeyValid = s.vkeyValid := rfl
@[simp] theorem State.complete_err (s : State) (x : Word) : (s.complete x).err = 0 := rfl
@[simp] theorem State.complete_n (s : State) (x : Word) : (s.complete x).n = s.n := rfl
@[simp] theorem State.complete_result (s : State) (x : Word) : (s.complete x).result = x := rfl
@[simp] theorem State.complete_errinfo (s : State) (x : Word) : (s.complete x).errinfo = 0 := rfl
@[simp] theorem State.complete_det (s : State) (x : Word) : (s.complete x).det = s.det := rfl
@[simp] theorem State.complete_detinv (s : State) (x : Word) :
    (s.complete x).detinv = s.detinv := rfl
@[simp] theorem State.complete_tlen (s : State) (x : Word) : (s.complete x).tlen = s.tlen := rfl
@[simp] theorem State.complete_vklen (s : State) (x : Word) : (s.complete x).vklen = s.vklen := rfl
@[simp] theorem State.complete_vofflen (s : State) (x : Word) :
    (s.complete x).vofflen = s.vofflen := rfl
@[simp] theorem State.complete_kin (s : State) (x : Word) : (s.complete x).kin = s.kin := rfl
@[simp] theorem State.complete_k (s : State) (x : Word) : (s.complete x).k = s.k := rfl
@[simp] theorem State.complete_ki (s : State) (x : Word) : (s.complete x).ki = s.ki := rfl
@[simp] theorem State.complete_vin (s : State) (x : Word) : (s.complete x).vin = s.vin := rfl
@[simp] theorem State.complete_vout (s : State) (x : Word) : (s.complete x).vout = s.vout := rfl
@[simp] theorem State.complete_vkb (s : State) (x : Word) : (s.complete x).vkb = s.vkb := rfl
@[simp] theorem State.complete_voff (s : State) (x : Word) : (s.complete x).voff = s.voff := rfl
@[simp] theorem State.complete_txt (s : State) (x : Word) : (s.complete x).txt = s.txt := rfl
@[simp] theorem State.complete_pending (s : State) (x : Word) :
    (s.complete x).pending = s.pending := rfl
@[simp] theorem State.complete_faultMark (s : State) (x : Word) :
    (s.complete x).faultMark = s.faultMark := rfl
@[simp] theorem State.complete_draws (s : State) (x : Word) : (s.complete x).draws = s.draws := rfl
@[simp] theorem State.complete_bus (s : State) (x : Word) : (s.complete x).bus = s.bus := rfl
@[simp] theorem State.complete_reads (s : State) (x : Word) : (s.complete x).reads = s.reads := rfl
@[simp] theorem State.complete_host (s : State) (x : Word) : (s.complete x).host = s.host := rfl
@[simp] theorem State.complete_turns (s : State) (x : Word) : (s.complete x).turns = s.turns := rfl

/-! `State.completeKeep` -/

@[simp] theorem State.completeKeep_mkeyValid (s : State) :
    (s.completeKeep).mkeyValid = s.mkeyValid := rfl
@[simp] theorem State.completeKeep_vkeyValid (s : State) :
    (s.completeKeep).vkeyValid = s.vkeyValid := rfl
@[simp] theorem State.completeKeep_err (s : State) : (s.completeKeep).err = 0 := rfl
@[simp] theorem State.completeKeep_n (s : State) : (s.completeKeep).n = s.n := rfl
@[simp] theorem State.completeKeep_result (s : State) : (s.completeKeep).result = s.result := rfl
@[simp] theorem State.completeKeep_errinfo (s : State) : (s.completeKeep).errinfo = 0 := rfl
@[simp] theorem State.completeKeep_det (s : State) : (s.completeKeep).det = s.det := rfl
@[simp] theorem State.completeKeep_detinv (s : State) : (s.completeKeep).detinv = s.detinv := rfl
@[simp] theorem State.completeKeep_tlen (s : State) : (s.completeKeep).tlen = s.tlen := rfl
@[simp] theorem State.completeKeep_vklen (s : State) : (s.completeKeep).vklen = s.vklen := rfl
@[simp] theorem State.completeKeep_vofflen (s : State) : (s.completeKeep).vofflen = s.vofflen := rfl
@[simp] theorem State.completeKeep_kin (s : State) : (s.completeKeep).kin = s.kin := rfl
@[simp] theorem State.completeKeep_k (s : State) : (s.completeKeep).k = s.k := rfl
@[simp] theorem State.completeKeep_ki (s : State) : (s.completeKeep).ki = s.ki := rfl
@[simp] theorem State.completeKeep_vin (s : State) : (s.completeKeep).vin = s.vin := rfl
@[simp] theorem State.completeKeep_vout (s : State) : (s.completeKeep).vout = s.vout := rfl
@[simp] theorem State.completeKeep_vkb (s : State) : (s.completeKeep).vkb = s.vkb := rfl
@[simp] theorem State.completeKeep_voff (s : State) : (s.completeKeep).voff = s.voff := rfl
@[simp] theorem State.completeKeep_txt (s : State) : (s.completeKeep).txt = s.txt := rfl
@[simp] theorem State.completeKeep_pending (s : State) : (s.completeKeep).pending = s.pending := rfl
@[simp] theorem State.completeKeep_faultMark (s : State) :
    (s.completeKeep).faultMark = s.faultMark := rfl
@[simp] theorem State.completeKeep_draws (s : State) : (s.completeKeep).draws = s.draws := rfl
@[simp] theorem State.completeKeep_bus (s : State) : (s.completeKeep).bus = s.bus := rfl
@[simp] theorem State.completeKeep_reads (s : State) : (s.completeKeep).reads = s.reads := rfl
@[simp] theorem State.completeKeep_host (s : State) : (s.completeKeep).host = s.host := rfl
@[simp] theorem State.completeKeep_turns (s : State) : (s.completeKeep).turns = s.turns := rfl

/-! `State.withDraws` -/

@[simp] theorem State.withDraws_mkeyValid (s : State) (x : Nat) :
    (s.withDraws x).mkeyValid = s.mkeyValid := rfl
@[simp] theorem State.withDraws_vkeyValid (s : State) (x : Nat) :
    (s.withDraws x).vkeyValid = s.vkeyValid := rfl
@[simp] theorem State.withDraws_err (s : State) (x : Nat) : (s.withDraws x).err = s.err := rfl
@[simp] theorem State.withDraws_n (s : State) (x : Nat) : (s.withDraws x).n = s.n := rfl
@[simp] theorem State.withDraws_result (s : State) (x : Nat) :
    (s.withDraws x).result = s.result := rfl
@[simp] theorem State.withDraws_errinfo (s : State) (x : Nat) :
    (s.withDraws x).errinfo = s.errinfo := rfl
@[simp] theorem State.withDraws_det (s : State) (x : Nat) : (s.withDraws x).det = s.det := rfl
@[simp] theorem State.withDraws_detinv (s : State) (x : Nat) :
    (s.withDraws x).detinv = s.detinv := rfl
@[simp] theorem State.withDraws_tlen (s : State) (x : Nat) : (s.withDraws x).tlen = s.tlen := rfl
@[simp] theorem State.withDraws_vklen (s : State) (x : Nat) : (s.withDraws x).vklen = s.vklen := rfl
@[simp] theorem State.withDraws_vofflen (s : State) (x : Nat) :
    (s.withDraws x).vofflen = s.vofflen := rfl
@[simp] theorem State.withDraws_kin (s : State) (x : Nat) : (s.withDraws x).kin = s.kin := rfl
@[simp] theorem State.withDraws_k (s : State) (x : Nat) : (s.withDraws x).k = s.k := rfl
@[simp] theorem State.withDraws_ki (s : State) (x : Nat) : (s.withDraws x).ki = s.ki := rfl
@[simp] theorem State.withDraws_vin (s : State) (x : Nat) : (s.withDraws x).vin = s.vin := rfl
@[simp] theorem State.withDraws_vout (s : State) (x : Nat) : (s.withDraws x).vout = s.vout := rfl
@[simp] theorem State.withDraws_vkb (s : State) (x : Nat) : (s.withDraws x).vkb = s.vkb := rfl
@[simp] theorem State.withDraws_voff (s : State) (x : Nat) : (s.withDraws x).voff = s.voff := rfl
@[simp] theorem State.withDraws_txt (s : State) (x : Nat) : (s.withDraws x).txt = s.txt := rfl
@[simp] theorem State.withDraws_pending (s : State) (x : Nat) :
    (s.withDraws x).pending = s.pending := rfl
@[simp] theorem State.withDraws_faultMark (s : State) (x : Nat) :
    (s.withDraws x).faultMark = s.faultMark := rfl
@[simp] theorem State.withDraws_draws (s : State) (x : Nat) : (s.withDraws x).draws = x := rfl
@[simp] theorem State.withDraws_bus (s : State) (x : Nat) : (s.withDraws x).bus = s.bus := rfl
@[simp] theorem State.withDraws_reads (s : State) (x : Nat) : (s.withDraws x).reads = s.reads := rfl
@[simp] theorem State.withDraws_host (s : State) (x : Nat) : (s.withDraws x).host = s.host := rfl
@[simp] theorem State.withDraws_turns (s : State) (x : Nat) : (s.withDraws x).turns = s.turns := rfl

/-! `State.textOut` -/

@[simp] theorem State.textOut_mkeyValid (s : State) (x : List Byte) :
    (s.textOut x).mkeyValid = s.mkeyValid := rfl
@[simp] theorem State.textOut_vkeyValid (s : State) (x : List Byte) :
    (s.textOut x).vkeyValid = s.vkeyValid := rfl
@[simp] theorem State.textOut_err (s : State) (x : List Byte) : (s.textOut x).err = s.err := rfl
@[simp] theorem State.textOut_n (s : State) (x : List Byte) : (s.textOut x).n = s.n := rfl
@[simp] theorem State.textOut_result (s : State) (x : List Byte) :
    (s.textOut x).result = s.result := rfl
@[simp] theorem State.textOut_errinfo (s : State) (x : List Byte) :
    (s.textOut x).errinfo = s.errinfo := rfl
@[simp] theorem State.textOut_det (s : State) (x : List Byte) : (s.textOut x).det = s.det := rfl
@[simp] theorem State.textOut_detinv (s : State) (x : List Byte) :
    (s.textOut x).detinv = s.detinv := rfl
@[simp] theorem State.textOut_tlen (s : State) (x : List Byte) :
    (s.textOut x).tlen = BitVec.ofNat 13 x.length := rfl
@[simp] theorem State.textOut_vklen (s : State) (x : List Byte) :
    (s.textOut x).vklen = s.vklen := rfl
@[simp] theorem State.textOut_vofflen (s : State) (x : List Byte) :
    (s.textOut x).vofflen = s.vofflen := rfl
@[simp] theorem State.textOut_kin (s : State) (x : List Byte) : (s.textOut x).kin = s.kin := rfl
@[simp] theorem State.textOut_k (s : State) (x : List Byte) : (s.textOut x).k = s.k := rfl
@[simp] theorem State.textOut_ki (s : State) (x : List Byte) : (s.textOut x).ki = s.ki := rfl
@[simp] theorem State.textOut_vin (s : State) (x : List Byte) : (s.textOut x).vin = s.vin := rfl
@[simp] theorem State.textOut_vout (s : State) (x : List Byte) : (s.textOut x).vout = s.vout := rfl
@[simp] theorem State.textOut_vkb (s : State) (x : List Byte) : (s.textOut x).vkb = s.vkb := rfl
@[simp] theorem State.textOut_voff (s : State) (x : List Byte) : (s.textOut x).voff = s.voff := rfl
@[simp] theorem State.textOut_txt (s : State) (x : List Byte) :
    (s.textOut x).txt = Memory.ofBytes 0 x := rfl
@[simp] theorem State.textOut_pending (s : State) (x : List Byte) :
    (s.textOut x).pending = s.pending := rfl
@[simp] theorem State.textOut_faultMark (s : State) (x : List Byte) :
    (s.textOut x).faultMark = s.faultMark := rfl
@[simp] theorem State.textOut_draws (s : State) (x : List Byte) :
    (s.textOut x).draws = s.draws := rfl
@[simp] theorem State.textOut_bus (s : State) (x : List Byte) : (s.textOut x).bus = s.bus := rfl
@[simp] theorem State.textOut_reads (s : State) (x : List Byte) :
    (s.textOut x).reads = s.reads := rfl
@[simp] theorem State.textOut_host (s : State) (x : List Byte) : (s.textOut x).host = s.host := rfl
@[simp] theorem State.textOut_turns (s : State) (x : List Byte) :
    (s.textOut x).turns = s.turns := rfl

/-! `State.clearMkey` -/

@[simp] theorem State.clearMkey_mkeyValid (s : State) : (s.clearMkey).mkeyValid = false := rfl
@[simp] theorem State.clearMkey_vkeyValid (s : State) : (s.clearMkey).vkeyValid = s.vkeyValid := rfl
@[simp] theorem State.clearMkey_err (s : State) : (s.clearMkey).err = s.err := rfl
@[simp] theorem State.clearMkey_n (s : State) : (s.clearMkey).n = 0 := rfl
@[simp] theorem State.clearMkey_result (s : State) : (s.clearMkey).result = s.result := rfl
@[simp] theorem State.clearMkey_errinfo (s : State) : (s.clearMkey).errinfo = s.errinfo := rfl
@[simp] theorem State.clearMkey_det (s : State) : (s.clearMkey).det = 0 := rfl
@[simp] theorem State.clearMkey_detinv (s : State) : (s.clearMkey).detinv = 0 := rfl
@[simp] theorem State.clearMkey_tlen (s : State) : (s.clearMkey).tlen = s.tlen := rfl
@[simp] theorem State.clearMkey_vklen (s : State) : (s.clearMkey).vklen = s.vklen := rfl
@[simp] theorem State.clearMkey_vofflen (s : State) : (s.clearMkey).vofflen = s.vofflen := rfl
@[simp] theorem State.clearMkey_kin (s : State) : (s.clearMkey).kin = s.kin := rfl
@[simp] theorem State.clearMkey_k (s : State) : (s.clearMkey).k = Mat.zero := rfl
@[simp] theorem State.clearMkey_ki (s : State) : (s.clearMkey).ki = Mat.zero := rfl
@[simp] theorem State.clearMkey_vin (s : State) : (s.clearMkey).vin = s.vin := rfl
@[simp] theorem State.clearMkey_vout (s : State) : (s.clearMkey).vout = s.vout := rfl
@[simp] theorem State.clearMkey_vkb (s : State) : (s.clearMkey).vkb = s.vkb := rfl
@[simp] theorem State.clearMkey_voff (s : State) : (s.clearMkey).voff = s.voff := rfl
@[simp] theorem State.clearMkey_txt (s : State) : (s.clearMkey).txt = s.txt := rfl
@[simp] theorem State.clearMkey_pending (s : State) : (s.clearMkey).pending = s.pending := rfl
@[simp] theorem State.clearMkey_faultMark (s : State) : (s.clearMkey).faultMark = s.faultMark := rfl
@[simp] theorem State.clearMkey_draws (s : State) : (s.clearMkey).draws = s.draws := rfl
@[simp] theorem State.clearMkey_bus (s : State) : (s.clearMkey).bus = s.bus := rfl
@[simp] theorem State.clearMkey_reads (s : State) : (s.clearMkey).reads = s.reads := rfl
@[simp] theorem State.clearMkey_host (s : State) : (s.clearMkey).host = s.host := rfl
@[simp] theorem State.clearMkey_turns (s : State) : (s.clearMkey).turns = s.turns := rfl

/-! `State.installMkey` -/

@[simp] theorem State.installMkey_mkeyValid (s : State) (x : MatrixKey) :
    (s.installMkey x).mkeyValid = true := rfl
@[simp] theorem State.installMkey_vkeyValid (s : State) (x : MatrixKey) :
    (s.installMkey x).vkeyValid = s.vkeyValid := rfl
@[simp] theorem State.installMkey_err (s : State) (x : MatrixKey) :
    (s.installMkey x).err = s.err := rfl
@[simp] theorem State.installMkey_n (s : State) (x : MatrixKey) :
    (s.installMkey x).n = BitVec.ofNat 2 x.n := rfl
@[simp] theorem State.installMkey_result (s : State) (x : MatrixKey) :
    (s.installMkey x).result = s.result := rfl
@[simp] theorem State.installMkey_errinfo (s : State) (x : MatrixKey) :
    (s.installMkey x).errinfo = s.errinfo := rfl
@[simp] theorem State.installMkey_det (s : State) (x : MatrixKey) :
    (s.installMkey x).det = BitVec.ofNat 5 x.d := rfl
@[simp] theorem State.installMkey_detinv (s : State) (x : MatrixKey) :
    (s.installMkey x).detinv = BitVec.ofNat 5 x.di := rfl
@[simp] theorem State.installMkey_tlen (s : State) (x : MatrixKey) :
    (s.installMkey x).tlen = s.tlen := rfl
@[simp] theorem State.installMkey_vklen (s : State) (x : MatrixKey) :
    (s.installMkey x).vklen = s.vklen := rfl
@[simp] theorem State.installMkey_vofflen (s : State) (x : MatrixKey) :
    (s.installMkey x).vofflen = s.vofflen := rfl
@[simp] theorem State.installMkey_kin (s : State) (x : MatrixKey) :
    (s.installMkey x).kin = s.kin := rfl
@[simp] theorem State.installMkey_k (s : State) (x : MatrixKey) : (s.installMkey x).k = x.k := rfl
@[simp] theorem State.installMkey_ki (s : State) (x : MatrixKey) :
    (s.installMkey x).ki = x.ki := rfl
@[simp] theorem State.installMkey_vin (s : State) (x : MatrixKey) :
    (s.installMkey x).vin = s.vin := rfl
@[simp] theorem State.installMkey_vout (s : State) (x : MatrixKey) :
    (s.installMkey x).vout = s.vout := rfl
@[simp] theorem State.installMkey_vkb (s : State) (x : MatrixKey) :
    (s.installMkey x).vkb = s.vkb := rfl
@[simp] theorem State.installMkey_voff (s : State) (x : MatrixKey) :
    (s.installMkey x).voff = s.voff := rfl
@[simp] theorem State.installMkey_txt (s : State) (x : MatrixKey) :
    (s.installMkey x).txt = s.txt := rfl
@[simp] theorem State.installMkey_pending (s : State) (x : MatrixKey) :
    (s.installMkey x).pending = s.pending := rfl
@[simp] theorem State.installMkey_faultMark (s : State) (x : MatrixKey) :
    (s.installMkey x).faultMark = s.faultMark := rfl
@[simp] theorem State.installMkey_draws (s : State) (x : MatrixKey) :
    (s.installMkey x).draws = s.draws := rfl
@[simp] theorem State.installMkey_bus (s : State) (x : MatrixKey) :
    (s.installMkey x).bus = s.bus := rfl
@[simp] theorem State.installMkey_reads (s : State) (x : MatrixKey) :
    (s.installMkey x).reads = s.reads := rfl
@[simp] theorem State.installMkey_host (s : State) (x : MatrixKey) :
    (s.installMkey x).host = s.host := rfl
@[simp] theorem State.installMkey_turns (s : State) (x : MatrixKey) :
    (s.installMkey x).turns = s.turns := rfl

/-! `State.clearVkey` -/

@[simp] theorem State.clearVkey_mkeyValid (s : State) : (s.clearVkey).mkeyValid = s.mkeyValid := rfl
@[simp] theorem State.clearVkey_vkeyValid (s : State) : (s.clearVkey).vkeyValid = false := rfl
@[simp] theorem State.clearVkey_err (s : State) : (s.clearVkey).err = s.err := rfl
@[simp] theorem State.clearVkey_n (s : State) : (s.clearVkey).n = s.n := rfl
@[simp] theorem State.clearVkey_result (s : State) : (s.clearVkey).result = s.result := rfl
@[simp] theorem State.clearVkey_errinfo (s : State) : (s.clearVkey).errinfo = s.errinfo := rfl
@[simp] theorem State.clearVkey_det (s : State) : (s.clearVkey).det = s.det := rfl
@[simp] theorem State.clearVkey_detinv (s : State) : (s.clearVkey).detinv = s.detinv := rfl
@[simp] theorem State.clearVkey_tlen (s : State) : (s.clearVkey).tlen = s.tlen := rfl
@[simp] theorem State.clearVkey_vklen (s : State) : (s.clearVkey).vklen = s.vklen := rfl
@[simp] theorem State.clearVkey_vofflen (s : State) : (s.clearVkey).vofflen = 0 := rfl
@[simp] theorem State.clearVkey_kin (s : State) : (s.clearVkey).kin = s.kin := rfl
@[simp] theorem State.clearVkey_k (s : State) : (s.clearVkey).k = s.k := rfl
@[simp] theorem State.clearVkey_ki (s : State) : (s.clearVkey).ki = s.ki := rfl
@[simp] theorem State.clearVkey_vin (s : State) : (s.clearVkey).vin = s.vin := rfl
@[simp] theorem State.clearVkey_vout (s : State) : (s.clearVkey).vout = s.vout := rfl
@[simp] theorem State.clearVkey_vkb (s : State) : (s.clearVkey).vkb = s.vkb := rfl
@[simp] theorem State.clearVkey_voff (s : State) : (s.clearVkey).voff = s.voff := rfl
@[simp] theorem State.clearVkey_txt (s : State) : (s.clearVkey).txt = s.txt := rfl
@[simp] theorem State.clearVkey_pending (s : State) : (s.clearVkey).pending = s.pending := rfl
@[simp] theorem State.clearVkey_faultMark (s : State) : (s.clearVkey).faultMark = s.faultMark := rfl
@[simp] theorem State.clearVkey_draws (s : State) : (s.clearVkey).draws = s.draws := rfl
@[simp] theorem State.clearVkey_bus (s : State) : (s.clearVkey).bus = s.bus := rfl
@[simp] theorem State.clearVkey_reads (s : State) : (s.clearVkey).reads = s.reads := rfl
@[simp] theorem State.clearVkey_host (s : State) : (s.clearVkey).host = s.host := rfl
@[simp] theorem State.clearVkey_turns (s : State) : (s.clearVkey).turns = s.turns := rfl

/-! `State.installVkey` -/

@[simp] theorem State.installVkey_mkeyValid (s : State) (x : List Nat) :
    (s.installVkey x).mkeyValid = s.mkeyValid := rfl
@[simp] theorem State.installVkey_vkeyValid (s : State) (x : List Nat) :
    (s.installVkey x).vkeyValid = true := rfl
@[simp] theorem State.installVkey_err (s : State) (x : List Nat) :
    (s.installVkey x).err = s.err := rfl
@[simp] theorem State.installVkey_n (s : State) (x : List Nat) : (s.installVkey x).n = s.n := rfl
@[simp] theorem State.installVkey_result (s : State) (x : List Nat) :
    (s.installVkey x).result = s.result := rfl
@[simp] theorem State.installVkey_errinfo (s : State) (x : List Nat) :
    (s.installVkey x).errinfo = s.errinfo := rfl
@[simp] theorem State.installVkey_det (s : State) (x : List Nat) :
    (s.installVkey x).det = s.det := rfl
@[simp] theorem State.installVkey_detinv (s : State) (x : List Nat) :
    (s.installVkey x).detinv = s.detinv := rfl
@[simp] theorem State.installVkey_tlen (s : State) (x : List Nat) :
    (s.installVkey x).tlen = s.tlen := rfl
@[simp] theorem State.installVkey_vklen (s : State) (x : List Nat) :
    (s.installVkey x).vklen = s.vklen := rfl
@[simp] theorem State.installVkey_vofflen (s : State) (x : List Nat) :
    (s.installVkey x).vofflen = BitVec.ofNat 11 x.length := rfl
@[simp] theorem State.installVkey_kin (s : State) (x : List Nat) :
    (s.installVkey x).kin = s.kin := rfl
@[simp] theorem State.installVkey_k (s : State) (x : List Nat) : (s.installVkey x).k = s.k := rfl
@[simp] theorem State.installVkey_ki (s : State) (x : List Nat) : (s.installVkey x).ki = s.ki := rfl
@[simp] theorem State.installVkey_vin (s : State) (x : List Nat) :
    (s.installVkey x).vin = s.vin := rfl
@[simp] theorem State.installVkey_vout (s : State) (x : List Nat) :
    (s.installVkey x).vout = s.vout := rfl
@[simp] theorem State.installVkey_vkb (s : State) (x : List Nat) :
    (s.installVkey x).vkb = s.vkb := rfl
@[simp] theorem State.installVkey_voff (s : State) (x : List Nat) :
    (s.installVkey x).voff = Memory.storeList s.voff 0 (x.map (BitVec.ofNat 8)) := rfl
@[simp] theorem State.installVkey_txt (s : State) (x : List Nat) :
    (s.installVkey x).txt = s.txt := rfl
@[simp] theorem State.installVkey_pending (s : State) (x : List Nat) :
    (s.installVkey x).pending = s.pending := rfl
@[simp] theorem State.installVkey_faultMark (s : State) (x : List Nat) :
    (s.installVkey x).faultMark = s.faultMark := rfl
@[simp] theorem State.installVkey_draws (s : State) (x : List Nat) :
    (s.installVkey x).draws = s.draws := rfl
@[simp] theorem State.installVkey_bus (s : State) (x : List Nat) :
    (s.installVkey x).bus = s.bus := rfl
@[simp] theorem State.installVkey_reads (s : State) (x : List Nat) :
    (s.installVkey x).reads = s.reads := rfl
@[simp] theorem State.installVkey_host (s : State) (x : List Nat) :
    (s.installVkey x).host = s.host := rfl
@[simp] theorem State.installVkey_turns (s : State) (x : List Nat) :
    (s.installVkey x).turns = s.turns := rfl

/-! `State.setVout` -/

@[simp] theorem State.setVout_mkeyValid (s : State) (x : List Nat) :
    (s.setVout x).mkeyValid = s.mkeyValid := rfl
@[simp] theorem State.setVout_vkeyValid (s : State) (x : List Nat) :
    (s.setVout x).vkeyValid = s.vkeyValid := rfl
@[simp] theorem State.setVout_err (s : State) (x : List Nat) : (s.setVout x).err = s.err := rfl
@[simp] theorem State.setVout_n (s : State) (x : List Nat) : (s.setVout x).n = s.n := rfl
@[simp] theorem State.setVout_result (s : State) (x : List Nat) :
    (s.setVout x).result = s.result := rfl
@[simp] theorem State.setVout_errinfo (s : State) (x : List Nat) :
    (s.setVout x).errinfo = s.errinfo := rfl
@[simp] theorem State.setVout_det (s : State) (x : List Nat) : (s.setVout x).det = s.det := rfl
@[simp] theorem State.setVout_detinv (s : State) (x : List Nat) :
    (s.setVout x).detinv = s.detinv := rfl
@[simp] theorem State.setVout_tlen (s : State) (x : List Nat) : (s.setVout x).tlen = s.tlen := rfl
@[simp] theorem State.setVout_vklen (s : State) (x : List Nat) :
    (s.setVout x).vklen = s.vklen := rfl
@[simp] theorem State.setVout_vofflen (s : State) (x : List Nat) :
    (s.setVout x).vofflen = s.vofflen := rfl
@[simp] theorem State.setVout_kin (s : State) (x : List Nat) : (s.setVout x).kin = s.kin := rfl
@[simp] theorem State.setVout_k (s : State) (x : List Nat) : (s.setVout x).k = s.k := rfl
@[simp] theorem State.setVout_ki (s : State) (x : List Nat) : (s.setVout x).ki = s.ki := rfl
@[simp] theorem State.setVout_vin (s : State) (x : List Nat) : (s.setVout x).vin = s.vin := rfl
@[simp] theorem State.setVout_vout (s : State) (x : List Nat) :
    (s.setVout x).vout = ⟨BitVec.ofNat 5 (x.getD 0 0), BitVec.ofNat 5 (x.getD 1 0), BitVec.ofNat 5 (x.getD 2 0)⟩ := rfl
@[simp] theorem State.setVout_vkb (s : State) (x : List Nat) : (s.setVout x).vkb = s.vkb := rfl
@[simp] theorem State.setVout_voff (s : State) (x : List Nat) : (s.setVout x).voff = s.voff := rfl
@[simp] theorem State.setVout_txt (s : State) (x : List Nat) : (s.setVout x).txt = s.txt := rfl
@[simp] theorem State.setVout_pending (s : State) (x : List Nat) :
    (s.setVout x).pending = s.pending := rfl
@[simp] theorem State.setVout_faultMark (s : State) (x : List Nat) :
    (s.setVout x).faultMark = s.faultMark := rfl
@[simp] theorem State.setVout_draws (s : State) (x : List Nat) :
    (s.setVout x).draws = s.draws := rfl
@[simp] theorem State.setVout_bus (s : State) (x : List Nat) : (s.setVout x).bus = s.bus := rfl
@[simp] theorem State.setVout_reads (s : State) (x : List Nat) :
    (s.setVout x).reads = s.reads := rfl
@[simp] theorem State.setVout_host (s : State) (x : List Nat) : (s.setVout x).host = s.host := rfl
@[simp] theorem State.setVout_turns (s : State) (x : List Nat) :
    (s.setVout x).turns = s.turns := rfl

/-! `State.clearRegisters` -/

@[simp] theorem State.clearRegisters_mkeyValid (s : State) :
    (s.clearRegisters).mkeyValid = false := rfl
@[simp] theorem State.clearRegisters_vkeyValid (s : State) :
    (s.clearRegisters).vkeyValid = false := rfl
@[simp] theorem State.clearRegisters_err (s : State) : (s.clearRegisters).err = 0 := rfl
@[simp] theorem State.clearRegisters_n (s : State) : (s.clearRegisters).n = 0 := rfl
@[simp] theorem State.clearRegisters_result (s : State) : (s.clearRegisters).result = 0 := rfl
@[simp] theorem State.clearRegisters_errinfo (s : State) : (s.clearRegisters).errinfo = 0 := rfl
@[simp] theorem State.clearRegisters_det (s : State) : (s.clearRegisters).det = 0 := rfl
@[simp] theorem State.clearRegisters_detinv (s : State) : (s.clearRegisters).detinv = 0 := rfl
@[simp] theorem State.clearRegisters_tlen (s : State) : (s.clearRegisters).tlen = 0 := rfl
@[simp] theorem State.clearRegisters_vklen (s : State) : (s.clearRegisters).vklen = 0 := rfl
@[simp] theorem State.clearRegisters_vofflen (s : State) : (s.clearRegisters).vofflen = 0 := rfl
@[simp] theorem State.clearRegisters_kin (s : State) : (s.clearRegisters).kin = Mat.zero := rfl
@[simp] theorem State.clearRegisters_k (s : State) : (s.clearRegisters).k = Mat.zero := rfl
@[simp] theorem State.clearRegisters_ki (s : State) : (s.clearRegisters).ki = Mat.zero := rfl
@[simp] theorem State.clearRegisters_vin (s : State) : (s.clearRegisters).vin = Vec.zero := rfl
@[simp] theorem State.clearRegisters_vout (s : State) : (s.clearRegisters).vout = Vec.zero := rfl
@[simp] theorem State.clearRegisters_vkb (s : State) : (s.clearRegisters).vkb = s.vkb := rfl
@[simp] theorem State.clearRegisters_voff (s : State) : (s.clearRegisters).voff = s.voff := rfl
@[simp] theorem State.clearRegisters_txt (s : State) : (s.clearRegisters).txt = s.txt := rfl
@[simp] theorem State.clearRegisters_pending (s : State) :
    (s.clearRegisters).pending = s.pending := rfl
@[simp] theorem State.clearRegisters_faultMark (s : State) :
    (s.clearRegisters).faultMark = s.faultMark := rfl
@[simp] theorem State.clearRegisters_draws (s : State) : (s.clearRegisters).draws = s.draws := rfl
@[simp] theorem State.clearRegisters_bus (s : State) : (s.clearRegisters).bus = s.bus := rfl
@[simp] theorem State.clearRegisters_reads (s : State) : (s.clearRegisters).reads = s.reads := rfl
@[simp] theorem State.clearRegisters_host (s : State) : (s.clearRegisters).host = s.host := rfl
@[simp] theorem State.clearRegisters_turns (s : State) : (s.clearRegisters).turns = s.turns := rfl

/-! `State.takePending` -/

@[simp] theorem State.takePending_mkeyValid (s : State) :
    (s.takePending).mkeyValid = s.mkeyValid := rfl
@[simp] theorem State.takePending_vkeyValid (s : State) :
    (s.takePending).vkeyValid = s.vkeyValid := rfl
@[simp] theorem State.takePending_err (s : State) : (s.takePending).err = s.err := rfl
@[simp] theorem State.takePending_n (s : State) : (s.takePending).n = s.n := rfl
@[simp] theorem State.takePending_result (s : State) : (s.takePending).result = s.result := rfl
@[simp] theorem State.takePending_errinfo (s : State) : (s.takePending).errinfo = s.errinfo := rfl
@[simp] theorem State.takePending_det (s : State) : (s.takePending).det = s.det := rfl
@[simp] theorem State.takePending_detinv (s : State) : (s.takePending).detinv = s.detinv := rfl
@[simp] theorem State.takePending_tlen (s : State) : (s.takePending).tlen = s.tlen := rfl
@[simp] theorem State.takePending_vklen (s : State) : (s.takePending).vklen = s.vklen := rfl
@[simp] theorem State.takePending_vofflen (s : State) : (s.takePending).vofflen = s.vofflen := rfl
@[simp] theorem State.takePending_kin (s : State) : (s.takePending).kin = s.kin := rfl
@[simp] theorem State.takePending_k (s : State) : (s.takePending).k = s.k := rfl
@[simp] theorem State.takePending_ki (s : State) : (s.takePending).ki = s.ki := rfl
@[simp] theorem State.takePending_vin (s : State) : (s.takePending).vin = s.vin := rfl
@[simp] theorem State.takePending_vout (s : State) : (s.takePending).vout = s.vout := rfl
@[simp] theorem State.takePending_vkb (s : State) : (s.takePending).vkb = s.vkb := rfl
@[simp] theorem State.takePending_voff (s : State) : (s.takePending).voff = s.voff := rfl
@[simp] theorem State.takePending_txt (s : State) : (s.takePending).txt = s.txt := rfl
@[simp] theorem State.takePending_pending (s : State) : (s.takePending).pending = none := rfl
@[simp] theorem State.takePending_faultMark (s : State) :
    (s.takePending).faultMark = s.faultMark := rfl
@[simp] theorem State.takePending_draws (s : State) : (s.takePending).draws = s.draws := rfl
@[simp] theorem State.takePending_bus (s : State) : (s.takePending).bus = s.bus := rfl
@[simp] theorem State.takePending_reads (s : State) : (s.takePending).reads = s.reads := rfl
@[simp] theorem State.takePending_host (s : State) : (s.takePending).host = s.host := rfl
@[simp] theorem State.takePending_turns (s : State) : (s.takePending).turns = s.turns := rfl

/-! `State.popHost` -/

@[simp] theorem State.popHost_mkeyValid (s : State) : (s.popHost).mkeyValid = s.mkeyValid := rfl
@[simp] theorem State.popHost_vkeyValid (s : State) : (s.popHost).vkeyValid = s.vkeyValid := rfl
@[simp] theorem State.popHost_err (s : State) : (s.popHost).err = s.err := rfl
@[simp] theorem State.popHost_n (s : State) : (s.popHost).n = s.n := rfl
@[simp] theorem State.popHost_result (s : State) : (s.popHost).result = s.result := rfl
@[simp] theorem State.popHost_errinfo (s : State) : (s.popHost).errinfo = s.errinfo := rfl
@[simp] theorem State.popHost_det (s : State) : (s.popHost).det = s.det := rfl
@[simp] theorem State.popHost_detinv (s : State) : (s.popHost).detinv = s.detinv := rfl
@[simp] theorem State.popHost_tlen (s : State) : (s.popHost).tlen = s.tlen := rfl
@[simp] theorem State.popHost_vklen (s : State) : (s.popHost).vklen = s.vklen := rfl
@[simp] theorem State.popHost_vofflen (s : State) : (s.popHost).vofflen = s.vofflen := rfl
@[simp] theorem State.popHost_kin (s : State) : (s.popHost).kin = s.kin := rfl
@[simp] theorem State.popHost_k (s : State) : (s.popHost).k = s.k := rfl
@[simp] theorem State.popHost_ki (s : State) : (s.popHost).ki = s.ki := rfl
@[simp] theorem State.popHost_vin (s : State) : (s.popHost).vin = s.vin := rfl
@[simp] theorem State.popHost_vout (s : State) : (s.popHost).vout = s.vout := rfl
@[simp] theorem State.popHost_vkb (s : State) : (s.popHost).vkb = s.vkb := rfl
@[simp] theorem State.popHost_voff (s : State) : (s.popHost).voff = s.voff := rfl
@[simp] theorem State.popHost_txt (s : State) : (s.popHost).txt = s.txt := rfl
@[simp] theorem State.popHost_pending (s : State) : (s.popHost).pending = s.pending := rfl
@[simp] theorem State.popHost_faultMark (s : State) : (s.popHost).faultMark = s.faultMark := rfl
@[simp] theorem State.popHost_draws (s : State) : (s.popHost).draws = s.draws := rfl
@[simp] theorem State.popHost_bus (s : State) : (s.popHost).bus = s.bus := rfl
@[simp] theorem State.popHost_reads (s : State) : (s.popHost).reads = s.reads := rfl
@[simp] theorem State.popHost_host (s : State) : (s.popHost).host = s.host.tail := rfl
@[simp] theorem State.popHost_turns (s : State) : (s.popHost).turns = s.turns := rfl

/-! `State.answer` -/

@[simp] theorem State.answer_mkeyValid (s : State) (x : BusAnswer) :
    (s.answer x).mkeyValid = s.mkeyValid := rfl
@[simp] theorem State.answer_vkeyValid (s : State) (x : BusAnswer) :
    (s.answer x).vkeyValid = s.vkeyValid := rfl
@[simp] theorem State.answer_err (s : State) (x : BusAnswer) :
    (s.answer x).err = s.err := rfl
@[simp] theorem State.answer_n (s : State) (x : BusAnswer) : (s.answer x).n = s.n := rfl
@[simp] theorem State.answer_result (s : State) (x : BusAnswer) :
    (s.answer x).result = s.result := rfl
@[simp] theorem State.answer_errinfo (s : State) (x : BusAnswer) :
    (s.answer x).errinfo = s.errinfo := rfl
@[simp] theorem State.answer_det (s : State) (x : BusAnswer) :
    (s.answer x).det = s.det := rfl
@[simp] theorem State.answer_detinv (s : State) (x : BusAnswer) :
    (s.answer x).detinv = s.detinv := rfl
@[simp] theorem State.answer_tlen (s : State) (x : BusAnswer) :
    (s.answer x).tlen = s.tlen := rfl
@[simp] theorem State.answer_vklen (s : State) (x : BusAnswer) :
    (s.answer x).vklen = s.vklen := rfl
@[simp] theorem State.answer_vofflen (s : State) (x : BusAnswer) :
    (s.answer x).vofflen = s.vofflen := rfl
@[simp] theorem State.answer_kin (s : State) (x : BusAnswer) :
    (s.answer x).kin = s.kin := rfl
@[simp] theorem State.answer_k (s : State) (x : BusAnswer) : (s.answer x).k = s.k := rfl
@[simp] theorem State.answer_ki (s : State) (x : BusAnswer) : (s.answer x).ki = s.ki := rfl
@[simp] theorem State.answer_vin (s : State) (x : BusAnswer) :
    (s.answer x).vin = s.vin := rfl
@[simp] theorem State.answer_vout (s : State) (x : BusAnswer) :
    (s.answer x).vout = s.vout := rfl
@[simp] theorem State.answer_vkb (s : State) (x : BusAnswer) :
    (s.answer x).vkb = s.vkb := rfl
@[simp] theorem State.answer_voff (s : State) (x : BusAnswer) :
    (s.answer x).voff = s.voff := rfl
@[simp] theorem State.answer_txt (s : State) (x : BusAnswer) :
    (s.answer x).txt = s.txt := rfl
@[simp] theorem State.answer_pending (s : State) (x : BusAnswer) :
    (s.answer x).pending = s.pending := rfl
@[simp] theorem State.answer_faultMark (s : State) (x : BusAnswer) :
    (s.answer x).faultMark = s.faultMark := rfl
@[simp] theorem State.answer_draws (s : State) (x : BusAnswer) :
    (s.answer x).draws = s.draws := rfl
@[simp] theorem State.answer_bus (s : State) (x : BusAnswer) :
    (s.answer x).bus = some x := rfl
@[simp] theorem State.answer_reads (s : State) (x : BusAnswer) :
    (s.answer x).reads = s.reads := rfl
@[simp] theorem State.answer_host (s : State) (x : BusAnswer) :
    (s.answer x).host = s.host := rfl
@[simp] theorem State.answer_turns (s : State) (x : BusAnswer) :
    (s.answer x).turns = s.turns := rfl

/-! `State.resetInput` -/

@[simp] theorem State.resetInput_mkeyValid (s : State) : (s.resetInput).mkeyValid = false := rfl
@[simp] theorem State.resetInput_vkeyValid (s : State) : (s.resetInput).vkeyValid = false := rfl
@[simp] theorem State.resetInput_err (s : State) : (s.resetInput).err = 0 := rfl
@[simp] theorem State.resetInput_n (s : State) : (s.resetInput).n = 0 := rfl
@[simp] theorem State.resetInput_result (s : State) : (s.resetInput).result = 0 := rfl
@[simp] theorem State.resetInput_errinfo (s : State) : (s.resetInput).errinfo = 0 := rfl
@[simp] theorem State.resetInput_det (s : State) : (s.resetInput).det = 0 := rfl
@[simp] theorem State.resetInput_detinv (s : State) : (s.resetInput).detinv = 0 := rfl
@[simp] theorem State.resetInput_tlen (s : State) : (s.resetInput).tlen = 0 := rfl
@[simp] theorem State.resetInput_vklen (s : State) : (s.resetInput).vklen = 0 := rfl
@[simp] theorem State.resetInput_vofflen (s : State) : (s.resetInput).vofflen = 0 := rfl
@[simp] theorem State.resetInput_kin (s : State) : (s.resetInput).kin = Mat.zero := rfl
@[simp] theorem State.resetInput_k (s : State) : (s.resetInput).k = Mat.zero := rfl
@[simp] theorem State.resetInput_ki (s : State) : (s.resetInput).ki = Mat.zero := rfl
@[simp] theorem State.resetInput_vin (s : State) : (s.resetInput).vin = Vec.zero := rfl
@[simp] theorem State.resetInput_vout (s : State) : (s.resetInput).vout = Vec.zero := rfl
@[simp] theorem State.resetInput_vkb (s : State) : (s.resetInput).vkb = [] := rfl
@[simp] theorem State.resetInput_voff (s : State) : (s.resetInput).voff = [] := rfl
@[simp] theorem State.resetInput_txt (s : State) : (s.resetInput).txt = [] := rfl
@[simp] theorem State.resetInput_pending (s : State) : (s.resetInput).pending = none := rfl
@[simp] theorem State.resetInput_faultMark (s : State) :
    (s.resetInput).faultMark = s.faultMark := rfl
@[simp] theorem State.resetInput_draws (s : State) : (s.resetInput).draws = s.draws := rfl
@[simp] theorem State.resetInput_bus (s : State) : (s.resetInput).bus = none := rfl
@[simp] theorem State.resetInput_reads (s : State) : (s.resetInput).reads = s.reads := rfl
@[simp] theorem State.resetInput_host (s : State) : (s.resetInput).host = s.host := rfl
@[simp] theorem State.resetInput_turns (s : State) : (s.resetInput).turns = s.turns := rfl

end Sys2Proof.Machine
end

