-- ==== Sys2Proof/Laws/Exec.lean ====
section
/-! SUPPORT. What each command can do, once for each shape of command: the ways its meaning ends, in
terms of the shared operations. -/

namespace Sys2Proof.Machine

/-- Every error has a code other than 0 (R221). -/
theorem ErrCode.code_ne_zero (e : ErrCode) : e.code ≠ 0 := by cases e <;> decide

/-- NotConfigured is raised with the two key flags as its detail (R222). -/
theorem State.raise_notConfigured (s : State) :
    s.raise .notConfigured s.keyFlags = notConfigured s := by
  have hf : s.keyFlags =
      BitVec.ofNat 32 ((if s.mkeyValid then 1 else 0) + if s.vkeyValid then 2 else 0) := by
    unfold State.keyFlags
    cases s.mkeyValid <;> cases s.vkeyValid <;> rfl
  rw [hf]
  rfl

/-- The commands that write the report only: they complete or raise. -/
theorem execReport_cases (i : Instr) (s : State)
    (h : i = .nop ∨ (∃ b, i = .cenc b) ∨ (∃ b, i = .cdec b) ∨ (∃ a b, i = .gcd a b) ∨
      (∃ b, i = .minv26 b) ∨ (∃ a b c, i = .mac26 a b c)) :
    exec i s = .next s.completeKeep ∨ (∃ w, exec i s = .next (s.complete w)) ∨
      ∃ e w, exec i s = .next (s.raise e w) := by
  rcases h with rfl | ⟨b, rfl⟩ | ⟨b, rfl⟩ | ⟨a, b, rfl⟩ | ⟨b, rfl⟩ | ⟨a, b, c, rfl⟩
  · exact .inl rfl
  · simp only [exec, execCenc]; split <;> exact .inr (.inl ⟨_, rfl⟩)
  · simp only [exec, execCdec]; split
    · exact .inr (.inr ⟨_, _, rfl⟩)
    · exact .inr (.inl ⟨_, rfl⟩)
  · exact .inr (.inl ⟨_, rfl⟩)
  · simp only [exec, execMinv26]; split
    · exact .inr (.inr ⟨_, _, rfl⟩)
    · split <;> exact .inr (.inl ⟨_, rfl⟩)
  · simp only [exec, execMac26]
    split
    · exact .inr (.inr ⟨_, _, rfl⟩)
    split
    · exact .inr (.inr ⟨_, _, rfl⟩)
    split
    · exact .inr (.inr ⟨_, _, rfl⟩)
    · exact .inr (.inl ⟨_, rfl⟩)

/-- VSHIFT completes, one offset read, or raises. -/
theorem execVshift_cases (p v : Nat) (dir : Dir) (s : State) :
    (∃ d w, exec (.vshift p v dir) s = .next ((s.withDraws d).complete w)) ∨
      ∃ e w, exec (.vshift p v dir) s = .next (s.raise e w) := by
  simp only [exec, execVshift]
  split
  · split
    · exact .inr ⟨_, _, rfl⟩
    · exact .inl ⟨_, _, rfl⟩
  · exact .inr ⟨_, _, rfl⟩

/-- MVMUL completes with a product in `VOUT`, or raises. -/
theorem execMvmul_cases (sel : KeySel) (s : State) :
    (∃ v w, exec (.mvmul sel) s =
      .next ((s.setVout (mvmul (s.selected sel) v s.order)).complete w)) ∨
      ∃ e w, exec (.mvmul sel) s = .next (s.raise e w) := by
  simp only [exec, execMvmul]
  split
  · split
    · exact .inr ⟨_, _, rfl⟩
    · exact .inl ⟨_, _, rfl⟩
  · exact .inr ⟨_, _, rfl⟩

/-- MKEY clears the key and raises, or installs the key `mkey_eval` gives. -/
theorem execMkey_cases (r c : Nat) (s : State) :
    (∃ e w, exec (.mkey r c) s = .next (s.clearMkey.raise e w)) ∨
      ∃ key w, mkeyEval r c s.kin = .ok key ∧
        exec (.mkey r c) s = .next ((s.installMkey key).complete w) := by
  simp only [exec, execMkey]
  cases h : mkeyEval r c s.kin with
  | error e => exact .inl ⟨_, _, rfl⟩
  | ok key => exact .inr ⟨key, _, rfl, rfl⟩

/-- VKEY clears the key and raises, or installs the offsets of its raw key. -/
theorem execVkey_cases (s : State) :
    ∃ d, (∃ e w, exec .vkey s = .next ((s.withDraws d).clearVkey.raise e w)) ∨
      ∃ w, keyOffsets s.keyIn.1 ≠ [] ∧
        exec .vkey s = .next (((s.withDraws d).installVkey (keyOffsets s.keyIn.1)).complete w) := by
  refine ⟨s.keyIn.2.draws, ?_⟩
  by_cases h : keyOffsets s.keyIn.1 = []
  · exact .inl ⟨_, _, by simp only [exec, execVkey, h]; rfl⟩
  · obtain ⟨o, os, ho⟩ := List.exists_cons_of_ne_nil h
    exact .inr ⟨_, h, by simp only [exec, execVkey, ho]; rfl⟩

/-- PBUILD clears both keys and raises, or installs both. -/
theorem execPbuild_cases (r c : Nat) (s : State) :
    ∃ d, (∃ e w, exec (.pbuild r c) s = .next ((s.withDraws d).clearMkey.clearVkey.raise e w)) ∨
      ∃ key w, mkeyEval r c s.kin = .ok key ∧ keyOffsets s.keyIn.1 ≠ [] ∧
        exec (.pbuild r c) s =
          .next ((((s.withDraws d).installMkey key).installVkey (keyOffsets s.keyIn.1)).complete w) := by
  simp only [exec, execPbuild]
  cases h : mkeyEval r c s.kin with
  | error e => exact ⟨s.draws, .inl ⟨_, _, rfl⟩⟩
  | ok key =>
    refine ⟨s.keyIn.2.draws, ?_⟩
    by_cases hk : keyOffsets s.keyIn.1 = []
    · simp only [hk]; exact .inl ⟨_, _, rfl⟩
    · obtain ⟨o, os, ho⟩ := List.exists_cons_of_ne_nil hk
      simp only [ho]
      exact .inr ⟨key, _, rfl, by simp, rfl⟩

/-- A text command completes with a text written, or raises. -/
theorem execText_cases (i : Instr) (s : State) (h : WritesText i) :
    ∃ d, (∃ bs, exec i s =
      .next (((s.withDraws d).textOut bs).complete (BitVec.ofNat 32 bs.length))) ∨
      ∃ e w, exec i s = .next ((s.withDraws d).raise e w) := by
  rcases h with rfl | rfl | rfl | rfl | rfl | rfl | rfl
  · exact ⟨_, .inl ⟨_, rfl⟩⟩
  · simp only [exec, execHenc]; split
    · exact ⟨_, .inl ⟨_, rfl⟩⟩
    · exact ⟨s.draws, .inr ⟨_, _, rfl⟩⟩
  · simp only [exec, execHdec]; split
    · split
      · exact ⟨_, .inl ⟨_, rfl⟩⟩
      · exact ⟨_, .inr ⟨_, _, rfl⟩⟩
    · exact ⟨s.draws, .inr ⟨_, _, rfl⟩⟩
  · simp only [exec, execVenc]; split
    · exact ⟨_, .inl ⟨_, rfl⟩⟩
    · exact ⟨s.draws, .inr ⟨_, _, rfl⟩⟩
  · simp only [exec, execVdec]; split
    · exact ⟨_, .inl ⟨_, rfl⟩⟩
    · exact ⟨s.draws, .inr ⟨_, _, rfl⟩⟩
  · simp only [exec, execPenc]; split
    · exact ⟨_, .inl ⟨_, rfl⟩⟩
    · exact ⟨s.draws, .inr ⟨_, _, rfl⟩⟩
  · simp only [exec, execPdec]; split
    · split
      · exact ⟨_, .inl ⟨_, rfl⟩⟩
      · exact ⟨_, .inr ⟨_, _, rfl⟩⟩
    · exact ⟨s.draws, .inr ⟨_, _, rfl⟩⟩

/-- The shapes of the commands: report only, CLR, VSHIFT, MVMUL, key loads, text. -/
theorem instr_families (i : Instr) :
    (i = .nop ∨ (∃ b, i = .cenc b) ∨ (∃ b, i = .cdec b) ∨ (∃ a b, i = .gcd a b) ∨
      (∃ b, i = .minv26 b) ∨ (∃ a b c, i = .mac26 a b c)) ∨
    i = .clr ∨ (∃ p v dir, i = .vshift p v dir) ∨
    (∃ sel, i = .mvmul sel) ∨ (∃ r c, i = .mkey r c) ∨ i = .vkey ∨ (∃ r c, i = .pbuild r c) ∨
    WritesText i := by
  cases i <;> simp [WritesText]

/-! The meaning of the matrix text commands once the key is loaded. -/

theorem execHenc_loaded (s : State) (h : s.mkeyValid = true) :
    exec .henc s = .next ((s.textIn.2.textOut (s.hillEnc s.textIn.1)).complete
      (BitVec.ofNat 32 (s.hillEnc s.textIn.1).length)) := by
  show execHenc s = _
  unfold execHenc
  rw [if_pos h]

theorem execHdec_loaded (s : State) (h : s.mkeyValid = true)
    (hm : (normalizeText s.textIn.1).length % s.order = 0) :
    exec .hdec s = .next
      ((s.textIn.2.textOut (hillBlocks s.ki (normalizeText s.textIn.1) s.order)).complete
        (BitVec.ofNat 32 (hillBlocks s.ki (normalizeText s.textIn.1) s.order).length)) := by
  show execHdec s = _
  unfold execHdec
  rw [if_pos h]
  simp only
  rw [if_pos hm]

/-- A run of one more step. -/
theorem run_next (M : Host.Core) (k : Nat) (s s' : M.State) (h : M.step s = .next s') :
    M.run (k + 1) s = M.run k s' := by
  simp [Host.Core.run, h]

end Sys2Proof.Machine
end

