-- ==== Sys2Proof/Laws/PerInstr.lean ====
section
/-! SUPPORT. A statement made for each command: the opcode byte of its word is the one the opcode map
gives it, whatever its operands (30_encoding.md R80, R82). -/

namespace Sys2Proof

/-- The opcode of each command (R82). -/
def opcodeOf : Instr → Nat
  | .nop => 0x00
  | .clr => 0x01
  | .cenc _ => 0x10
  | .cdec _ => 0x11
  | .norm => 0x12
  | .gcd _ _ => 0x20
  | .minv26 _ => 0x21
  | .mac26 _ _ _ => 0x22
  | .mkey _ _ => 0x30
  | .mvmul _ => 0x31
  | .henc => 0x32
  | .hdec => 0x33
  | .vkey => 0x40
  | .vshift _ _ _ => 0x41
  | .venc => 0x42
  | .vdec => 0x43
  | .pbuild _ _ => 0x50
  | .penc => 0x51
  | .pdec => 0x52

/-- `OPC` is bits [31:24] of the command's word (R80). -/
def Laws.OpcodeField.Statement (i : Instr) : Prop :=
  WellFormed i = true → (encode i).toNat / 2 ^ 24 = opcodeOf i

theorem Laws.OpcodeField.nop : Laws.OpcodeField.Statement .nop := by
  intro _
  decide

theorem Laws.OpcodeField.clr : Laws.OpcodeField.Statement .clr := by
  intro _
  decide

theorem Laws.OpcodeField.cenc (b : Nat) : Laws.OpcodeField.Statement (.cenc b) := by
  intro h
  simp only [WellFormed, decide_eq_true_eq] at h
  show (layoutB 0x10#8 b).toNat / _ = _
  rw [layoutB_toNat _ _ (by omega)]
  simp only [opcodeOf, BitVec.toNat_ofNat]
  omega

theorem Laws.OpcodeField.cdec (b : Nat) : Laws.OpcodeField.Statement (.cdec b) := by
  intro h
  simp only [WellFormed, decide_eq_true_eq] at h
  show (layoutB 0x11#8 b).toNat / _ = _
  rw [layoutB_toNat _ _ (by omega)]
  simp only [opcodeOf, BitVec.toNat_ofNat]
  omega

theorem Laws.OpcodeField.norm : Laws.OpcodeField.Statement .norm := by
  intro _
  decide

theorem Laws.OpcodeField.gcd (a : Nat) (b : Nat) : Laws.OpcodeField.Statement (.gcd a b) := by
  intro h
  simp only [WellFormed, Bool.and_eq_true, decide_eq_true_eq] at h
  show (layoutG 0x20#8 a b).toNat / _ = _
  rw [layoutG_toNat _ _ _ (by omega) (by omega)]
  simp only [opcodeOf, BitVec.toNat_ofNat]
  omega

theorem Laws.OpcodeField.minv26 (b : Nat) : Laws.OpcodeField.Statement (.minv26 b) := by
  intro h
  simp only [WellFormed, decide_eq_true_eq] at h
  show (layoutB 0x21#8 b).toNat / _ = _
  rw [layoutB_toNat _ _ (by omega)]
  simp only [opcodeOf, BitVec.toNat_ofNat]
  omega

theorem Laws.OpcodeField.mac26 (a : Nat) (b : Nat) (c : Nat) : Laws.OpcodeField.Statement (.mac26 a b c) := by
  intro h
  simp only [WellFormed, Bool.and_eq_true, decide_eq_true_eq] at h
  show (layoutA 0x22#8 a b c).toNat / _ = _
  rw [layoutA_toNat _ _ _ _ (by omega) (by omega) (by omega)]
  simp only [opcodeOf, BitVec.toNat_ofNat]
  omega

theorem Laws.OpcodeField.mkey (r : Nat) (c : Nat) : Laws.OpcodeField.Statement (.mkey r c) := by
  intro h
  simp only [WellFormed, Bool.and_eq_true, decide_eq_true_eq] at h
  show (layoutK 0x30#8 r c).toNat / _ = _
  rw [layoutK_toNat _ _ _ (by omega) (by omega)]
  simp only [opcodeOf, BitVec.toNat_ofNat]
  omega

theorem Laws.OpcodeField.mvmul (sel : KeySel) : Laws.OpcodeField.Statement (.mvmul sel) := by
  intro _
  cases sel <;> decide

theorem Laws.OpcodeField.henc : Laws.OpcodeField.Statement .henc := by
  intro _
  decide

theorem Laws.OpcodeField.hdec : Laws.OpcodeField.Statement .hdec := by
  intro _
  decide

theorem Laws.OpcodeField.vkey : Laws.OpcodeField.Statement .vkey := by
  intro _
  decide

theorem Laws.OpcodeField.vshift (p : Nat) (v : Nat) (dir : Dir) : Laws.OpcodeField.Statement (.vshift p v dir) := by
  intro h
  simp only [WellFormed, Bool.and_eq_true, decide_eq_true_eq] at h
  have := (dirBit dir).isLt
  show (layoutV 0x41#8 p dir v).toNat / _ = _
  rw [layoutV_toNat _ _ _ _ (by omega) (by omega)]
  simp only [opcodeOf, BitVec.toNat_ofNat]
  omega

theorem Laws.OpcodeField.venc : Laws.OpcodeField.Statement .venc := by
  intro _
  decide

theorem Laws.OpcodeField.vdec : Laws.OpcodeField.Statement .vdec := by
  intro _
  decide

theorem Laws.OpcodeField.pbuild (r : Nat) (c : Nat) : Laws.OpcodeField.Statement (.pbuild r c) := by
  intro h
  simp only [WellFormed, Bool.and_eq_true, decide_eq_true_eq] at h
  show (layoutK 0x50#8 r c).toNat / _ = _
  rw [layoutK_toNat _ _ _ (by omega) (by omega)]
  simp only [opcodeOf, BitVec.toNat_ofNat]
  omega

theorem Laws.OpcodeField.penc : Laws.OpcodeField.Statement .penc := by
  intro _
  decide

theorem Laws.OpcodeField.pdec : Laws.OpcodeField.Statement .pdec := by
  intro _
  decide

end Sys2Proof
end

