-- ==== Sys2Proof/Tests/Slice0.lean ====
section
/-! SUPPORT. Tests: the checks of WellFormed, words written out from the format table R81, one-step
results from the vectors of 95_test_vectors.md, the assembler's syntax, and a state that meets the
hypotheses of each statement. -/

namespace Sys2Proof.Tests

set_option Elab.async false

open Sys2Proof.Machine

/-! Helpers. -/

/-- The outcome is a next state that meets `p`. -/
def endsIn (o : Host.Outcome State Fault Refusal) (p : State → Bool) : Bool :=
  match o with
  | .next t => p t
  | .fault _ => false
  | .refused _ => false

/-- The outcome is the model's fault. -/
def hazards (o : Host.Outcome State Fault Refusal) : Bool :=
  match o with
  | .fault (.hostHazard t) => t.faultMark
  | .next _ => false
  | .refused _ => false

/-- The reset state with a text. -/
def withText (s : State) (bs : List Byte) : State :=
  { s with txt := Memory.ofBytes 0 bs, tlen := BitVec.ofNat 13 bs.length }

/-- A state with a raw substitution key. -/
def withRawKey (s : State) (bs : List Byte) : State :=
  { s with vkb := Memory.ofBytes 0 bs, vklen := BitVec.ofNat 11 bs.length }

/-- A state with a 2×2 key in `KIN`. -/
def withKin (s : State) (a b c d : Word) : State := { s with kin := ⟨a, b, 0, c, d, 0, 0, 0, 0⟩ }

/-- A state with the offsets of a substitution key loaded. -/
def withOffsets (s : State) (o : List Byte) : State :=
  { s with voff := Memory.ofBytes 0 o, vofflen := BitVec.ofNat 11 o.length, vkeyValid := true }

/-- Key A of the vectors, `[[3,3],[2,5]]`, loaded. -/
def keyA : State :=
  { State.reset with
    mkeyValid := true, n := 2, det := 9, detinv := 3
    k := ⟨3, 3, 0, 2, 5, 0, 0, 0, 0⟩, ki := ⟨15, 17, 0, 20, 9, 0, 0, 0, 0⟩ }

/-- Key B of the vectors, `[[6,24,1],[13,16,10],[20,17,15]]`, loaded. -/
def keyB : State :=
  { State.reset with
    mkeyValid := true, n := 3, det := 25, detinv := 25
    k := ⟨6, 24, 1, 13, 16, 10, 20, 17, 15⟩, ki := ⟨8, 5, 10, 21, 8, 21, 21, 12, 8⟩ }

/-- The offsets of "SECRET". -/
def secret : List Byte := [18, 4, 2, 17, 4, 19]

/-- The offsets of "KEY". -/
def keyWord : List Byte := [10, 4, 24]

/-- The text of a state is `bs` and `RESULT` its length. -/
def textIs (bs : List Byte) (t : State) : Bool :=
  t.textIn.1 == bs && t.tlen.toNat == bs.length && t.result.toNat == bs.length && t.err == 0

/-- The error report. -/
def reports (code : BitVec 4) (info : Word) (t : State) : Bool := t.err == code && t.errinfo == info

/-! An ill-formed term for each check of WellFormed, and the assembler's answer (R89). -/

theorem test_wellFormed_byte :
    WellFormed (.cenc 256) = false ∧ WellFormed (.cdec 256) = false ∧
      WellFormed (.minv26 256) = false := by decide

theorem test_wellFormed_gcd :
    WellFormed (.gcd 256 0) = false ∧ WellFormed (.gcd 0 256) = false := by decide

theorem test_wellFormed_mac26 :
    WellFormed (.mac26 32 0 0) = false ∧ WellFormed (.mac26 0 32 0) = false ∧
      WellFormed (.mac26 0 0 32) = false := by decide

theorem test_wellFormed_shape :
    WellFormed (.mkey 16 0) = false ∧ WellFormed (.mkey 0 16) = false ∧
      WellFormed (.pbuild 16 0) = false ∧ WellFormed (.pbuild 0 16) = false := by decide

theorem test_wellFormed_vshift :
    WellFormed (.vshift 65536 0 .enc) = false ∧ WellFormed (.vshift 0 32 .dec) = false := by decide

/-- "the assembler never truncates" (R89). -/
theorem test_assemble_refuses : assemble (.gcd 256 1) = none := by decide

/-! Words written out bit by bit from R81 and R82. -/

theorem test_decode_nop :
    decode 0b00000000_00000000_00000000_00000000#32 = .command .nop := by decide

theorem test_decode_clr :
    decode 0b00000001_00000000_00000000_00000000#32 = .command .clr := by decide

theorem test_decode_cenc :
    decode 0b00010000_00000000_00000000_01101000#32 = .command (.cenc 0x68) := by decide

theorem test_decode_cdec :
    decode 0b00010001_00000000_00000000_00011010#32 = .command (.cdec 26) := by decide

theorem test_decode_norm :
    decode 0b00010010_00000000_00000000_00000000#32 = .command .norm := by decide

theorem test_decode_gcd :
    decode 0b00100000_00000000_00001001_00011010#32 = .command (.gcd 9 26) := by decide

theorem test_decode_minv26 :
    decode 0b00100001_00000000_00000000_00001001#32 = .command (.minv26 9) := by decide

theorem test_decode_mac26 :
    decode 0b00100010_00000000_00001100_11101100#32 = .command (.mac26 3 7 12) := by decide

theorem test_decode_mkey :
    decode 0b00110000_00000000_00000000_00100011#32 = .command (.mkey 2 3) := by decide

theorem test_decode_mvmul :
    decode 0b00110001_00000000_00000000_00000001#32 = .command (.mvmul .inverse) := by decide

theorem test_decode_henc :
    decode 0b00110010_00000000_00000000_00000000#32 = .command .henc := by decide

theorem test_decode_hdec :
    decode 0b00110011_00000000_00000000_00000000#32 = .command .hdec := by decide

theorem test_decode_vkey :
    decode 0b01000000_00000000_00000000_00000000#32 = .command .vkey := by decide

theorem test_decode_vshift :
    decode 0b01000001_00000000_00000111_00100100#32 = .command (.vshift 7 4 .dec) := by decide

theorem test_decode_venc :
    decode 0b01000010_00000000_00000000_00000000#32 = .command .venc := by decide

theorem test_decode_vdec :
    decode 0b01000011_00000000_00000000_00000000#32 = .command .vdec := by decide

theorem test_decode_pbuild :
    decode 0b01010000_00000000_00000000_00110010#32 = .command (.pbuild 3 2) := by decide

theorem test_decode_penc :
    decode 0b01010001_00000000_00000000_00000000#32 = .command .penc := by decide

theorem test_decode_pdec :
    decode 0b01010010_00000000_00000000_00000000#32 = .command .pdec := by decide

/-- A reserved bit at 1 in each format makes the word illegal (R83; vectors 2.1, 2.3, 2.4, 2.5, 2.7,
2.9). -/
theorem test_decode_reserved_bits :
    decode 0x00000001 = .illegal .reservedBitSet ∧ decode 0x10000100 = .illegal .reservedBitSet ∧
      decode 0x20010000 = .illegal .reservedBitSet ∧
      decode 0x22008000 = .illegal .reservedBitSet ∧
      decode 0x30000122 = .illegal .reservedBitSet ∧
      decode 0x31000002 = .illegal .reservedBitSet ∧
      decode 0x41000040 = .illegal .reservedBitSet ∧
      decode 0x41000080 = .illegal .reservedBitSet ∧
      decode 0x51000001 = .illegal .reservedBitSet := by decide

/-- Opcodes outside the map (vector 2.9). -/
theorem test_decode_unassigned :
    decode 0x02000000 = .illegal .unassignedOpcode ∧
      decode 0xFFFFFFFF = .illegal .unassignedOpcode := by decide

/-! One-step results, from 95_test_vectors.md. -/

/-- Vector 2.1. -/
theorem test_nop_keeps_result :
    endsIn (exec .nop { State.reset with err := 2, errinfo := 0x1A00, result := 6 })
      (fun t => t.result == 6 && reports 0 0 t) = true := by decide +kernel

/-- Vector 2.1. -/
theorem test_clr_clears_keys :
    endsIn (exec .clr (withOffsets keyA secret))
      (fun t => t.statusWord == 0 && t.det == 0 && t.ki == Mat.zero && t.vofflen == 0) = true := by decide +kernel

/-- Vector 2.2. -/
theorem test_cenc_letters :
    endsIn (exec (.cenc 0x7A) State.reset) (fun t => t.result == 0x119) = true ∧
      endsIn (exec (.cenc 0x68) State.reset) (fun t => t.result == 0x107) = true := by decide +kernel

/-- Vector 2.2. -/
theorem test_cenc_drops :
    endsIn (exec (.cenc 0x5B) State.reset) (fun t => t.result == 0) = true ∧
      endsIn (exec (.cenc 0xC9) State.reset) (fun t => t.result == 0) = true := by decide +kernel

/-- Vector 2.2. -/
theorem test_cdec_last :
    endsIn (exec (.cdec 25) State.reset) (fun t => t.result == 0x5A) = true := by decide +kernel

/-- Vector 2.2. -/
theorem test_cdec_range :
    endsIn (exec (.cdec 26) { State.reset with result := 7 })
      (fun t => reports 8 26 t && t.result == 7) = true := by decide +kernel

/-- Vector 2.2: "Hi, 2024!". -/
theorem test_norm_text :
    endsIn (exec .norm (withText State.reset
      [0x48, 0x69, 0x2C, 0x20, 0x32, 0x30, 0x32, 0x34, 0x21])) (textIs [0x48, 0x49]) = true := by decide +kernel

/-- Vector 2.2. -/
theorem test_norm_not_utf8 :
    endsIn (exec .norm (withText State.reset [0x63, 0x61, 0x66, 0xC3, 0xA9]))
      (textIs [0x43, 0x41, 0x46]) = true := by decide +kernel

/-- Vector 2.3. -/
theorem test_gcd_zero :
    endsIn (exec (.gcd 0 0) State.reset) (fun t => t.result == 0) = true ∧
      endsIn (exec (.gcd 255 255) State.reset) (fun t => t.result == 0xFF) = true := by decide +kernel

/-- Vector 2.3. -/
theorem test_gcd_coprime :
    endsIn (exec (.gcd 9 26) State.reset) (fun t => t.result == 0x101) = true ∧
      endsIn (exec (.gcd 12 18) State.reset) (fun t => t.result == 6) = true := by decide +kernel

/-- Vector 2.3. -/
theorem test_minv26_table :
    [1, 3, 5, 7, 9, 11, 15, 17, 19, 21, 23, 25].map minv26 =
      [1, 9, 21, 15, 3, 19, 7, 23, 11, 5, 17, 25].map some := by decide +kernel

/-- Vector 2.3. -/
theorem test_minv26_none :
    endsIn (exec (.minv26 13) State.reset) (fun t => t.result == 0 && t.err == 0) = true ∧
      endsIn (exec (.minv26 26) State.reset) (reports 8 26) = true := by decide +kernel

/-- Vector 2.3. -/
theorem test_mac26_wraps :
    endsIn (exec (.mac26 25 25 25) { State.reset with result := 1 })
      (fun t => t.result == 0) = true ∧
      endsIn (exec (.mac26 3 7 12) State.reset) (fun t => t.result == 7) = true := by decide +kernel

/-- Vector 2.3. -/
theorem test_mac26_first_field :
    endsIn (exec (.mac26 27 28 29) State.reset) (reports 8 27) = true ∧
      endsIn (exec (.mac26 0 0 31) State.reset) (reports 8 31) = true := by decide +kernel

/-- Vector 2.4. -/
theorem test_mkey_key_a :
    endsIn (exec (.mkey 2 2) (withKin State.reset 3 3 2 5))
      (fun t => t.statusWord == 0x202 && t.result == 0x309 && t.k == keyA.k && t.ki == keyA.ki) =
        true := by decide +kernel

/-- Vector 2.4. -/
theorem test_mkey_key_b :
    endsIn (exec (.mkey 3 3)
      { State.reset with kin := ⟨6, 24, 1, 13, 16, 10, 20, 17, 15⟩ })
      (fun t => t.statusWord == 0x302 && t.result == 0x1919 && t.ki == keyB.ki) = true := by decide +kernel

/-- Vector 2.5. -/
theorem test_mvmul_block :
    endsIn (exec (.mvmul .key) { keyA with vin := ⟨7, 4, 99⟩ })
      (fun t => t.result == 0x807 && t.vout == ⟨7, 8, 0⟩) = true ∧
      endsIn (exec (.mvmul .inverse) { keyB with vin := ⟨15, 14, 7⟩ })
        (fun t => t.result == 0x130200) = true := by decide +kernel

/-- Vector 2.5. -/
theorem test_mvmul_range :
    endsIn (exec (.mvmul .key) { keyA with vin := ⟨5, 0xFFFFFFFF, 0⟩ })
      (reports 8 0xFFFFFFFF) = true ∧
      endsIn (exec (.mvmul .key) { State.reset with vin := ⟨99, 0, 0⟩ }) (reports 6 0) = true := by decide +kernel

/-- Vector 2.6: "ABC" gives "DFXP". -/
theorem test_henc_pads :
    endsIn (exec .henc (withText keyA [0x41, 0x42, 0x43]))
      (textIs [0x44, 0x46, 0x58, 0x50]) = true := by decide +kernel

/-- Vector 2.6: "ABCD" gives "AKVVNQ". -/
theorem test_henc_order_3 :
    endsIn (exec .henc (withText keyB [0x41, 0x42, 0x43, 0x44]))
      (textIs [0x41, 0x4B, 0x56, 0x56, 0x4E, 0x51]) = true := by decide +kernel

/-- Vector 2.6: "h-i" gives "HE". -/
theorem test_hdec_drops_others :
    endsIn (exec .hdec (withText keyA [0x68, 0x2D, 0x69])) (textIs [0x48, 0x45]) = true := by decide +kernel

/-- Vector 2.6. -/
theorem test_hdec_malformed :
    endsIn (exec .hdec (withText keyB [0x50, 0x4F, 0x48, 0x58]))
      (fun t => reports 5 4 t && t.textIn.1 == [0x50, 0x4F, 0x48, 0x58]) = true := by decide +kernel

/-- Vector 2.7. -/
theorem test_vkey_secret :
    endsIn (exec .vkey (withRawKey State.reset [0x53, 0x45, 0x43, 0x52, 0x45, 0x54]))
      (fun t => t.voff == Memory.ofBytes 0 secret && t.result == 6 && t.statusWord == 4) = true := by decide +kernel

/-- Vector 2.7. -/
theorem test_vkey_empty :
    endsIn (exec .vkey (withRawKey (withOffsets State.reset keyWord) [0x31, 0x32, 0x33]))
      (fun t => reports 3 3 t && t.statusWord == 0x30 && t.vofflen == 0) = true := by decide +kernel

/-- Vector 2.7. -/
theorem test_vshift_positions :
    endsIn (exec (.vshift 1 25 .enc) (withOffsets State.reset secret))
      (fun t => t.result == 3) = true ∧
      endsIn (exec (.vshift 65535 0 .enc) (withOffsets State.reset secret))
        (fun t => t.result == 17) = true := by decide +kernel

/-- Vector 2.7. -/
theorem test_vshift_dec :
    endsIn (exec (.vshift 5 0 .dec) (withOffsets State.reset secret))
      (fun t => t.result == 7) = true ∧
      endsIn (exec (.vshift 0 26 .enc) (withOffsets State.reset secret)) (reports 8 26) = true := by decide +kernel

/-- Vector 2.7: "HELLOWORLD" gives "ZINCSPGVNU". -/
theorem test_venc_text :
    endsIn (exec .venc (withText (withOffsets State.reset secret)
      [0x48, 0x45, 0x4C, 0x4C, 0x4F, 0x57, 0x4F, 0x52, 0x4C, 0x44]))
      (textIs [0x5A, 0x49, 0x4E, 0x43, 0x53, 0x50, 0x47, 0x56, 0x4E, 0x55]) = true := by decide +kernel

/-- Vector 2.7: "HIO" gives "PEM". -/
theorem test_vdec_text :
    endsIn (exec .vdec (withText (withOffsets State.reset secret) [0x48, 0x49, 0x4F]))
      (textIs [0x50, 0x45, 0x4D]) = true := by decide +kernel

/-- Vector 2.8. -/
theorem test_pbuild_both :
    endsIn (exec (.pbuild 2 2) (withRawKey (withKin State.reset 3 3 2 5)
      [0x53, 0x45, 0x43, 0x52, 0x45, 0x54]))
      (fun t => t.statusWord == 0x20E && t.result == 0x00060309) = true := by decide +kernel

/-- Vector 2.8. -/
theorem test_pbuild_neither :
    endsIn (exec (.pbuild 2 2) (withRawKey (withKin State.reset 3 3 2 5)
      [0x31, 0x32, 0x33])) (fun t => t.statusWord == 0x30 && reports 3 3 t && t.k == Mat.zero) = true := by decide +kernel

/-- Vector 2.8: "HELLO WORLD" gives "ZMQQIBHNSC". -/
theorem test_penc_text :
    endsIn (exec .penc (withText (withOffsets keyA secret)
      [0x48, 0x45, 0x4C, 0x4C, 0x4F, 0x20, 0x57, 0x4F, 0x52, 0x4C, 0x44]))
      (textIs [0x5A, 0x4D, 0x51, 0x51, 0x49, 0x42, 0x48, 0x4E, 0x53, 0x43]) = true := by decide +kernel

/-- Vector 2.8: "ACT" gives "ZSF". -/
theorem test_penc_order_3 :
    endsIn (exec .penc (withText (withOffsets keyB keyWord) [0x41, 0x43, 0x54]))
      (textIs [0x5A, 0x53, 0x46]) = true := by decide +kernel

/-- Vector 2.8. -/
theorem test_pdec_text :
    endsIn (exec .pdec (withText (withOffsets keyB keyWord) [0x5A, 0x53, 0x46]))
      (textIs [0x41, 0x43, 0x54]) = true := by decide +kernel

/-- Program P4. -/
theorem test_pdec_malformed :
    endsIn (exec .pdec (withText (withOffsets keyA secret) [0x48, 0x49, 0x4F]))
      (fun t => reports 5 3 t && t.textIn.1 == [0x48, 0x49, 0x4F]) = true := by decide +kernel

/-! The step, the bus and the assembler. -/

/-- Vector 2.9: an illegal word, the keys kept. -/
theorem test_step_illegal :
    endsIn (step ((withOffsets keyA secret).withFetchWord 32 0xFFFFFFFF))
      (fun t => t.statusWord == 0x27E && t.errinfo == 0xFFFFFFFF) = true := by decide +kernel

/-- The word placed for the next step is the one that runs (log entry 5). -/
theorem test_fetch_first :
    endsIn (step (State.reset.withFetchWord 32 0x2000091A)) (fun t => t.result == 0x101) = true := by decide +kernel

/-- Program P5, the host first: a hazard. -/
theorem test_hazard :
    hazards (memRead 0x00C "r" { State.reset with pending := some 0 }) = true ∧
      hazards (memWrite 0x004 0 { State.reset with pending := some 0 }) = true := by decide +kernel

/-- Program P5, the core first: no hazard. -/
theorem test_no_hazard_after_step :
    endsIn (Sys2Proof.core.run 2
      { State.reset with pending := some 0, host := [.read 0x00C "r"] })
      (fun t => t.reads == [("r", 0)] && !t.faultMark) = true := by decide +kernel

/-- Vector 2.10. -/
theorem test_misaligned_write :
    endsIn (memWrite 0x006 0x30000022 State.reset)
      (fun t => t.pending == none && t.bus == some (.written true)) = true := by decide +kernel

/-- Vector 2.10: little-endian bytes of a text word. -/
theorem test_text_word (s : State) (hb : s.busy = false) :
    memWrite 0x1000 0x44434241 s = .next { s with
      txt := Memory.storeList s.txt 0 [0x41, 0x42, 0x43, 0x44], bus := some (.written false) } := by
  have h := textMax_bounds
  rw [memWrite_idle s _ _ hb (by decide),
    show slotAt (windowOffset 0x1000) = .txt 0 from slotAt_txt 0 (by omega)]
  rfl

/-- Vector 2.10: a length above the capacity is ignored. -/
theorem test_tlen_above_capacity (s : State) (hb : s.busy = false) :
    memWrite 0x01C (BitVec.ofNat 32 (Config.textMax + 1)) s =
      .next { s with bus := some (.written false) } := by
  have h := textMax_bounds
  have hv : (BitVec.ofNat 32 (Config.textMax + 1)).toNat = Config.textMax + 1 := by
    rw [BitVec.toNat_ofNat]; omega
  rw [memWrite_idle s _ _ hb (by decide), show slotAt (windowOffset 0x01C) = .tlen from rfl]
  simp only [writeSlot, hv]
  rw [if_neg (by omega)]

/-- R89: numbers, a character, and an operand outside its field. -/
theorem test_parse_command :
    parseCommand "VSHIFT 7, 4, DEC ; one step".toList = some (.vshift 7 4 .dec) ∧
      parseCommand "CENC 'h'".toList = some (.cenc 0x68) ∧
      parseCommand "GCD 0x1_00, 1".toList = none := by decide +kernel

/-- R90: the statements of a host program. -/
theorem test_parse_statement :
    parseStatement "wrkey 0, 1, -1".toList = some (some (.wrkey 0 1 (-1))) ∧
      parseStatement "rd 0x00C -> r1".toList = some (some (.rd 0x00C "r1")) ∧
      parseStatement "exec PBUILD 2, 2".toList = some (some (.exec (.pbuild 2 2))) := by decide +kernel

/-- R90, program P1: "SECRET" from 0x800 on. -/
theorem test_expand_wrtext :
    HostStmt.expand (.wrtext 0x800 [0x53, 0x45, 0x43, 0x52, 0x45, 0x54]) =
      some [.write 0x800 0x52434553, .write 0x804 0x00005445] ∧
      HostStmt.expand (.exec (.pbuild 2 2)) = some [.write 0x004 0x50000022, .wait] := by decide +kernel

/-! A state that meets the hypotheses of each statement, and, where a statement has clauses, one for
each clause at a boundary of its range. -/

/-- Both keys loaded, a key in `KIN` and in `VKB`, a vector, and the text "HI". -/
def ready : State :=
  { withRawKey (withText (withOffsets keyA keyWord) [0x48, 0x49]) [0x4B, 0x45, 0x59] with
    kin := ⟨3, 3, 0, 2, 5, 0, 0, 0, 0⟩, vin := ⟨25, 26, 99⟩ }

/-- `ready` with a letter count that is no multiple of the order. -/
def readyOdd : State := withText ready [0x48, 0x49, 0x4F]

theorem ready_vkeyLoaded : ready.VkeyLoaded where
  nonempty := by decide
  fits := by have h := vkeyMax_bounds; show 3 ≤ Config.vkeyMax; omega
  residues := by
    intro a ha
    have ha : a < 3 := ha
    interval_cases a <;> exact ⟨_, rfl, by decide⟩

theorem ready_mkeyLoaded : ready.MkeyLoaded where
  order := by decide
  det_residue := by decide
  detinv_residue := by decide
  coprime := by decide
  inverse := by decide
  key_shape := by unfold KeyShape; decide
  inv_shape := by unfold KeyShape; decide
  right_inverse := by unfold IsIdentity; decide
  left_inverse := by unfold IsIdentity; decide

/-- The invariants hold in a state with both keys loaded. -/
theorem ready_inv : ready.Inv where
  no_mkey := fun h => absurd h (by decide)
  mkey := fun _ => ready_mkeyLoaded
  no_vkey := fun h => absurd h (by decide)
  vkey := fun _ => ready_vkeyLoaded
  tlen := by have h := textMax_bounds; show 2 ≤ Config.textMax; omega
  vklen := by have h := vkeyMax_bounds; show 3 ≤ Config.vkeyMax; omega
  err := by decide
  vout := by decide
  txt := ⟨by decide, Memory.below_ofBytes _ _ _ (by have h := textMax_bounds; simp; omega)⟩
  vkb := ⟨by decide, Memory.below_ofBytes _ _ _ (by have h := vkeyMax_bounds; simp; omega)⟩
  voff := ⟨by decide, Memory.below_ofBytes _ _ _ (by
    have h := vkeyMax_bounds; show 0 + 3 ≤ _; omega)⟩

theorem readyOdd_fits : readyOdd.tlen.toNat ≤ Config.textMax := by
  have h := textMax_bounds; show 3 ≤ Config.textMax; omega

theorem test_witness_DecodeOfEncodeIsIdentity :
    WellFormed (.vshift 65535 31 .dec) = true ∧ WellFormed (.mkey 15 15) = true := by decide

theorem test_witness_DecodedWordEncodesBack :
    decode 0x41FFFF3F = .command (.vshift 65535 31 .dec) := by decide

theorem test_witness_IllegalWordsRaiseIllegalCommand :
    (∀ r ∈ opcodeRows, (0x22008000 : Word) &&& r.mask ≠ r.pattern) ∧
      (∃ r ∈ opcodeRows, (0x22007FFF : Word) &&& r.mask = r.pattern) ∧
      ({ State.reset with pending := some 0x22008000 } : State).pending = some 0x22008000 := by
  refine ⟨?_, ?_, rfl⟩
  · simp only [opcodeRows, opcodeRowsLow, opcodeRowsHigh, List.cons_append, List.nil_append,
      List.forall_mem_cons]
    refine ⟨?_, ?_, ?_, ?_, ?_, ?_, ?_, ?_, ?_, ?_, ?_, ?_, ?_, ?_, ?_, ?_, ?_, ?_, ?_, ?_⟩ <;>
      decide
  · exact ⟨opcodeRowsLow[7], by simp [opcodeRows, opcodeRowsLow], by decide⟩

theorem test_witness_StepRunsDecodedCommand :
    (ready.withFetchWord 32 0).faultMark = false ∧ (ready.withFetchWord 32 0).pending = some 0 ∧
      decode 0 = .command .nop ∧ (ready.withFetchWord 32 0).turns = [.core] ∧
      decode 1 = .illegal .reservedBitSet ∧
      ({ ready with pending := some 0 } : State).turns = [] := by decide +kernel

/-- StepRunsDecodedCommand: the host moves next, with each of its operations first. -/
theorem test_witness_host_turn :
    ({ ready with turns := [.host], pending := some 0 } : State).turns = .host :: [] ∧
      ready.faultMark = false ∧ ready.turns = [] ∧ ready.pending = none ∧
      ({ ready with host := [.read 0x00C "r"] } : State).host = .read 0x00C "r" :: [] ∧
      ({ ready with host := [.write 0x040 7, .wait] } : State).host = .write 0x040 7 :: [.wait] :=
  ⟨rfl, rfl, rfl, rfl, rfl, rfl⟩

theorem test_witness_ResetInputSetsResetValues :
    ({ ready with host := [.reset], pending := some 0 } : State).host = .reset :: [] := rfl

theorem test_witness_RegistersReadAfterReset :
    windowOffset 0x7FC % 4 = 0 ∧ windowOffset 0x7FC < 0x800 ∧
      windowOffset 0xFFC % 4 = 0 ∧ 0xC00 ≤ windowOffset 0xFFC ∧
      windowOffset 0xFFC < 0x1000 ∧ ready.pending = none ∧
      (0x060 : Word).toNat % 0x2000 = 0x040 + 4 * (8 : Fin 9).val ∧
      (0x0A0 : Word).toNat % 0x2000 = 0x080 + 4 * (8 : Fin 9).val ∧
      (0x0E0 : Word).toNat % 0x2000 = 0x0C0 + 4 * (8 : Fin 9).val ∧
      (0x108 : Word).toNat % 0x2000 = 0x100 + 4 * (2 : Fin 3).val ∧
      (0x118 : Word).toNat % 0x2000 = 0x110 + 4 * (2 : Fin 3).val := by decide

theorem test_witness_pending :
    ready.pending = none ∧ ({ ready with pending := some 0 } : State).pending.isSome = true := by
  decide

theorem test_witness_BusyRule :
    (0x00C : Word).toNat % 0x2000 ≠ 0x000 ∧ (0x00C : Word).toNat % 0x2000 ≠ 0x008 ∧
      (0x009 : Word).toNat % 0x2000 ≠ 0x008 ∧ (0x2000 : Word).toNat % 0x2000 = 0x000 ∧
      (0x2008 : Word).toNat % 0x2000 = 0x008 := by decide

theorem test_witness_MisalignedTransactionIsBusError :
    State.reset.pending = none ∧ (0x1003 : Word).toNat % 4 ≠ 0 ∧ (0x1FFC : Word).toNat % 4 = 0 ∧
      (∃ t, memWrite 0x01C 0 State.reset = .next t) ∧
      ∃ t, memRead 0x000 "id" { State.reset with pending := some 0 } = .next t :=
  ⟨rfl, by decide, by decide, ⟨_, rfl⟩, ⟨_, rfl⟩⟩

theorem test_witness_ReadOnlyAndReservedOffsets :
    (0x03C : Word).toNat % 0x2000 = 0x03C ∧ (0x064 : Word).toNat % 0x2000 = 0x064 ∧
      (0x7FC : Word).toNat % 0x2000 = 0x7FC ∧
      0x1000 + Config.textMax ≤ (0x1FFC : Word).toNat % 0x2000 ∧
      0x800 + Config.vkeyMax ≤ (0xFFC : Word).toNat % 0x2000 := by
  have h := textMax_bounds
  have h' := vkeyMax_bounds
  refine ⟨rfl, rfl, rfl, ?_, ?_⟩
  · show _ ≤ 0x1FFC; omega
  · show _ ≤ 0xFFC; omega

theorem test_witness_BufferWordWriteSetsItsBytes :
    4 * (Config.textMax / 4 - 1) < Config.textMax ∧
      4 * (Config.vkeyMax / 4 - 1) < Config.vkeyMax := by
  have h := textMax_bounds
  have h' := vkeyMax_bounds
  omega

/-- BufferWordWriteSetsItsBytes: a word of `TXT` whose second byte is its last defined one, and a
defined byte of `VKB`. -/
theorem test_witness_partly_defined_word :
    ready.pending = none ∧ 4 * 0 < Config.textMax ∧ 4 * 0 < Config.vkeyMax ∧
      Memory.lookup ready.txt (4 * 0 + 1) = some 0x49 ∧
      (Memory.lookup ready.vkb (4 * 0 + 2)).isSome = true ∧
      Memory.lookup ready.vkb (4 * 0 + 3) = none := by
  have h := textMax_bounds
  have h' := vkeyMax_bounds
  exact ⟨rfl, by omega, by omega, by decide +kernel, by decide +kernel, by decide +kernel⟩

theorem test_witness_VoffReadsZeroBeyondItsLength :
    4 * 0 < Config.vkeyMax ∧ 4 * 0 + 2 < ready.vofflen.toNat ∧
      Memory.lookup ready.voff (4 * 0 + 2) = some 24 ∧ ready.vofflen.toNat ≤ 4 * 0 + 3 := by
  have h := vkeyMax_bounds
  exact ⟨by omega, by decide, by decide, by decide⟩

theorem test_witness_UnwrittenBytesReadAsFreshValues :
    Memory.lookup ready.txt 2 = none ∧ Memory.lookup ready.txt 1 = some 0x49 := by decide

theorem fetched_inv : (ready.withFetchWord 32 0x51000000).Inv where
  no_mkey := fun h => absurd h (by decide)
  mkey := fun _ => ⟨ready_mkeyLoaded.order, ready_mkeyLoaded.det_residue,
    ready_mkeyLoaded.detinv_residue, ready_mkeyLoaded.coprime, ready_mkeyLoaded.inverse,
    ready_mkeyLoaded.key_shape, ready_mkeyLoaded.inv_shape, ready_mkeyLoaded.right_inverse,
    ready_mkeyLoaded.left_inverse⟩
  no_vkey := fun h => absurd h (by decide)
  vkey := fun _ => ⟨ready_vkeyLoaded.nonempty, ready_vkeyLoaded.fits, ready_vkeyLoaded.residues⟩
  tlen := ready_inv.tlen
  vklen := ready_inv.vklen
  err := ready_inv.err
  vout := ready_inv.vout
  txt := ready_inv.txt
  vkb := ready_inv.vkb
  voff := ready_inv.voff

theorem test_witness_StepKeepsInv : ∃ s t, s.Inv ∧ step s = .next t :=
  ⟨_, _, fetched_inv, rfl⟩

theorem test_witness_FaultMarkNeverCleared :
    (∃ t, step ready = .next t) ∧ ({ ready with faultMark := true } : State).faultMark = true :=
  ⟨⟨_, rfl⟩, rfl⟩

/-- A pending command, a waiting host, and one host turn scheduled first. -/
theorem test_witness_WaitEndsAfterTheCommand :
    ∃ s : State, s.faultMark = false ∧ s.pending = some 0x51000000 ∧ s.host = .wait :: [] ∧
      s.turns = List.replicate 1 .host :=
  ⟨{ ready with pending := some 0x51000000, host := [.wait], turns := [.host] }, rfl, rfl, rfl, rfl⟩

theorem test_witness_HostExecRunsTheCommand :
    ∃ s : State, WellFormed (.pbuild 15 15) = true ∧ s.faultMark = false ∧ s.pending = none ∧
      s.turns = [] ∧ s.host = .write 0x004 (encode (.pbuild 15 15)) :: .wait :: [] :=
  ⟨{ ready with host := [.write 0x004 (encode (.pbuild 15 15)), .wait] },
    by decide, rfl, rfl, rfl, rfl⟩

theorem test_witness_OnlyKeyCommandsWriteKeys :
    ¬ WritesMkey .vkey ∧ ¬ WritesVkey (.mkey 2 2) ∧ WritesText .pdec ∧ Instr.pdec ≠ .clr := by
  simp [WritesMkey, WritesVkey, WritesText]

/-- A failing command of each kind: a key load, and one that writes no key. -/
theorem test_witness_FailedCommandChangesOnlyReport :
    decode 0x50000023 = .command (.pbuild 2 3) ∧
      endsIn (coreTurn { ready with pending := some 0x50000023 }) (fun t => t.err != 0) = true ∧
      decode 0x52000000 = .command .pdec ∧
      endsIn (coreTurn { readyOdd with pending := some 0x52000000 }) (fun t => t.err != 0) =
        true := by decide +kernel

theorem test_witness_TextCommandsFrame :
    endsIn (exec .pdec readyOdd) (fun t => t.err != 0) = true ∧
      endsIn (exec .pdec ready) (fun t => t.err == 0) = true := by decide +kernel

theorem test_witness_CodecIsBijection :
    isLetter 0x41 = true ∧ isLetter 0x5A = true ∧ isLetter 0x61 = true ∧ isLetter 0x7A = true := by
  decide

theorem test_witness_LoadedInverseIsInverse :
    endsIn (exec (.mkey 2 2) ready) (fun t => t.err == 0) = true ∧
      endsIn (exec (.pbuild 2 2) ready) (fun t => t.err == 0) = true := by decide +kernel

theorem test_witness_PaddedTextFits : ([] : List Byte).length ≤ Config.textMax := Nat.zero_le _

theorem test_witness_NopClearsTheReport :
    (0x00000001 : Word).extractLsb' 24 8 = 0 ∧ (0x00000001 : Word) ≠ 0 := by decide

theorem test_witness_TextInReadsTheBuffer :
    1 < ready.tlen.toNat ∧ Memory.lookup ready.txt 1 = some 0x49 ∧
      Memory.defined ready.txt 0 ready.tlen.toNat = true ∧
      0 < ({ State.reset with tlen := 2 } : State).tlen.toNat ∧
      Memory.lookup State.reset.txt 0 = none ∧
      2 < ready.vklen.toNat ∧ (Memory.lookup ready.vkb 2).isSome = true ∧
      Memory.defined ready.vkb 0 ready.vklen.toNat = true ∧
      0 < ({ State.reset with vklen := 2 } : State).vklen.toNat ∧
      Memory.lookup State.reset.vkb 0 = none := by decide +kernel

theorem test_witness_Minv26GivesInverse :
    25 * 25 % 26 = 1 ∧ (∀ x, 1 ≤ x → x ≤ 25 → 13 * x % 26 ≠ 1) ∧ 26 ≤ 255 := by
  refine ⟨by decide, fun x h1 h2 => ?_, by decide⟩
  omega

/-- A bad shape, a determinant of 0 and a determinant of 13. -/
theorem test_witness_MkeyRejectsBadKeys :
    ¬ (2 = 3 ∧ (2 = 2 ∨ 2 = 3)) ∧ ¬ (4 = 4 ∧ (4 = 2 ∨ 4 = 3)) ∧
      ((0 : Nat) : Int) = det (kinInts (withKin ready 1 1 1 1).kin) 2 % 26 ∧ Nat.gcd 0 26 ≠ 1 ∧
      ((13 : Nat) : Int) = det (kinInts (withKin ready 1 0 0 13).kin) 2 % 26 ∧
      Nat.gcd 13 26 ≠ 1 := by decide +kernel

theorem test_witness_MkeyLoadsGoodKeys :
    ((9 : Nat) : Int) = det (kinInts ready.kin) 2 % 26 ∧ Nat.gcd 9 26 = 1 ∧
      ((25 : Nat) : Int) = det (kinInts ⟨6, 24, 1, 13, 16, 10, 20, 17, 15⟩) 3 % 26 ∧
      Nat.gcd 25 26 = 1 := by decide +kernel

/-- A vector of residues, and one whose second element is the first out of range. -/
theorem test_witness_MvmulMultipliesVector :
    ready.mkeyValid = true ∧ ready.order = 2 ∧ keyA.vin.e0.toNat < 26 ∧ keyA.vin.e1.toNat < 26 ∧
      ready.vin.e0.toNat < 26 ∧ 26 ≤ ready.vin.e1.toNat ∧ State.reset.mkeyValid = false := by
  decide

theorem test_witness_HencEncryptsText :
    readyOdd.mkeyValid = true ∧ readyOdd.order = 2 ∧ readyOdd.tlen.toNat ≤ Config.textMax :=
  ⟨rfl, rfl, readyOdd_fits⟩

theorem test_witness_HdecDecryptsText :
    (normalizeText ready.textIn.1).length % ready.order = 0 ∧
      (normalizeText readyOdd.textIn.1).length % readyOdd.order ≠ 0 := by decide +kernel

theorem test_witness_HillRoundTrip :
    ready.Inv ∧ ready.mkeyValid = true ∧ ready.textIn.1.length % ready.order = 0 ∧
      UpperLetters ready.textIn.1 :=
  ⟨ready_inv, rfl, by decide +kernel, by unfold UpperLetters; decide +kernel⟩

/-- A raw key with letters, and one of length 0. -/
theorem test_witness_VkeyCachesOffsets :
    ready.vklen.toNat ≤ Config.vkeyMax ∧ (ready.keyIn.1.filter isLetter).map codecEnc ≠ [] ∧
      (keyA.keyIn.1.filter isLetter).map codecEnc = [] :=
  ⟨ready_inv.vklen, by decide +kernel, by decide +kernel⟩

theorem test_witness_VshiftShiftsResidue :
    ready.vkeyValid = true ∧ ready.VkeyLoaded ∧ State.reset.vkeyValid = false :=
  ⟨rfl, ready_vkeyLoaded, rfl⟩

theorem test_witness_VencAndVdecShiftText :
    ready.vkeyValid = true ∧ ready.VkeyLoaded ∧ ready.tlen.toNat ≤ Config.textMax ∧
      (normalizeText ready.textIn.1)[1]? = some 0x49 :=
  ⟨rfl, ready_vkeyLoaded, ready_inv.tlen, by decide +kernel⟩

theorem test_witness_SubstitutionRoundTrip : ready.Inv ∧ ready.vkeyValid = true :=
  ⟨ready_inv, rfl⟩

/-- A bad matrix key; a good one with an empty raw key; both good. -/
theorem test_witness_PbuildLoadsBothOrNeither :
    endsIn (exec (.mkey 2 3) ready) (fun m => m.err != 0) = true ∧
      endsIn (exec (.mkey 2 2) { keyA with kin := ready.kin }) (fun m => m.err == 0) = true ∧
      endsIn (exec .vkey { keyA with kin := ready.kin }) (fun v => v.err != 0) = true ∧
      endsIn (exec (.mkey 2 2) ready) (fun m => m.err == 0) = true ∧
      endsIn (exec .vkey ready) (fun v => v.err == 0) = true := by decide +kernel

theorem test_witness_PbuildCompletes :
    ((9 : Nat) : Int) = det (kinInts ready.kin) 2 % 26 ∧ Nat.gcd 9 26 = 1 ∧
      ready.vklen.toNat ≤ Config.vkeyMax ∧ ready.keyIn.1.filter isLetter ≠ [] :=
  ⟨by decide +kernel, by decide, ready_inv.vklen, by decide +kernel⟩

theorem test_witness_PencEncryptsText :
    ready.mkeyValid = true ∧ ready.order = 2 ∧ ready.vkeyValid = true ∧ ready.VkeyLoaded ∧
      ready.tlen.toNat ≤ Config.textMax ∧ (keyA.mkeyValid && keyA.vkeyValid) = false :=
  ⟨rfl, rfl, rfl, ready_vkeyLoaded, ready_inv.tlen, rfl⟩

/-- "HI" back through the offsets of "KEY" is "XE": an even count; three letters: an odd one. -/
theorem test_witness_PdecDecryptsText :
    [0x58, 0x45].length = (normalizeText ready.textIn.1).length ∧
      (∀ a b, (normalizeText ready.textIn.1)[a]? = some b →
        ([0x58, 0x45] : List Byte)[a]? =
          some (codecDec ((codecEnc b + 26 - offsetOf ready a) % 26))) ∧
      ([0x58, 0x45] : List Byte).length % ready.order = 0 ∧
      (normalizeText readyOdd.textIn.1).length % readyOdd.order ≠ 0 := by
  have ht : normalizeText ready.textIn.1 = [0x48, 0x49] := by decide +kernel
  refine ⟨by decide +kernel, ?_, by decide, by decide +kernel⟩
  intro a b h
  rw [ht] at h
  match a, h with
  | 0, h => cases h; decide +kernel
  | 1, h => cases h; decide +kernel
  | _ + 2, h => simp at h

theorem test_witness_PipelineRoundTrip :
    ready.Inv ∧ ready.mkeyValid = true ∧ ready.vkeyValid = true ∧
      ready.textIn.1.length % ready.order = 0 :=
  ⟨ready_inv, rfl, rfl, by decide +kernel⟩

/-- EncodedWordsOfEachForm, CencGivesLetterValue, CdecGivesLetter, GcdGivesDivisorAndFlag,
Mac26GivesProductSum, MkeyRejectsBadKeys and VshiftShiftsResidue: operands at their last value. -/
theorem test_witness_operand_ranges :
    255 < 256 ∧ 31 < 32 ∧ 15 < 16 ∧ 65535 < 65536 ∧ 25 < 26 ∧ 26 ≤ 31 := by decide

/-- AdjugateTimesMatrixIsDeterminant: both orders, the last element of each. -/
theorem test_witness_AdjugateTimesMatrixIsDeterminant :
    (2 = 2 ∨ 2 = 3) ∧ (1 : Fin 3).val < 2 ∧ (3 = 2 ∨ 3 = 3) ∧ (2 : Fin 3).val < 3 := by decide

theorem test_witness_NormRewritesText : readyOdd.tlen.toNat ≤ Config.textMax := readyOdd_fits

theorem test_witness_frames :
    Instr.vkey ≠ .clr ∧ (∃ b, Instr.cdec 26 = .cdec b) ∧
      (∃ p v dir, Instr.vshift 65535 26 .dec = .vshift p v dir) ∧
      ready.vofflen.toNat ≤ 3 := by
  refine ⟨by decide, ⟨_, rfl⟩, ⟨_, _, _, rfl⟩, by decide⟩

end Sys2Proof.Tests
end

section
/-! SUPPORT. The algebra behind a loaded matrix key: the adjugate times the matrix is the determinant
times the identity (43_matrix_cipher.md R152), so the key `mkey_eval` answers and its inverse
multiply to the identity modulo 26 (R156). -/

namespace Sys2Proof.Machine

/-- Element (i, j) of the product of two integer matrices of order `n`, unreduced. -/
def intProduct (a b : Mat Int) (n : Nat) (i j : Fin 3) : Int :=
  a.at i 0 * b.at 0 j + a.at i 1 * b.at 1 j + if n = 3 then a.at i 2 * b.at 2 j else 0

/-- Every element times `c`. -/
def Mat.scale (c : Int) (m : Mat Int) : Mat Int := Mat.ofFn fun idx => c * m.get idx

theorem Mat.scale_at (c : Int) (m : Mat Int) (i j : Fin 3) : (m.scale c).at i j = c * m.at i j := by
  simp only [Mat.at, Mat.scale, Mat.get_ofFn]

theorem intProduct_scale_right (c : Int) (a b : Mat Int) (n : Nat) (i j : Fin 3) :
    intProduct a (b.scale c) n i j = c * intProduct a b n i j := by
  simp only [intProduct, Mat.scale_at]
  split <;> ring

theorem intProduct_scale_left (c : Int) (a b : Mat Int) (n : Nat) (i j : Fin 3) :
    intProduct (a.scale c) b n i j = c * intProduct a b n i j := by
  simp only [intProduct, Mat.scale_at]
  split <;> ring

/-- The matrix times its adjugate, element by element (R152). -/
theorem intProduct_adj (k : Mat Int) {n : Nat} (hn : n = 2 ∨ n = 3) {i j : Fin 3} (hi : i.val < n)
    (hj : j.val < n) : intProduct k (adj k n) n i j = if i = j then det k n else 0 := by
  rcases hn with rfl | rfl <;> fin_cases i <;> fin_cases j <;>
    simp [intProduct, Mat.at, Mat.get, adj, det] at hi hj ⊢ <;> ring

/-- The adjugate times the matrix, element by element (R152). -/
theorem intProduct_adj_left (k : Mat Int) {n : Nat} (hn : n = 2 ∨ n = 3) {i j : Fin 3}
    (hi : i.val < n) (hj : j.val < n) :
    intProduct (adj k n) k n i j = if i = j then det k n else 0 := by
  rcases hn with rfl | rfl <;> fin_cases i <;> fin_cases j <;>
    simp [intProduct, Mat.at, Mat.get, adj, det] at hi hj ⊢ <;> ring

/-- The element (i, j) of the block of order `n` lies in the block. -/
theorem inBlock_at {n : Nat} {i j : Fin 3} (hi : i.val < n) (hj : j.val < n) :
    inBlock n ⟨3 * i.val + j.val, by omega⟩ = true := by
  simp only [inBlock, Bool.and_eq_true, decide_eq_true_eq]
  omega

theorem MatCongr.at {n : Nat} {a b : Mat Int} (h : MatCongr n a b) {i j : Fin 3} (hi : i.val < n)
    (hj : j.val < n) : a.at i j ≡ b.at i j [ZMOD 26] :=
  h _ (inBlock_at hi hj)

theorem MatCongr.refl (n : Nat) (a : Mat Int) : MatCongr n a a := fun _ _ => Int.ModEq.refl _

/-- A product modulo 26 depends on the blocks modulo 26 alone. -/
theorem intProduct_congr {n : Nat} (hn : n = 2 ∨ n = 3) {a a' b b' : Mat Int}
    (ha : MatCongr n a a') (hb : MatCongr n b b') {i j : Fin 3} (hi : i.val < n) (hj : j.val < n) :
    intProduct a b n i j ≡ intProduct a' b' n i j [ZMOD 26] := by
  have hterm : ∀ l : Fin 3, l.val < n →
      a.at i l * b.at l j ≡ a'.at i l * b'.at l j [ZMOD 26] :=
    fun l hl => (ha.at hi hl).mul (hb.at hl hj)
  have h01 := (hterm 0 (show 0 < n by omega)).add (hterm 1 (show 1 < n by omega))
  unfold intProduct
  split
  · next h3 => exact h01.add (hterm 2 (show 2 < n by omega))
  · exact h01.add (Int.ModEq.refl 0)

/-- The product of two key matrices is the integer product reduced (R156). -/
theorem mulEntry_eq_intProduct (a b : Mat Residue) {n : Nat} (hn : n = 2 ∨ n = 3) (i j : Fin 3) :
    (mulEntry a b n i j : Int) = intProduct (matInt a) (matInt b) n i j % 26 := by
  rcases hn with rfl | rfl <;> simp [mulEntry, intProduct, Mat.at, matInt_get]

/-- Two matrices are inverse to each other once their integer product is the identity modulo 26. -/
theorem isIdentity_of_modEq (a b : Mat Residue) {n : Nat} (hn : n = 2 ∨ n = 3)
    (h : ∀ i j : Fin 3, i.val < n → j.val < n →
      intProduct (matInt a) (matInt b) n i j ≡ if i = j then 1 else 0 [ZMOD 26]) :
    IsIdentity a b n := by
  intro i j hi hj
  have hij := h i j hi hj
  have hm := mulEntry_eq_intProduct a b hn i j
  unfold Int.ModEq at hij
  by_cases hd : i = j
  · rw [if_pos hd] at hij ⊢; omega
  · rw [if_neg hd] at hij ⊢; omega

/-- The inverse is the adjugate times the inverse determinant, modulo 26 (R153). -/
theorem matCongr_invertKey (k : Mat Residue) (n di : Nat) :
    MatCongr n (matInt (invertKey k n di)) ((adj (matInt k) n).scale di) := by
  intro idx h
  rw [matInt_get, invertKey_toNat, if_pos h, Mat.scale, Mat.get_ofFn]
  exact Int.mod_modEq _ _

section
variable {k : Mat Residue} {n d di : Nat} (hn : n = 2 ∨ n = 3)
  (hd : (d : Int) = det (matInt k) n % 26) (hdi : d * di % 26 = 1)
include hd hdi

/-- The inverse determinant times a matrix of determinants on the diagonal is the identity. -/
theorem inverse_mul_det_modEq (i j : Fin 3) :
    (di : Int) * (if i = j then det (matInt k) n else 0) ≡ if i = j then 1 else 0 [ZMOD 26] := by
  have hdet : det (matInt k) n ≡ d [ZMOD 26] := by rw [hd]; exact (Int.mod_modEq _ _).symm
  have hone : (di : Int) * d ≡ 1 [ZMOD 26] := by
    have h : ((d * di : Nat) : Int) % 26 = 1 := by omega
    rw [mul_comm, ← Nat.cast_mul]
    exact h
  split
  · exact (hdet.mul_left _).trans hone
  · rw [mul_zero]

include hn

theorem isIdentity_invertKey_right : IsIdentity k (invertKey k n di) n := by
  refine isIdentity_of_modEq _ _ hn fun i j hi hj => ?_
  have h := intProduct_congr hn (MatCongr.refl n (matInt k)) (matCongr_invertKey k n di) hi hj
  rw [intProduct_scale_right, intProduct_adj _ hn hi hj] at h
  exact h.trans (inverse_mul_det_modEq hd hdi i j)

theorem isIdentity_invertKey_left : IsIdentity (invertKey k n di) k n := by
  refine isIdentity_of_modEq _ _ hn fun i j hi hj => ?_
  have h := intProduct_congr hn (matCongr_invertKey k n di) (MatCongr.refl n (matInt k)) hi hj
  rw [intProduct_scale_left, intProduct_adj_left _ hn hi hj] at h
  exact h.trans (inverse_mul_det_modEq hd hdi i j)

end

theorem residueOf_lt (x : Int) : (residueOf x).toNat < 26 := by
  have := residueOf_toNat x
  omega

/-- Residues inside the block and 0 outside it make a key matrix. -/
theorem keyShape_ofFn (n : Nat) (f : Fin 9 → Int) :
    KeyShape (Mat.ofFn fun idx => if inBlock n idx then residueOf (f idx) else 0) n := by
  intro idx
  rw [Mat.get_ofFn]
  split
  · next hin => exact ⟨residueOf_lt _, fun hout => by simp [hin] at hout⟩
  · exact ⟨by decide, fun _ => rfl⟩

theorem keyShape_reduceKin (kin : Mat Word) (n : Nat) : KeyShape (reduceKin kin n) n :=
  keyShape_ofFn n _

theorem keyShape_invertKey (k : Mat Residue) (n di : Nat) : KeyShape (invertKey k n di) n :=
  keyShape_ofFn n _

/-- A key that `mkey_eval` answers meets every condition of a loaded key (R50, R153). -/
theorem mkeyLoaded_installMkey {rows cols : Nat} {kin : Mat Word} {key : MatrixKey}
    (h : mkeyEval rows cols kin = .ok key) (s : State) : (s.installMkey key).MkeyLoaded := by
  rcases mkeyEval_cases rows cols kin with
    ⟨-, he⟩ | ⟨-, hn, d, hd26, hd, ⟨-, he⟩ | ⟨hcop, di, -, hdi25, hinv, he⟩⟩
  · rw [he] at h; cases h
  · rw [he] at h; cases h
  · rw [he] at h
    cases h
    have ho : (BitVec.ofNat 2 rows).toNat = rows := by rw [BitVec.toNat_ofNat]; omega
    have hdn : (BitVec.ofNat 5 d).toNat = d := by rw [BitVec.toNat_ofNat]; omega
    have hdin : (BitVec.ofNat 5 di).toNat = di := by rw [BitVec.toNat_ofNat]; omega
    constructor <;> simp only [State.order, State.installMkey, ho, hdn, hdin]
    · exact hn
    · exact hd26
    · omega
    · exact hcop
    · exact hinv
    · exact keyShape_reduceKin _ _
    · exact keyShape_invertKey _ _ _
    · exact isIdentity_invertKey_right hn hd hinv
    · exact isIdentity_invertKey_left hn hd hinv

end Sys2Proof.Machine
end

section
/-! SUPPORT. The invariant under each shared operation: one rule for the report, for what `Inv` does
not read, for the text, for `VOUT`, and for each load and clear of a key. -/

namespace Sys2Proof.Machine

/-! A key's registers the same. An operation that writes none of them has `SameMkey.refl s` (or
`SameVkey.refl s`) as its proof, since the fields of the state after compute to those before. -/

theorem SameMkey.refl (s : State) : SameMkey s s := ⟨rfl, rfl, rfl, rfl, rfl, rfl⟩

theorem SameVkey.refl (s : State) : SameVkey s s := ⟨rfl, rfl, fun _ => rfl⟩

theorem SameMkey.absent {s t : State} (h : SameMkey s t) (ha : s.MkeyAbsent) : t.MkeyAbsent := by
  obtain ⟨-, hn, hd, hdi, hk, hki⟩ := h
  exact ⟨hn.trans ha.order, hd.trans ha.det, hdi.trans ha.detinv, hk.trans ha.key, hki.trans ha.inv⟩

theorem SameMkey.loaded {s t : State} (h : SameMkey s t) (hl : s.MkeyLoaded) : t.MkeyLoaded := by
  obtain ⟨-, hn, hd, hdi, hk, hki⟩ := h
  constructor <;> simp only [State.order, hn, hd, hdi, hk, hki]
  exacts [hl.order, hl.det_residue, hl.detinv_residue, hl.coprime, hl.inverse, hl.key_shape,
    hl.inv_shape, hl.right_inverse, hl.left_inverse]

theorem SameVkey.loaded {s t : State} (h : SameVkey s t) (hl : s.VkeyLoaded) : t.VkeyLoaded := by
  obtain ⟨-, hlen, hbytes⟩ := h
  constructor <;> simp only [hlen, hbytes]
  exacts [hl.nonempty, hl.fits, hl.residues]

/-- The clauses of `Inv` on the matrix key. -/
def State.MkeyInv (s : State) : Prop :=
  (s.mkeyValid = false → s.MkeyAbsent) ∧ (s.mkeyValid = true → s.MkeyLoaded)

/-- The clauses of `Inv` on the substitution key. -/
def State.VkeyInv (s : State) : Prop :=
  (s.vkeyValid = false → s.vofflen = 0) ∧ (s.vkeyValid = true → s.VkeyLoaded)

/-- The clauses of `Inv` on neither key. -/
structure State.RestInv (s : State) : Prop where
  tlen : s.tlen.toNat ≤ Config.textMax
  vklen : s.vklen.toNat ≤ Config.vkeyMax
  err : s.err.toNat ≤ 8
  vout : ∀ i : Fin 3, (s.vout.get i).toNat < 26
  txt : BufferOk s.txt Config.textMax
  vkb : BufferOk s.vkb Config.vkeyMax
  voff : BufferOk s.voff Config.vkeyMax

theorem State.inv_iff (s : State) : s.Inv ↔ s.MkeyInv ∧ s.VkeyInv ∧ s.RestInv :=
  ⟨fun h => ⟨⟨h.no_mkey, h.mkey⟩, ⟨h.no_vkey, h.vkey⟩, { h with }⟩,
    fun ⟨hm, hv, hr⟩ =>
      { hr with no_mkey := hm.1, mkey := hm.2, no_vkey := hv.1, vkey := hv.2 }⟩

section
variable {s t : State}

theorem State.MkeyInv.of_same (h : s.MkeyInv) (hs : SameMkey s t) : t.MkeyInv :=
  ⟨fun hv => hs.absent (h.1 (hs.1 ▸ hv)), fun hv => hs.loaded (h.2 (hs.1 ▸ hv))⟩

theorem State.VkeyInv.of_same (h : s.VkeyInv) (hs : SameVkey s t) : t.VkeyInv :=
  ⟨fun hv => hs.2.1.trans (h.1 (hs.1 ▸ hv)), fun hv => hs.loaded (h.2 (hs.1 ▸ hv))⟩

theorem State.MkeyInv.of_absent (hv : t.mkeyValid = false) (h : t.MkeyAbsent) : t.MkeyInv :=
  ⟨fun _ => h, fun ht => absurd ht (by simp [hv])⟩

theorem State.MkeyInv.of_loaded (hv : t.mkeyValid = true) (h : t.MkeyLoaded) : t.MkeyInv :=
  ⟨fun hf => absurd hf (by simp [hv]), fun _ => h⟩

theorem State.VkeyInv.of_absent (hv : t.vkeyValid = false) (h : t.vofflen = 0) : t.VkeyInv :=
  ⟨fun _ => h, fun ht => absurd ht (by simp [hv])⟩

theorem State.VkeyInv.of_loaded (hv : t.vkeyValid = true) (h : t.VkeyLoaded) : t.VkeyInv :=
  ⟨fun hf => absurd hf (by simp [hv]), fun _ => h⟩

/-- Both keys the same: only the other clauses are left to show. -/
theorem State.Inv.of_same (h : s.Inv) (hm : SameMkey s t) (hv : SameVkey s t) (hr : t.RestInv) :
    t.Inv := by
  obtain ⟨hmkey, hvkey, -⟩ := s.inv_iff.1 h
  exact t.inv_iff.2 ⟨hmkey.of_same hm, hvkey.of_same hv, hr⟩

/-- The substitution key the same: the matrix key is left to show. -/
theorem State.Inv.of_sameVkey (h : s.Inv) (hm : t.MkeyInv) (hv : SameVkey s t) (hr : t.RestInv) :
    t.Inv :=
  t.inv_iff.2 ⟨hm, (s.inv_iff.1 h).2.1.of_same hv, hr⟩

/-- The matrix key the same: the substitution key is left to show. -/
theorem State.Inv.of_sameMkey (h : s.Inv) (hm : SameMkey s t) (hv : t.VkeyInv) (hr : t.RestInv) :
    t.Inv :=
  t.inv_iff.2 ⟨(s.inv_iff.1 h).1.of_same hm, hv, hr⟩

end

/-! Buffers. -/

theorem bufferOk_nil (cap : Nat) : BufferOk [] cap := ⟨rfl, rfl⟩

theorem bufferOk_ofBytes {cap : Nat} {bs : List Byte} (h : bs.length ≤ cap) :
    BufferOk (Memory.ofBytes 0 bs) cap :=
  ⟨Memory.wf_ofBytes bs 0, Memory.below_ofBytes cap bs 0 (by omega)⟩

theorem BufferOk.storeList {m : Memory} {cap a : Nat} {bs : List Byte} (h : BufferOk m cap)
    (hfit : a + bs.length ≤ cap) : BufferOk (Memory.storeList m a bs) cap :=
  ⟨Memory.wf_storeList bs m a h.wf, Memory.below_storeList cap bs m a h.below hfit⟩

/-! The operations. -/

theorem vecZero_lt : ∀ i : Fin 3, ((Vec.zero : Vec Residue).get i).toNat < 26 := by decide

theorem ErrCode.code_le (e : ErrCode) : e.code.toNat ≤ 8 := by cases e <;> decide

section
variable {s : State} (h : s.Inv)
include h

/-- `Inv` reads none of these fields. -/
theorem State.Inv.unread (kin : Mat Word) (vin : Vec Word) (pending : Option Word) (draws : Nat)
    (bus : Option BusAnswer) (reads : List (String × Word)) (host : List HostOp)
    (turns : List Agent) :
    State.Inv { s with kin, vin, pending, draws, bus, reads, host, turns } :=
  h.of_same (SameMkey.refl s) (SameVkey.refl s) { h with }

theorem State.Inv.withDraws (d : Nat) : (s.withDraws d).Inv := h.unread ..

theorem State.Inv.takePending : s.takePending.Inv := h.unread ..

theorem State.Inv.popHost : s.popHost.Inv := h.unread ..

theorem State.Inv.answer (a : BusAnswer) : (s.answer a).Inv := h.unread ..

theorem State.Inv.raise (e : ErrCode) (info : Word) : (s.raise e info).Inv :=
  h.of_same (SameMkey.refl s) (SameVkey.refl s) { h with err := e.code_le }

theorem State.Inv.complete (result : Word) : (s.complete result).Inv :=
  h.of_same (SameMkey.refl s) (SameVkey.refl s) { h with err := Nat.zero_le _ }

theorem State.Inv.completeKeep : s.completeKeep.Inv := h.complete s.result

theorem State.Inv.textOut {bs : List Byte} (hbs : bs.length ≤ Config.textMax) :
    (s.textOut bs).Inv :=
  h.of_same (SameMkey.refl s) (SameVkey.refl s)
    { h with
      tlen := by rw [State.textOut_tlen, BitVec.toNat_ofNat]; exact (Nat.mod_le _ _).trans hbs
      txt := bufferOk_ofBytes hbs }

theorem State.Inv.setVout {v : List Nat} (hv : ∀ x ∈ v, x < 26) : (s.setVout v).Inv := by
  have hget : ∀ i, (BitVec.ofNat 5 (v.getD i 0)).toNat < 26 := fun i => by
    have hi : v.getD i 0 < 26 := by
      rw [List.getD_eq_getElem?_getD]
      cases hx : v[i]? with
      | none => decide
      | some x => exact hv x (List.mem_of_getElem? hx)
    rw [BitVec.toNat_ofNat]
    omega
  refine h.of_same (SameMkey.refl s) (SameVkey.refl s) { h with vout := fun i => ?_ }
  fin_cases i
  exacts [hget 0, hget 1, hget 2]

theorem State.Inv.clearMkey : s.clearMkey.Inv :=
  h.of_sameVkey (.of_absent rfl ⟨rfl, rfl, rfl, rfl, rfl⟩) (SameVkey.refl s) { h with }

theorem State.Inv.clearVkey : s.clearVkey.Inv :=
  h.of_sameMkey (SameMkey.refl s) (.of_absent rfl rfl) { h with }

theorem State.Inv.clearRegisters : s.clearRegisters.Inv :=
  (State.inv_iff _).2 ⟨.of_absent rfl ⟨rfl, rfl, rfl, rfl, rfl⟩, .of_absent rfl rfl,
    { h with
      tlen := Nat.zero_le _, vklen := Nat.zero_le _, err := Nat.zero_le _, vout := vecZero_lt }⟩

theorem State.Inv.installMkey {rows cols : Nat} {kin : Mat Word} {key : MatrixKey}
    (hkey : mkeyEval rows cols kin = .ok key) : (s.installMkey key).Inv :=
  h.of_sameVkey (.of_loaded rfl (mkeyLoaded_installMkey hkey s)) (SameVkey.refl s) { h with }

/-- The offsets of a nonempty raw key that fits its buffer (R181). -/
theorem State.Inv.installVkey {raw : List Byte} (hne : keyOffsets raw ≠ [])
    (hraw : raw.length ≤ Config.vkeyMax) : (s.installVkey (keyOffsets raw)).Inv := by
  have hcap := vkeyMax_bounds
  have hlen := keyOffsets_length raw
  have hpos := List.length_pos_iff.2 hne
  have hoff : (s.installVkey (keyOffsets raw)).vofflen.toNat = (keyOffsets raw).length := by
    rw [State.installVkey_vofflen, BitVec.toNat_ofNat]
    omega
  have hloaded : (s.installVkey (keyOffsets raw)).VkeyLoaded := by
    constructor <;> rw [hoff]
    · exact hpos
    · omega
    · intro a ha
      have hres := keyOffsets_lt raw _ (List.getElem_mem ha)
      refine ⟨_, lookup_installVkey s _ a ha, ?_⟩
      rw [BitVec.toNat_ofNat]
      omega
  exact h.of_sameMkey (SameMkey.refl s) (.of_loaded rfl hloaded)
    { h with voff := h.voff.storeList (by rw [List.length_map]; omega) }

end

/-- The reset input leaves a state that meets the invariant, whatever it was before. -/
theorem State.inv_resetInput (s : State) : s.resetInput.Inv :=
  (State.inv_iff _).2 ⟨.of_absent rfl ⟨rfl, rfl, rfl, rfl, rfl⟩, .of_absent rfl rfl,
    ⟨Nat.zero_le _, Nat.zero_le _, Nat.zero_le _, vecZero_lt, bufferOk_nil _, bufferOk_nil _,
      bufferOk_nil _⟩⟩

end Sys2Proof.Machine
end

section
/-! SUPPORT. Every command keeps the invariant, and with it every turn of the core. A text command
needs that the text it writes fits `TXT`: padding stays within a capacity that is a multiple of 12. -/

namespace Sys2Proof.Machine

/-- If the outcome is a next state, that state meets the invariant. -/
def OutcomeInv (o : Host.Outcome State Fault Refusal) : Prop := ∀ t, o = .next t → t.Inv

theorem outcomeInv_next {t : State} (h : t.Inv) : OutcomeInv (.next t) := by
  rintro _ ⟨⟩
  exact h

theorem outcomeInv_fault (r : Fault) : OutcomeInv (.fault r) := nofun

/-! How long the texts are. -/

theorem normalizeText_length_le (t : List Byte) : (normalizeText t).length ≤ t.length := by
  induction t with
  | nil => exact le_rfl
  | cons b bs ih =>
    simp only [normalizeText]
    split <;> simp only [List.length_cons] <;> omega

theorem pad_length (t : List Byte) (n : Nat) :
    (pad t n).length = t.length + (n - t.length % n) % n := by
  simp [pad]

/-- Padding does not pass a capacity that is a multiple of the order (R159, R163). -/
theorem pad_length_le {t : List Byte} {n : Nat} (hn : n = 2 ∨ n = 3)
    (ht : t.length ≤ Config.textMax) : (pad t n).length ≤ Config.textMax := by
  have hcap := textMax_bounds
  rw [pad_length]
  rcases hn with rfl | rfl <;> omega

theorem State.hillEnc_length_le {s : State} (hn : s.order = 2 ∨ s.order = 3) {text : List Byte}
    (ht : text.length ≤ Config.textMax) : (s.hillEnc text).length ≤ Config.textMax :=
  (hillBlocks_length_le s.k s.order hn _).trans
    (pad_length_le hn ((normalizeText_length_le text).trans ht))

theorem vigEnc_normalize_length_le (o : List Nat) (t : List Byte) :
    (vigEnc o (normalizeText t)).length ≤ t.length :=
  (vigRun_length .enc o 0 _).trans_le (normalizeText_length_le t)

theorem vigDec_normalize_length_le (o : List Nat) (t : List Byte) :
    (vigDec o (normalizeText t)).length ≤ t.length :=
  (vigRun_length .dec o 0 _).trans_le (normalizeText_length_le t)

section
variable {s : State} (h : s.Inv)
include h

theorem State.Inv.textIn_fits : s.textIn.1.length ≤ Config.textMax := s.textIn_length ▸ h.tlen

theorem State.Inv.keyIn_fits : s.keyIn.1.length ≤ Config.vkeyMax := s.keyIn_length ▸ h.vklen

theorem State.Inv.textIn : s.textIn.2.Inv := h.withDraws _

theorem State.Inv.offsets : s.offsets.2.Inv := h.withDraws _

/-- The commands that only report: NOP, CENC, CDEC, GCD, MINV26, MAC26. -/
theorem execReport_inv {i : Instr}
    (hi : i = .nop ∨ (∃ b, i = .cenc b) ∨ (∃ b, i = .cdec b) ∨ (∃ a b, i = .gcd a b) ∨
      (∃ b, i = .minv26 b) ∨ (∃ a b c, i = .mac26 a b c)) : OutcomeInv (exec i s) := by
  rcases execReport_cases i s hi with he | ⟨w, he⟩ | ⟨e, w, he⟩ <;> rw [he]
  · exact outcomeInv_next h.completeKeep
  · exact outcomeInv_next (h.complete w)
  · exact outcomeInv_next (h.raise e w)

theorem execClr_inv : OutcomeInv (execClr s) := outcomeInv_next (h.clearRegisters.complete 0)

theorem execVshift_inv (p v : Nat) (dir : Dir) : OutcomeInv (exec (.vshift p v dir) s) := by
  rcases execVshift_cases p v dir s with ⟨d, w, he⟩ | ⟨e, w, he⟩ <;> rw [he]
  · exact outcomeInv_next ((h.withDraws d).complete w)
  · exact outcomeInv_next (h.raise e w)

theorem execMvmul_inv (sel : KeySel) : OutcomeInv (exec (.mvmul sel) s) := by
  rcases execMvmul_cases sel s with ⟨v, w, he⟩ | ⟨e, w, he⟩ <;> rw [he]
  · exact outcomeInv_next ((h.setVout (mvmul_lt _ v _)).complete w)
  · exact outcomeInv_next (h.raise e w)

theorem execMkey_inv (r c : Nat) : OutcomeInv (exec (.mkey r c) s) := by
  rcases execMkey_cases r c s with ⟨e, w, he⟩ | ⟨key, w, hkey, he⟩ <;> rw [he]
  · exact outcomeInv_next (h.clearMkey.raise e w)
  · exact outcomeInv_next ((h.installMkey hkey).complete w)

theorem execVkey_inv : OutcomeInv (exec .vkey s) := by
  obtain ⟨d, ⟨e, w, he⟩ | ⟨w, hne, he⟩⟩ := execVkey_cases s <;> rw [he]
  · exact outcomeInv_next ((h.withDraws d).clearVkey.raise e w)
  · exact outcomeInv_next (((h.withDraws d).installVkey hne h.keyIn_fits).complete w)

theorem execPbuild_inv (r c : Nat) : OutcomeInv (exec (.pbuild r c) s) := by
  obtain ⟨d, ⟨e, w, he⟩ | ⟨key, w, hkey, hne, he⟩⟩ := execPbuild_cases r c s <;> rw [he]
  · exact outcomeInv_next ((h.withDraws d).clearMkey.clearVkey.raise e w)
  · exact outcomeInv_next
      ((((h.withDraws d).installMkey hkey).installVkey hne h.keyIn_fits).complete w)

theorem execNorm_inv : OutcomeInv (execNorm s) :=
  outcomeInv_next
    ((h.textIn.textOut ((normalizeText_length_le _).trans h.textIn_fits)).complete _)

theorem execHenc_inv : OutcomeInv (execHenc s) := by
  unfold execHenc
  split
  · next hv =>
    exact outcomeInv_next
      ((h.textIn.textOut (s.hillEnc_length_le (h.mkey hv).order h.textIn_fits)).complete _)
  · exact outcomeInv_next (h.raise _ _)

theorem execHdec_inv : OutcomeInv (execHdec s) := by
  unfold execHdec
  split
  · next hv =>
    have hfit := ((hillBlocks_length_le s.ki s.order (h.mkey hv).order _).trans
      (normalizeText_length_le _)).trans h.textIn_fits
    dsimp only
    split
    · exact outcomeInv_next ((h.textIn.textOut hfit).complete _)
    · exact outcomeInv_next (h.textIn.raise _ _)
  · exact outcomeInv_next (h.raise _ _)

theorem execVenc_inv : OutcomeInv (execVenc s) := by
  unfold execVenc
  split
  · exact outcomeInv_next ((h.textIn.offsets.textOut
      ((vigEnc_normalize_length_le _ _).trans h.textIn_fits)).complete _)
  · exact outcomeInv_next (h.raise _ _)

theorem execVdec_inv : OutcomeInv (execVdec s) := by
  unfold execVdec
  split
  · exact outcomeInv_next ((h.textIn.offsets.textOut
      ((vigDec_normalize_length_le _ _).trans h.textIn_fits)).complete _)
  · exact outcomeInv_next (h.raise _ _)

/-- A valid pipeline has a matrix key of order 2 or 3. -/
theorem State.Inv.order_of_pipeValid (hv : s.pipeValid = true) : s.order = 2 ∨ s.order = 3 :=
  (h.mkey (Bool.and_elim_left hv)).order

theorem execPenc_inv : OutcomeInv (execPenc s) := by
  unfold execPenc
  split
  · next hv =>
    exact outcomeInv_next ((h.textIn.offsets.textOut ((vigEnc_normalize_length_le _ _).trans
      (s.hillEnc_length_le (h.order_of_pipeValid hv) h.textIn_fits))).complete _)
  · exact outcomeInv_next (h.raise _ _)

theorem execPdec_inv : OutcomeInv (execPdec s) := by
  unfold execPdec
  split
  · next hv =>
    have hfit := fun o => ((hillBlocks_length_le s.ki s.order (h.order_of_pipeValid hv) _).trans
      (vigDec_normalize_length_le o _)).trans h.textIn_fits
    dsimp only
    split
    · exact outcomeInv_next ((h.textIn.offsets.textOut (hfit _)).complete _)
    · exact outcomeInv_next (h.textIn.offsets.raise _ _)
  · exact outcomeInv_next (h.raise _ _)

theorem execText_inv {i : Instr} (hi : WritesText i) : OutcomeInv (exec i s) := by
  rcases hi with rfl | rfl | rfl | rfl | rfl | rfl | rfl
  exacts [execNorm_inv h, execHenc_inv h, execHdec_inv h, execVenc_inv h, execVdec_inv h,
    execPenc_inv h, execPdec_inv h]

theorem exec_inv (i : Instr) : OutcomeInv (exec i s) := by
  rcases instr_families i with hi | rfl | ⟨p, v, dir, rfl⟩ | ⟨sel, rfl⟩ | ⟨r, c, rfl⟩ | rfl |
    ⟨r, c, rfl⟩ | hi
  exacts [execReport_inv h hi, execClr_inv h, execVshift_inv h p v dir, execMvmul_inv h sel,
    execMkey_inv h r c, execVkey_inv h, execPbuild_inv h r c, execText_inv h hi]

/-- The core's turn: nothing, the pending command, or an illegal word's error (R83, R85). -/
theorem coreTurn_inv : OutcomeInv (coreTurn s) := by
  unfold coreTurn
  split
  · exact outcomeInv_next h
  · split
    · exact exec_inv h.takePending _
    · exact outcomeInv_next (h.takePending.raise _ _)

end

end Sys2Proof.Machine
end

section
/-! SUPPORT. The host's turn keeps the invariant: a write reaches only a buffer word inside its
capacity, a length only a value up to it. -/

namespace Sys2Proof.Machine

/-- A slot that is a word of `VKB` or `TXT` lies within the buffer. -/
structure Slot.Fits (sl : Slot) : Prop where
  vkb : ∀ w, sl = .vkb w → 4 * w + 4 ≤ Config.vkeyMax
  txt : ∀ w, sl = .txt w → 4 * w + 4 ≤ Config.textMax

theorem fits_ite {p : Prop} [Decidable p] {a b : Slot} (ha : p → a.Fits) (hb : b.Fits) :
    (if p then a else b).Fits := by
  split
  exacts [ha ‹p›, hb]

theorem fits_reserved : Slot.reserved.Fits := ⟨nofun, nofun⟩

theorem fits_singleSlot (w : Nat) : (singleSlot w).Fits :=
  ⟨fun x h => absurd h (singleSlot_not_buffer w x).1,
    fun x h => absurd h (singleSlot_not_buffer w x).2⟩

theorem fits_fileSlot9 {mk : Fin 9 → Slot} (hmk : ∀ i, (mk i).Fits) (w : Nat) :
    (fileSlot9 mk w).Fits := by
  rcases fileSlot9_cases mk w with ⟨i, hi⟩ | hi <;> rw [hi]
  exacts [hmk i, fits_reserved]

theorem fits_fileSlot3 {mk : Fin 3 → Slot} (hmk : ∀ i, (mk i).Fits) (w : Nat) :
    (fileSlot3 mk w).Fits := by
  rcases fileSlot3_cases mk w with ⟨i, hi⟩ | hi <;> rw [hi]
  exacts [hmk i, fits_reserved]

theorem fits_vkb {a : Nat} (h : a < Config.vkeyMax) : (Slot.vkb (a / 4)).Fits := by
  have hcap := vkeyMax_bounds
  refine ⟨?_, nofun⟩
  rintro _ ⟨⟩
  omega

theorem fits_voff (w : Nat) : (Slot.voff w).Fits := ⟨nofun, nofun⟩

theorem fits_txt {a : Nat} (h : a < Config.textMax) : (Slot.txt (a / 4)).Fits := by
  have hcap := textMax_bounds
  refine ⟨nofun, ?_⟩
  rintro _ ⟨⟩
  omega

/-- The words of a buffer that the address map names lie within it, since the capacities are
multiples of 4 (R64, R67). -/
theorem fits_slotAt (o : Nat) : (slotAt o).Fits :=
  fits_ite (fun _ => fits_singleSlot _) <|
  fits_ite (fun _ => fits_fileSlot9 (mk := .kin) (fun _ => ⟨nofun, nofun⟩) _) <|
  fits_ite (fun _ => fits_fileSlot9 (mk := .k) (fun _ => ⟨nofun, nofun⟩) _) <|
  fits_ite (fun _ => fits_fileSlot9 (mk := .ki) (fun _ => ⟨nofun, nofun⟩) _) <|
  fits_ite (fun _ => fits_fileSlot3 (mk := .vin) (fun _ => ⟨nofun, nofun⟩) _) <|
  fits_ite (fun _ => fits_fileSlot3 (mk := .vout) (fun _ => ⟨nofun, nofun⟩) _) <|
  fits_ite (fun _ => fits_reserved) <|
  fits_ite (fun _ => fits_ite fits_vkb fits_reserved) <|
  fits_ite (fun _ => fits_ite (fun _ => fits_voff _) fits_reserved) <|
  fits_ite fits_txt fits_reserved

section
variable {s : State} (h : s.Inv)
include h

theorem writeSlot_inv (v : Word) {sl : Slot} (hsl : sl.Fits) : (writeSlot s v sl).Inv := by
  cases sl <;> simp only [writeSlot]
  case cmd => exact h.unread ..
  case kin => exact h.unread ..
  case vin => exact h.unread ..
  case tlen =>
    split
    · next hle =>
      refine h.of_same (SameMkey.refl s) (SameVkey.refl s) { h with tlen := ?_ }
      rw [BitVec.toNat_ofNat]
      exact (Nat.mod_le _ _).trans hle
    · exact h
  case vklen =>
    split
    · next hle =>
      refine h.of_same (SameMkey.refl s) (SameVkey.refl s) { h with vklen := ?_ }
      rw [BitVec.toNat_ofNat]
      exact (Nat.mod_le _ _).trans hle
    · exact h
  case vkb w =>
    exact h.of_same (SameMkey.refl s) (SameVkey.refl s)
      { h with vkb := h.vkb.storeList (hsl.vkb w rfl) }
  case txt w =>
    exact h.of_same (SameMkey.refl s) (SameVkey.refl s)
      { h with txt := h.txt.storeList (hsl.txt w rfl) }
  all_goals exact h

theorem memRead_inv (off : Word) (name : String) : OutcomeInv (memRead off name s) := by
  unfold memRead
  split
  · exact outcomeInv_fault _
  · exact outcomeInv_next (h.unread ..)

theorem memWrite_inv (off v : Word) : OutcomeInv (memWrite off v s) := by
  unfold memWrite
  split
  · exact outcomeInv_fault _
  · dsimp only
    split
    · exact outcomeInv_next ((writeSlot_inv h v (fits_slotAt _)).answer _)
    · exact outcomeInv_next (h.answer _)

theorem waitRound_inv : OutcomeInv (waitRound s) := by
  unfold waitRound
  split
  · exact outcomeInv_next (h.answer _)
  · exact outcomeInv_next (h.popHost.answer _)

theorem hostTurn_inv : OutcomeInv (hostTurn s) := by
  unfold hostTurn
  split
  · exact outcomeInv_next h
  · exact memRead_inv h.popHost _ _
  · exact memWrite_inv h.popHost _ _
  · exact waitRound_inv h
  · exact outcomeInv_next s.popHost.inv_resetInput

theorem turnOf_inv (a : Agent) : OutcomeInv (turnOf a s) := by
  cases a
  exacts [hostTurn_inv h, coreTurn_inv h]

theorem step_inv : OutcomeInv (step s) := by
  unfold step machineStep
  split
  · exact outcomeInv_fault _
  · exact turnOf_inv (h.unread ..) _

end

/-- Settles O20: each turn of the host or of the core is built of operations that keep `Inv`. -/
theorem stepKeepsInv : Obligations.StepKeepsInv := by
  unfold Obligations.StepKeepsInv
  exact fun s t h ht => step_inv h t ht

end Sys2Proof.Machine
end

section
/-! SUPPORT. Which commands write which key, and the host's own registers: the length registers, `KIN`,
`VIN`, the reads of `VOFF` and the fields of `STATUS` (10_state.md R25 to R46). -/

namespace Sys2Proof.Machine

/-- Settles O25, family by family: a command that writes a key is exempt for that key, and every other
way a command ends writes none of the key's registers. -/
theorem onlyKeyCommandsWriteKeys : Obligations.OnlyKeyCommandsWriteKeys := by
  unfold Obligations.OnlyKeyCommandsWriteKeys
  intro i s
  have hm := SameMkey.refl s
  have hv := SameVkey.refl s
  rcases instr_families i with hi | rfl | ⟨p, v, dir, rfl⟩ | ⟨sel, rfl⟩ | ⟨r, c, rfl⟩ | rfl |
    ⟨r, c, rfl⟩ | hi
  · rcases execReport_cases i s hi with he | ⟨w, he⟩ | ⟨e, w, he⟩ <;>
      exact ⟨_, he, fun _ => hm, fun _ => hv⟩
  · exact ⟨_, rfl, fun h => absurd (.inl rfl) h, fun h => absurd (.inl rfl) h⟩
  · rcases execVshift_cases p v dir s with ⟨d, w, he⟩ | ⟨e, w, he⟩ <;>
      exact ⟨_, he, fun _ => hm, fun _ => hv⟩
  · rcases execMvmul_cases sel s with ⟨v, w, he⟩ | ⟨e, w, he⟩ <;>
      exact ⟨_, he, fun _ => hm, fun _ => hv⟩
  · rcases execMkey_cases r c s with ⟨e, w, he⟩ | ⟨key, w, -, he⟩ <;>
      exact ⟨_, he, fun h => absurd (.inr (.inl ⟨r, c, rfl⟩)) h, fun _ => hv⟩
  · obtain ⟨d, ⟨e, w, he⟩ | ⟨w, -, he⟩⟩ := execVkey_cases s <;>
      exact ⟨_, he, fun _ => hm, fun h => absurd (.inr (.inl rfl)) h⟩
  · obtain ⟨d, ⟨e, w, he⟩ | ⟨key, w, -, -, he⟩⟩ := execPbuild_cases r c s <;>
      exact ⟨_, he, fun h => absurd (.inr (.inr ⟨r, c, rfl⟩)) h,
        fun h => absurd (.inr (.inr ⟨r, c, rfl⟩)) h⟩
  · obtain ⟨d, ⟨bs, he⟩ | ⟨e, w, he⟩⟩ := execText_cases i s hi <;>
      exact ⟨_, he, fun _ => hm, fun _ => hv⟩

/-! `VOFF` as the host reads it. -/

theorem windowOffset_ofNat {o : Nat} (h : o < 0x2000) : windowOffset (BitVec.ofNat 32 o) = o := by
  unfold windowOffset
  rw [BitVec.toNat_ofNat]
  omega

/-- An aligned read gives its slot's value. -/
theorem busRead_aligned (s : State) {o : Nat} (h : o < 0x2000) (ha : o % 4 = 0) :
    (busRead s (BitVec.ofNat 32 o)).1 = (readSlot s (slotAt o)).1 := by
  simp only [busRead, windowOffset_ofNat h, if_pos ha]

/-- Byte `b` of a word of `VOFF` is a byte read at its place, at some count of free values. -/
theorem readVoffWord_byte (s : State) (w d : Nat) {b : Nat} (hb : b < 4) :
    ∃ e, (readVoffWord s w d).1.extractLsb' (8 * b) 8 = (readVoffByte s (4 * w + b) e).1 := by
  simp only [readVoffWord, packWord_byte _ _ _ _ b hb]
  interval_cases b <;> exact ⟨_, rfl⟩

theorem readVoffByte_below {s : State} {a : Nat} (h : a < s.vofflen.toNat) (d : Nat) :
    readVoffByte s a d = Memory.readByte s.voff a d := if_pos h

theorem readVoffByte_beyond {s : State} {a : Nat} (h : s.vofflen.toNat ≤ a) (d : Nat) :
    readVoffByte s a d = (0, d) := if_neg (by omega)

/-- Settles O16: a byte of the word read is one guarded read of `VOFF` (R46, R66). -/
theorem voffReadsZeroBeyondItsLength : Obligations.VoffReadsZeroBeyondItsLength := by
  unfold Obligations.VoffReadsZeroBeyondItsLength
  intro s w b x hw hb
  have hcap := vkeyMax_bounds
  have hread : (busRead s (BitVec.ofNat 32 (0xC00 + 4 * w))).1 = (readVoffWord s w s.draws).1 := by
    rw [busRead_aligned s (by omega) (by omega), slotAt_voff w hw]
    rfl
  obtain ⟨e, he⟩ := readVoffWord_byte s w s.draws hb
  rw [hread, he]
  refine ⟨fun hlt hx => ?_, fun hle => ?_⟩
  · rw [readVoffByte_below hlt, Memory.readByte_some e hx]
  · rw [readVoffByte_beyond hle]

/-! The host's writes. -/

/-- An aligned write with no command pending, in terms of the slot its offset names. -/
theorem memWrite_slot {s : State} (hp : s.pending = none) (v : Word) {o : Nat} {sl : Slot}
    (h : o < 0x2000) (ha : o % 4 = 0) (hsl : slotAt o = sl) :
    memWrite (BitVec.ofNat 32 o) v s = .next ((writeSlot s v sl).answer (.written false)) := by
  have hb : s.busy = false := by rw [State.busy, hp]; rfl
  rw [memWrite_idle s _ v hb (by rw [windowOffset_ofNat h]; exact ha), windowOffset_ofNat h, hsl]
  rfl

section
variable {s : State} (hp : s.pending = none) (v : Word)
include hp

/-- A write to `TLEN` (R37). -/
theorem memWrite_tlen : ∃ t, memWrite 0x01C v s = .next t ∧
    t = { s with tlen := t.tlen, bus := some (.written false) } ∧
    t.tlen.toNat = if v.toNat ≤ Config.textMax then v.toNat else s.tlen.toNat := by
  refine ⟨_, memWrite_slot hp v (o := 0x01C) (by decide) (by decide) (sl := .tlen) rfl, ?_⟩
  have hcap := textMax_bounds
  simp only [writeSlot]
  split
  · refine ⟨rfl, ?_⟩
    rw [State.answer_tlen, BitVec.toNat_ofNat]
    omega
  · exact ⟨rfl, rfl⟩

/-- A write to `VKLEN` (R38). -/
theorem memWrite_vklen : ∃ t, memWrite 0x020 v s = .next t ∧
    t = { s with vklen := t.vklen, bus := some (.written false) } ∧
    t.vklen.toNat = if v.toNat ≤ Config.vkeyMax then v.toNat else s.vklen.toNat := by
  refine ⟨_, memWrite_slot hp v (o := 0x020) (by decide) (by decide) (sl := .vklen) rfl, ?_⟩
  have hcap := vkeyMax_bounds
  simp only [writeSlot]
  split
  · refine ⟨rfl, ?_⟩
    rw [State.answer_vklen, BitVec.toNat_ofNat]
    omega
  · exact ⟨rfl, rfl⟩

/-- A write to an element of `KIN`, and its read back (R40). -/
theorem memWrite_kin (idx : Fin 9) :
    ∃ t, memWrite (BitVec.ofNat 32 (0x040 + 4 * idx.val)) v s = .next t ∧
      t = { s with kin := t.kin, bus := some (.written false) } ∧
      (∀ j, t.kin.get j = if j = idx then v else s.kin.get j) ∧
      (busRead t (BitVec.ofNat 32 (0x040 + 4 * idx.val))).1 = v := by
  have hslot := slotAt_kin idx
  refine ⟨_, memWrite_slot hp v (by omega) (by omega) hslot, rfl,
    fun j => Mat.get_set s.kin idx j v, ?_⟩
  rw [busRead_aligned _ (by omega) (by omega), hslot]
  exact (Mat.get_set s.kin idx idx v).trans (if_pos rfl)

/-- A write to an element of `VIN`, and its read back (R43). -/
theorem memWrite_vin (idx : Fin 3) :
    ∃ t, memWrite (BitVec.ofNat 32 (0x100 + 4 * idx.val)) v s = .next t ∧
      t = { s with vin := t.vin, bus := some (.written false) } ∧
      (∀ j, t.vin.get j = if j = idx then v else s.vin.get j) ∧
      (busRead t (BitVec.ofNat 32 (0x100 + 4 * idx.val))).1 = v := by
  have hslot := slotAt_vin idx
  refine ⟨_, memWrite_slot hp v (by omega) (by omega) hslot, rfl,
    fun j => Vec.get_set s.vin idx j v, ?_⟩
  rw [busRead_aligned _ (by omega) (by omega), hslot]
  exact (Vec.get_set s.vin idx idx v).trans (if_pos rfl)

end

/-- Settles O17: one lemma for each of the four registers. -/
theorem hostRegisterWrites : Obligations.HostRegisterWrites := by
  unfold Obligations.HostRegisterWrites
  exact fun s v hp =>
    ⟨memWrite_tlen hp v, memWrite_vklen hp v, memWrite_kin hp v, memWrite_vin hp v⟩

/-! `STATUS`. -/

/-- Bit `i` of a word, from the word's number. -/
theorem getLsbD_eq_of_toNat {n : Nat} (w : BitVec n) (i : Nat) (b : Bool)
    (h : w.toNat / 2 ^ i % 2 = b.toNat) : w.getLsbD i = b := by
  rw [BitVec.getLsbD, Nat.testBit_eq_decide_div_mod_eq, h]
  cases b <;> rfl

/-- Settles O7: each field is read off the number of the word (R25). -/
theorem statusLayout : Obligations.StatusLayout := by
  unfold Obligations.StatusLayout
  intro s
  have hnum := s.statusWord_toNat
  have hn := s.n.isLt
  have herr := s.err.isLt
  have hp := s.pipeValid.toNat_lt
  have hv := s.vkeyValid.toNat_lt
  have hm := s.mkeyValid.toNat_lt
  have hb := s.busy.toNat_lt
  refine ⟨getLsbD_eq_of_toNat _ 0 s.busy (by omega), getLsbD_eq_of_toNat _ 1 _ (by omega),
    getLsbD_eq_of_toNat _ 2 _ (by omega), getLsbD_eq_of_toNat _ 3 s.pipeValid (by omega),
    BitVec.eq_of_toNat_eq ?_, BitVec.eq_of_toNat_eq ?_, BitVec.eq_of_toNat_eq ?_⟩ <;>
    rw [BitVec.extractLsb'_toNat, Nat.shiftRight_eq_div_pow]
  · omega
  · omega
  · show _ = 0; omega

end Sys2Proof.Machine
end

section
/-! SUPPORT. The host's transactions by offset: which offsets a slot of the address map can stand at
(20_memory.md R67), the offsets where a write is ignored or a read gives 0 (R64, R65), and the words
of `TXT` and `VKB` (R63, R66). -/

namespace Sys2Proof.Machine

/-! The address map, read backwards. -/

/-- Slot `sl` may stand at offset `o`: the rows of R67 by word index, a buffer word within its
capacity. Reserved space is what no row names, so nothing is asked of it. Irreducible, so that no
defeq check computes with the offsets. -/
@[irreducible] def Slot.StandsAt (o : Nat) : Slot → Prop
  | .id => o / 4 = 0
  | .cmd => o / 4 = 1
  | .status => o / 4 = 2
  | .result => o / 4 = 3
  | .errinfo => o / 4 = 4
  | .det => o / 4 = 5
  | .detinv => o / 4 = 6
  | .tlen => o / 4 = 7
  | .vklen => o / 4 = 8
  | .vofflen => o / 4 = 9
  | .params => o / 4 = 10
  | .kin idx => o / 4 = 0x040 / 4 + idx.val
  | .k idx => o / 4 = 0x080 / 4 + idx.val
  | .ki idx => o / 4 = 0x0C0 / 4 + idx.val
  | .vin idx => o / 4 = 0x100 / 4 + idx.val
  | .vout idx => o / 4 = 0x110 / 4 + idx.val
  | .vkb w => o / 4 = 0x800 / 4 + w ∧ 4 * w < Config.vkeyMax
  | .voff w => o / 4 = 0xC00 / 4 + w ∧ 4 * w < Config.vkeyMax
  | .txt w => o / 4 = 0x1000 / 4 + w ∧ 4 * w < Config.textMax
  | .reserved => True

theorem reserved_standsAt (o : Nat) : Slot.reserved.StandsAt o := by
  simp only [Slot.StandsAt]

theorem singleSlot_standsAt (o : Nat) : (singleSlot (o / 4)).StandsAt o := by
  unfold singleSlot
  split <;> simp only [Slot.StandsAt] <;> assumption

theorem fileSlot9_standsAt {mk : Fin 9 → Slot} {o w : Nat}
    (h : ∀ i : Fin 9, w = i.val → (mk i).StandsAt o) : (fileSlot9 mk w).StandsAt o := by
  unfold fileSlot9
  split
  exacts [h _ rfl, reserved_standsAt o]

theorem fileSlot3_standsAt {mk : Fin 3 → Slot} {o w : Nat}
    (h : ∀ i : Fin 3, w = i.val → (mk i).StandsAt o) : (fileSlot3 mk w).StandsAt o := by
  unfold fileSlot3
  split
  exacts [h _ rfl, reserved_standsAt o]

/-- What an offset names stands there: the branches of the map, one by one (R67). -/
theorem slotAt_standsAt (o : Nat) : (slotAt o).StandsAt o := by
  unfold slotAt
  split
  · exact singleSlot_standsAt o
  iterate 3
    split
    · exact fileSlot9_standsAt fun _ _ => by simp only [Slot.StandsAt]; omega
  iterate 2
    split
    · exact fileSlot3_standsAt fun _ _ => by simp only [Slot.StandsAt]; omega
  split
  · exact reserved_standsAt o
  iterate 2
    split
    · split
      · simp only [Slot.StandsAt]; omega
      · exact reserved_standsAt o
  split
  · simp only [Slot.StandsAt]; omega
  · exact reserved_standsAt o

/-! Transactions with no command pending, by the slot the offset names. -/

theorem State.busy_of_pending {s : State} (hp : s.pending = none) : s.busy = false := by
  rw [State.busy, hp]; rfl

/-- An aligned read answers with its slot's value and count of free values. -/
theorem memRead_slot {s : State} (hp : s.pending = none) (name : String) {off : Word} {sl : Slot}
    {v : Word} {d : Nat} (ha : windowOffset off % 4 = 0) (hsl : slotAt (windowOffset off) = sl)
    (hv : readSlot s sl = (v, d)) :
    memRead off name s = .next { s with
      draws := d, bus := some (.read v false), reads := s.reads ++ [(name, v)] } := by
  have hr : busRead s off = (v, false, d) := by simp only [busRead, if_pos ha, hsl, hv]
  rw [memRead_idle s off name (State.busy_of_pending hp), hr]

/-! Ignored writes and reads of 0. -/

/-- The offsets of the read-only registers, of `VOFF` and of reserved space (R64, R65). -/
def IgnoresWrites (o : Nat) : Prop :=
  o ∈ [0x000, 0x008, 0x00C, 0x010, 0x014, 0x018, 0x024, 0x028] ∨
  (0x02C ≤ o ∧ o < 0x040) ∨
  (0x064 ≤ o ∧ o < 0x100) ∨
  (0x10C ≤ o ∧ o < 0x800) ∨
  (0x800 + Config.vkeyMax ≤ o ∧ o < 0x1000) ∨
  0x1000 + Config.textMax ≤ o

/-- The offset of `CMD` and the reserved offsets (R64, R65). -/
def ReadsZero (o : Nat) : Prop :=
  o = 0x004 ∨
  (0x02C ≤ o ∧ o < 0x040) ∨
  (0x064 ≤ o ∧ o < 0x080) ∨
  (0x0A4 ≤ o ∧ o < 0x0C0) ∨
  (0x0E4 ≤ o ∧ o < 0x100) ∨
  (0x10C ≤ o ∧ o < 0x110) ∨
  (0x11C ≤ o ∧ o < 0x800) ∨
  (0x800 + Config.vkeyMax ≤ o ∧ o < 0xC00) ∨
  (0xC00 + Config.vkeyMax ≤ o ∧ o < 0x1000) ∨
  0x1000 + Config.textMax ≤ o

/-- None of the slots a write changes stands at such an offset. -/
theorem writeSlot_of_ignoresWrites {o : Nat} (h : IgnoresWrites o) (s : State) (v : Word) :
    writeSlot s v (slotAt o) = s := by
  have hk := vkeyMax_bounds
  have ht := textMax_bounds
  have hat := slotAt_standsAt o
  simp only [IgnoresWrites, List.mem_cons, List.not_mem_nil, or_false] at h
  cases hsl : slotAt o <;> simp only [hsl, Slot.StandsAt] at hat
  case cmd | tlen | vklen | kin | vin | vkb | txt => omega
  all_goals rfl

/-- Such an offset names `CMD` or reserved space. -/
theorem slotAt_of_readsZero {o : Nat} (h : ReadsZero o) :
    slotAt o = .cmd ∨ slotAt o = .reserved := by
  have hk := vkeyMax_bounds
  have ht := textMax_bounds
  have hat := slotAt_standsAt o
  unfold ReadsZero at h
  cases hsl : slotAt o <;> simp only [hsl, Slot.StandsAt] at hat
  case cmd => exact .inl rfl
  case reserved => exact .inr rfl
  all_goals omega

theorem readSlot_of_readsZero {o : Nat} (h : ReadsZero o) (s : State) :
    readSlot s (slotAt o) = (0, s.draws) := by
  rcases slotAt_of_readsZero h with hsl | hsl <;> rw [hsl] <;> rfl

/-- A multiple of 4 is still one in the window. -/
theorem windowOffset_aligned {off : Word} (h : off.toNat % 4 = 0) : windowOffset off % 4 = 0 := by
  unfold windowOffset
  omega

/-- Settles O14: the slots such offsets can name ignore the write, or read as 0 (R64, R65). -/
theorem readOnlyAndReservedOffsets : Obligations.ReadOnlyAndReservedOffsets := by
  unfold Obligations.ReadOnlyAndReservedOffsets
  intro s off v name hp ha
  have haw := windowOffset_aligned ha
  refine ⟨fun (h : IgnoresWrites (windowOffset off)) => ?_,
    fun (h : ReadsZero (windowOffset off)) => ?_⟩
  · rw [memWrite_idle s off v (State.busy_of_pending hp) haw, writeSlot_of_ignoresWrites h]
  · exact memRead_slot hp name haw rfl (readSlot_of_readsZero h s)

/-! Words of `TXT` and `VKB`. -/

/-- A word write leaves the bytes of the other words (R66). -/
theorem Memory.lookup_storeWord_other (m : Memory) (w : Nat) (v : Word) {a : Nat}
    (ha : a < 4 * w ∨ 4 * w + 4 ≤ a) :
    Memory.lookup (Memory.storeList m (4 * w) (unpackWord v)) a = Memory.lookup m a := by
  rw [Memory.lookup_storeList, if_neg]
  simp only [unpackWord, List.length_cons, List.length_nil]
  omega

section
variable {s : State} (hp : s.pending = none) (name : String) {w : Nat}
include hp

/-- A read at an offset given by its number. -/
theorem memRead_ofNat {o : Nat} {sl : Slot} {v : Word} {d : Nat} (h : o < 0x2000) (ha : o % 4 = 0)
    (hsl : slotAt o = sl) (hv : readSlot s sl = (v, d)) :
    memRead (BitVec.ofNat 32 o) name s = .next { s with
      draws := d, bus := some (.read v false), reads := s.reads ++ [(name, v)] } := by
  rw [← windowOffset_ofNat h] at ha hsl
  exact memRead_slot hp name ha hsl hv

/-- A read of word `w` of `TXT`, what its bytes pack to being known (R66). -/
theorem memRead_txt (hw : 4 * w < Config.textMax) {v : Word} {d : Nat}
    (hv : readPacked s.txt w s.draws = (v, d)) :
    memRead (BitVec.ofNat 32 (0x1000 + 4 * w)) name s = .next { s with
      draws := d, bus := some (.read v false), reads := s.reads ++ [(name, v)] } := by
  have hcap := textMax_bounds
  exact memRead_ofNat hp name (by omega) (by omega) (slotAt_txt w hw) hv

/-- A read of word `w` of `VKB`, what its bytes pack to being known (R66). -/
theorem memRead_vkb (hw : 4 * w < Config.vkeyMax) {v : Word} {d : Nat}
    (hv : readPacked s.vkb w s.draws = (v, d)) :
    memRead (BitVec.ofNat 32 (0x800 + 4 * w)) name s = .next { s with
      draws := d, bus := some (.read v false), reads := s.reads ++ [(name, v)] } := by
  have hcap := vkeyMax_bounds
  exact memRead_ofNat hp name (by omega) (by omega) (slotAt_vkb w hw) hv

/-- A write to word `w` of `TXT` stores the word's four bytes (R66). -/
theorem memWrite_txt (v : Word) (hw : 4 * w < Config.textMax) :
    memWrite (BitVec.ofNat 32 (0x1000 + 4 * w)) v s = .next { s with
      txt := Memory.storeList s.txt (4 * w) (unpackWord v), bus := some (.written false) } := by
  have hcap := textMax_bounds
  exact memWrite_slot hp v (by omega) (by omega) (slotAt_txt w hw)

/-- A write to word `w` of `VKB` stores the word's four bytes (R66). -/
theorem memWrite_vkb (v : Word) (hw : 4 * w < Config.vkeyMax) :
    memWrite (BitVec.ofNat 32 (0x800 + 4 * w)) v s = .next { s with
      vkb := Memory.storeList s.vkb (4 * w) (unpackWord v), bus := some (.written false) } := by
  have hcap := vkeyMax_bounds
  exact memWrite_slot hp v (by omega) (by omega) (slotAt_vkb w hw)

end

/-- Settles O15: a word written is four bytes stored, and a word read is four bytes packed. -/
theorem bufferWordWriteSetsItsBytes : Obligations.BufferWordWriteSetsItsBytes := by
  unfold Obligations.BufferWordWriteSetsItsBytes
  refine ⟨fun s w v name hp => ⟨fun hw => ?_, fun hw => ?_⟩,
    fun s w name hp => ⟨fun hw => ?_, fun hw => ?_⟩⟩
  · refine ⟨_, memWrite_txt hp v hw, rfl, Memory.lookup_storeWord s.txt w v,
      fun a => Memory.lookup_storeWord_other s.txt w v, ?_⟩
    refine memRead_txt ?_ name hw ?_
    · exact hp
    · exact readPacked_storeWord s.txt w v s.draws
  · refine ⟨_, memWrite_vkb hp v hw, rfl, Memory.lookup_storeWord s.vkb w v,
      fun a => Memory.lookup_storeWord_other s.vkb w v, ?_⟩
    refine memRead_vkb ?_ name hw ?_
    · exact hp
    · exact readPacked_storeWord s.vkb w v s.draws
  · exact ⟨_, _, memRead_txt hp name hw rfl, fun b x => readPacked_byte s.txt w s.draws b x⟩
  · exact ⟨_, _, memRead_vkb hp name hw rfl, fun b x => readPacked_byte s.vkb w s.draws b x⟩

end Sys2Proof.Machine
end

section
/-! SUPPORT. Encoding and decoding (30_encoding.md): a word meets a row of the opcode map exactly
when it is the layout of its own fields, so decoding and encoding are inverse to each other (R83,
R86), and a layout is its fields or-ed into the opcode byte (R91). Then the core's turn on a pending
word (R83) and the write that issues one (R84). -/

namespace Sys2Proof

/-! The one-bit operands. -/

theorem selOfBit_selBit (sel : KeySel) : selOfBit (selBit sel).toNat = sel := by
  cases sel <;> rfl

theorem dirOfBit_dirBit (dir : Dir) : dirOfBit (dirBit dir).toNat = dir := by
  cases dir <;> rfl

theorem selBit_selOfBit {b : Nat} (h : b < 2) : (selBit (selOfBit b)).toNat = b := by
  interval_cases b <;> rfl

theorem dirBit_dirOfBit {b : Nat} (h : b < 2) : (dirBit (dirOfBit b)).toNat = b := by
  interval_cases b <;> rfl

theorem wordField_lt (w : Word) (lo len : Nat) : wordField w lo len < 2 ^ len :=
  Nat.mod_lt _ (Nat.two_pow_pos len)

/-! What it means for a word to meet a row, on the word's number. A row's pattern is its opcode byte
above zeros, the word of format N. -/

/-- For a mask of all bits from `k` up: 0 stands between the opcode byte and bit `k`. -/
theorem meets_highMask_iff (w : Word) (opc : BitVec 8) {k : Nat} (hk : k ≤ 24) :
    w &&& BitVec.ofNat 32 (2 ^ 32 - 2 ^ k) = layoutN opc ↔
      w.toNat / 2 ^ k = opc.toNat * 2 ^ (24 - k) := by
  have hlt : w.toNat / 2 ^ k * 2 ^ k < 2 ^ 32 := (Nat.div_mul_le_self _ _).trans_lt w.isLt
  rw [and_highMask w k (by omega), ← BitVec.toNat_inj, layoutN_toNat, BitVec.toNat_ofNat,
    Nat.mod_eq_of_lt hlt, ← Nat.sub_add_cancel hk, Nat.pow_add, ← Nat.mul_assoc,
    Nat.add_sub_cancel, Nat.mul_left_inj (Nat.two_pow_pos k).ne']

/-- For the mask of format V: the opcode byte, and 0 in bits [7:6]. -/
theorem meets_maskV_iff (w : Word) (opc : BitVec 8) :
    w &&& maskV = layoutN opc ↔ w.toNat / 2 ^ 24 = opc.toNat ∧ w.toNat / 2 ^ 6 % 2 ^ 2 = 0 := by
  have htop : (layoutN opc).extractLsb' 24 8 = opc := by
    apply BitVec.eq_of_toNat_eq
    rw [BitVec.extractLsb'_toNat, layoutN_toNat, Nat.shiftRight_eq_div_pow]
    omega
  have hw := w.isLt
  rw [and_maskV w (layoutN opc) (by rw [htop]; rfl), htop, ← BitVec.toNat_inj, ← BitVec.toNat_inj]
  simp only [BitVec.extractLsb'_toNat, Nat.shiftRight_eq_div_pow, BitVec.toNat_ofNat]
  omega

/-! A word that meets a format's row is the layout of its own fields. -/

section
variable {w : Word} (opc : BitVec 8)

theorem layoutN_of_meets (h : w &&& maskN = layoutN opc) : layoutN opc = w := by
  rw [← h]
  exact BitVec.and_allOnes

theorem layoutB_of_meets (h : w &&& maskB = layoutN opc) : layoutB opc (wordField w 0 8) = w := by
  have hw := (meets_highMask_iff w opc (k := 8) (by decide)).1 h
  apply BitVec.eq_of_toNat_eq
  rw [layoutB_toNat _ _ (wordField_lt w 0 8), wordField]
  omega

theorem layoutG_of_meets (h : w &&& maskG = layoutN opc) :
    layoutG opc (wordField w 8 8) (wordField w 0 8) = w := by
  have hw := (meets_highMask_iff w opc (k := 16) (by decide)).1 h
  apply BitVec.eq_of_toNat_eq
  rw [layoutG_toNat _ _ _ (wordField_lt w 8 8) (wordField_lt w 0 8), wordField, wordField]
  omega

theorem layoutA_of_meets (h : w &&& maskA = layoutN opc) :
    layoutA opc (wordField w 10 5) (wordField w 5 5) (wordField w 0 5) = w := by
  have hw := (meets_highMask_iff w opc (k := 15) (by decide)).1 h
  apply BitVec.eq_of_toNat_eq
  rw [layoutA_toNat _ _ _ _ (wordField_lt w 10 5) (wordField_lt w 5 5) (wordField_lt w 0 5),
    wordField, wordField, wordField]
  omega

theorem layoutK_of_meets (h : w &&& maskK = layoutN opc) :
    layoutK opc (wordField w 4 4) (wordField w 0 4) = w := by
  have hw := (meets_highMask_iff w opc (k := 8) (by decide)).1 h
  apply BitVec.eq_of_toNat_eq
  rw [layoutK_toNat _ _ _ (wordField_lt w 4 4) (wordField_lt w 0 4), wordField, wordField]
  omega

theorem layoutM_of_meets (h : w &&& maskM = layoutN opc) :
    layoutM opc (selOfBit (wordField w 0 1)) = w := by
  have hw := (meets_highMask_iff w opc (k := 1) (by decide)).1 h
  apply BitVec.eq_of_toNat_eq
  rw [layoutM_toNat, selBit_selOfBit (wordField_lt w 0 1), wordField]
  omega

theorem layoutV_of_meets (h : w &&& maskV = layoutN opc) :
    layoutV opc (wordField w 8 16) (dirOfBit (wordField w 5 1)) (wordField w 0 5) = w := by
  have hw := (meets_maskV_iff w opc).1 h
  apply BitVec.eq_of_toNat_eq
  rw [layoutV_toNat _ _ _ _ (wordField_lt w 8 16) (wordField_lt w 0 5),
    dirBit_dirOfBit (wordField_lt w 5 1), wordField, wordField, wordField]
  omega

end

/-! A layout meets its format's row, and its fields are the operands laid out. -/

section
variable (opc : BitVec 8) {a b c : Nat}

theorem layoutB_meets (hb : b < 256) : layoutB opc b &&& maskB = layoutN opc := by
  refine (meets_highMask_iff _ opc (k := 8) (by decide)).2 ?_
  rw [layoutB_toNat _ _ hb]
  omega

theorem layoutB_byte (hb : b < 256) : wordField (layoutB opc b) 0 8 = b := by
  rw [wordField, layoutB_toNat _ _ hb]
  omega

theorem layoutG_meets (ha : a < 256) (hb : b < 256) :
    layoutG opc a b &&& maskG = layoutN opc := by
  refine (meets_highMask_iff _ opc (k := 16) (by decide)).2 ?_
  rw [layoutG_toNat _ _ _ ha hb]
  omega

theorem layoutG_fields (ha : a < 256) (hb : b < 256) :
    wordField (layoutG opc a b) 8 8 = a ∧ wordField (layoutG opc a b) 0 8 = b := by
  simp only [wordField, layoutG_toNat _ _ _ ha hb]
  omega

theorem layoutA_meets (ha : a < 32) (hb : b < 32) (hc : c < 32) :
    layoutA opc a b c &&& maskA = layoutN opc := by
  refine (meets_highMask_iff _ opc (k := 15) (by decide)).2 ?_
  rw [layoutA_toNat _ _ _ _ ha hb hc]
  omega

theorem layoutA_fields (ha : a < 32) (hb : b < 32) (hc : c < 32) :
    wordField (layoutA opc a b c) 10 5 = a ∧ wordField (layoutA opc a b c) 5 5 = b ∧
      wordField (layoutA opc a b c) 0 5 = c := by
  simp only [wordField, layoutA_toNat _ _ _ _ ha hb hc]
  omega

theorem layoutK_meets (ha : a < 16) (hb : b < 16) : layoutK opc a b &&& maskK = layoutN opc := by
  refine (meets_highMask_iff _ opc (k := 8) (by decide)).2 ?_
  rw [layoutK_toNat _ _ _ ha hb]
  omega

theorem layoutK_fields (ha : a < 16) (hb : b < 16) :
    wordField (layoutK opc a b) 4 4 = a ∧ wordField (layoutK opc a b) 0 4 = b := by
  simp only [wordField, layoutK_toNat _ _ _ ha hb]
  omega

theorem layoutM_meets (sel : KeySel) : layoutM opc sel &&& maskM = layoutN opc := by
  refine (meets_highMask_iff _ opc (k := 1) (by decide)).2 ?_
  rw [layoutM_toNat]
  omega

theorem layoutM_sel (sel : KeySel) : wordField (layoutM opc sel) 0 1 = (selBit sel).toNat := by
  rw [wordField, layoutM_toNat]
  omega

theorem layoutV_meets (dir : Dir) (ha : a < 65536) (hb : b < 32) :
    layoutV opc a dir b &&& maskV = layoutN opc := by
  rw [meets_maskV_iff, layoutV_toNat _ _ _ _ ha hb]
  omega

theorem layoutV_fields (dir : Dir) (ha : a < 65536) (hb : b < 32) :
    wordField (layoutV opc a dir b) 8 16 = a ∧
      wordField (layoutV opc a dir b) 5 1 = (dirBit dir).toNat ∧
      wordField (layoutV opc a dir b) 0 5 = b := by
  simp only [wordField, layoutV_toNat _ _ _ _ ha hb]
  omega

end

/-! The row of a command. -/

/-- The command's row of the opcode map: the rows stand in the order of the constructors (R82). -/
def rowOf (i : Instr) : OpcodeRow :=
  opcodeRows[i.ctorIdx]'(by cases i <;> exact of_decide_eq_true rfl)

theorem rowOf_mem (i : Instr) : rowOf i ∈ opcodeRows := List.getElem_mem _

/-- A well-formed command's word meets the command's row (R82). -/
theorem encode_meets_rowOf {i : Instr} (h : WellFormed i = true) :
    encode i &&& (rowOf i).mask = (rowOf i).pattern := by
  cases i <;> simp only [WellFormed, Bool.and_eq_true, decide_eq_true_eq] at h
  case cenc | cdec | minv26 => exact layoutB_meets _ h
  case gcd =>
    obtain ⟨ha, hb⟩ := h
    exact layoutG_meets _ ha hb
  case mac26 =>
    obtain ⟨⟨ha, hb⟩, hc⟩ := h
    exact layoutA_meets _ ha hb hc
  case mkey | pbuild =>
    obtain ⟨hrows, hcols⟩ := h
    exact layoutK_meets _ hrows hcols
  case mvmul sel => exact layoutM_meets _ sel
  case vshift dir =>
    obtain ⟨hpos, hv⟩ := h
    exact layoutV_meets _ dir hpos hv
  all_goals rfl

/-- The row of a well-formed command reads the operands back from its word (R81). -/
theorem build_rowOf_encode {i : Instr} (h : WellFormed i = true) :
    (rowOf i).build (encode i) = i := by
  cases i <;> simp only [WellFormed, Bool.and_eq_true, decide_eq_true_eq] at h
  case cenc => exact congrArg Instr.cenc (layoutB_byte _ h)
  case cdec => exact congrArg Instr.cdec (layoutB_byte _ h)
  case minv26 => exact congrArg Instr.minv26 (layoutB_byte _ h)
  case gcd =>
    obtain ⟨hlta, hltb⟩ := h
    obtain ⟨ha, hb⟩ := layoutG_fields 0x20 hlta hltb
    exact congrArg₂ Instr.gcd ha hb
  case mac26 =>
    obtain ⟨⟨hlta, hltb⟩, hltc⟩ := h
    obtain ⟨ha, hb, hc⟩ := layoutA_fields 0x22 hlta hltb hltc
    exact congr (congrArg₂ Instr.mac26 ha hb) hc
  case mkey =>
    obtain ⟨hltr, hltc⟩ := h
    obtain ⟨hr, hc⟩ := layoutK_fields 0x30 hltr hltc
    exact congrArg₂ Instr.mkey hr hc
  case pbuild =>
    obtain ⟨hltr, hltc⟩ := h
    obtain ⟨hr, hc⟩ := layoutK_fields 0x50 hltr hltc
    exact congrArg₂ Instr.pbuild hr hc
  case mvmul sel =>
    have hsel := (congrArg selOfBit (layoutM_sel 0x31 sel)).trans (selOfBit_selBit sel)
    exact congrArg Instr.mvmul hsel
  case vshift dir =>
    obtain ⟨hltp, hltv⟩ := h
    obtain ⟨hp, hd, hv⟩ := layoutV_fields 0x41 dir hltp hltv
    have hdir := (congrArg dirOfBit hd).trans (dirOfBit_dirBit dir)
    exact congr (congrArg₂ Instr.vshift hp hv) hdir
  all_goals rfl

/-- Settles O1: the word meets the command's row, and the row reads the operands back. -/
theorem decodeOfEncodeIsIdentity : Obligations.DecodeOfEncodeIsIdentity := by
  unfold Obligations.DecodeOfEncodeIsIdentity
  intro i h
  rw [decode_of_row (rowOf_mem i) (beq_iff_eq.2 (encode_meets_rowOf h)), build_rowOf_encode h]

/-! A word that meets a row is the word of the command the row builds. -/

/-- Every field a row reads is in the range of its operand (R89). -/
theorem wellFormed_build : ∀ r ∈ opcodeRows, ∀ w, WellFormed (r.build w) = true := by
  simp only [opcodeRows, opcodeRowsLow, opcodeRowsHigh, List.cons_append, List.nil_append,
    List.forall_mem_cons, WellFormed, Bool.and_eq_true, decide_eq_true_eq]
  have hnone : Word → True := fun _ => trivial
  have hbyte := fun w => wordField_lt w 0 8
  have hgcd := fun w => And.intro (wordField_lt w 8 8) (wordField_lt w 0 8)
  have hmac := fun w =>
    And.intro (And.intro (wordField_lt w 10 5) (wordField_lt w 5 5)) (wordField_lt w 0 5)
  have hshape := fun w => And.intro (wordField_lt w 4 4) (wordField_lt w 0 4)
  have hshift := fun w => And.intro (wordField_lt w 8 16) (wordField_lt w 0 5)
  exact ⟨hnone, hnone, hbyte, hbyte, hnone, hgcd, hbyte, hmac, hshape, hnone, hnone, hnone, hnone,
    hshift, hnone, hnone, hshape, hnone, hnone, nofun⟩

/-- The rows in the order of R82, each by its format. -/
theorem encode_build_of_meets :
    ∀ r ∈ opcodeRows, ∀ w, w &&& r.mask = r.pattern → encode (r.build w) = w := by
  simp only [opcodeRows, opcodeRowsLow, opcodeRowsHigh, List.cons_append, List.nil_append,
    List.forall_mem_cons]
  exact ⟨fun _ => layoutN_of_meets 0x00, fun _ => layoutN_of_meets 0x01,
    fun _ => layoutB_of_meets 0x10, fun _ => layoutB_of_meets 0x11,
    fun _ => layoutN_of_meets 0x12, fun _ => layoutG_of_meets 0x20,
    fun _ => layoutB_of_meets 0x21, fun _ => layoutA_of_meets 0x22,
    fun _ => layoutK_of_meets 0x30, fun _ => layoutM_of_meets 0x31,
    fun _ => layoutN_of_meets 0x32, fun _ => layoutN_of_meets 0x33,
    fun _ => layoutN_of_meets 0x40, fun _ => layoutV_of_meets 0x41,
    fun _ => layoutN_of_meets 0x42, fun _ => layoutN_of_meets 0x43,
    fun _ => layoutK_of_meets 0x50, fun _ => layoutN_of_meets 0x51,
    fun _ => layoutN_of_meets 0x52, nofun⟩

/-- Settles O2: the row that the word meets builds a command whose word it is. -/
theorem decodedWordEncodesBack : Obligations.DecodedWordEncodesBack := by
  unfold Obligations.DecodedWordEncodesBack
  intro w i h
  obtain ⟨r, hr, hm, rfl⟩ := row_of_decode h
  exact ⟨wellFormed_build r hr w, encode_build_of_meets r hr w (beq_iff_eq.1 hm)⟩

/-! A layout's fields or-ed into its opcode byte (R91). -/

/-- Or-ing onto bits that are 0 is adding. -/
theorem or_eq_add {x : Nat} (k y : Nat) (hx : x % 2 ^ k = 0) (hy : y < 2 ^ k) :
    x ||| y = x + y := by
  rw [← Nat.div_mul_cancel (Nat.dvd_of_mod_eq_zero hx), ← Nat.shiftLeft_eq,
    Nat.shiftLeft_add_eq_or_of_lt hy]

section
variable (opc : BitVec 8) {a b c : Nat}

theorem layoutB_eq_or (hb : b < 256) :
    layoutB opc b = BitVec.ofNat 32 (opc.toNat <<< 24 ||| b) := by
  refine (BitVec.toNat_eq_nat.1 ?_).2
  rw [layoutB_toNat _ _ hb, or_eq_add 24 b] <;> omega

theorem layoutG_eq_or (ha : a < 256) (hb : b < 256) :
    layoutG opc a b = BitVec.ofNat 32 (opc.toNat <<< 24 ||| a <<< 8 ||| b) := by
  refine (BitVec.toNat_eq_nat.1 ?_).2
  rw [layoutG_toNat _ _ _ ha hb, or_eq_add 24 (a <<< 8), or_eq_add 8 b] <;> omega

theorem layoutA_eq_or (ha : a < 32) (hb : b < 32) (hc : c < 32) :
    layoutA opc a b c = BitVec.ofNat 32 (opc.toNat <<< 24 ||| a <<< 10 ||| b <<< 5 ||| c) := by
  refine (BitVec.toNat_eq_nat.1 ?_).2
  rw [layoutA_toNat _ _ _ _ ha hb hc, or_eq_add 24 (a <<< 10), or_eq_add 10 (b <<< 5),
    or_eq_add 5 c] <;> omega

theorem layoutK_eq_or (ha : a < 16) (hb : b < 16) :
    layoutK opc a b = BitVec.ofNat 32 (opc.toNat <<< 24 ||| a <<< 4 ||| b) := by
  refine (BitVec.toNat_eq_nat.1 ?_).2
  rw [layoutK_toNat _ _ _ ha hb, or_eq_add 24 (a <<< 4), or_eq_add 4 b] <;> omega

/-- The bit of `DIR` stands below `POS`, so its place among the or-ed fields is free. -/
theorem layoutV_eq_or (dir : Dir) (ha : a < 65536) (hb : b < 32) :
    layoutV opc a dir b =
      BitVec.ofNat 32 ((opc.toNat <<< 24 ||| (dirBit dir).toNat <<< 5) ||| a <<< 8 ||| b) := by
  have hd := (dirBit dir).isLt
  refine (BitVec.toNat_eq_nat.1 ?_).2
  rw [layoutV_toNat _ _ _ _ ha hb, Nat.or_right_comm (opc.toNat <<< 24), or_eq_add 24 (a <<< 8),
    or_eq_add 8 ((dirBit dir).toNat <<< 5), or_eq_add 5 b] <;> omega

end

/-- Settles O3: each form is its layout, written as or-ed fields. -/
theorem encodedWordsOfEachForm : Obligations.EncodedWordsOfEachForm := by
  unfold Obligations.EncodedWordsOfEachForm
  refine ⟨by decide, fun b hb => ?_, fun a b ha hb => layoutG_eq_or 0x20 ha hb,
    fun a b c ha hb hc => layoutA_eq_or 0x22 ha hb hc, fun r c hr hc => ?_, by decide,
    fun p v hp hv => ?_, by decide⟩
  · exact ⟨layoutB_eq_or 0x10 hb, layoutB_eq_or 0x11 hb, layoutB_eq_or 0x21 hb⟩
  · exact ⟨layoutK_eq_or 0x30 hr hc, layoutK_eq_or 0x50 hr hc⟩
  · exact ⟨layoutV_eq_or 0x41 .enc hp hv, layoutV_eq_or 0x41 .dec hp hv⟩

end Sys2Proof

namespace Sys2Proof.Machine

/-! The core's turn on a pending word (R83, R85). -/

theorem coreTurn_command {s : State} {w : Word} {i : Instr} (hp : s.pending = some w)
    (hd : decode w = .command i) : coreTurn s = exec i s.takePending := by
  simp only [coreTurn, hp, hd]

theorem coreTurn_illegal {s : State} {w : Word} {why : IllegalReason} (hp : s.pending = some w)
    (hd : decode w = .illegal why) :
    coreTurn s = .next (s.takePending.raise .illegalCommand w) := by
  simp only [coreTurn, hp, hd]

/-- Settles O5: a word that meets no row is illegal, and one that meets a row is its command. -/
theorem illegalWordsRaiseIllegalCommand : Obligations.IllegalWordsRaiseIllegalCommand := by
  unfold Obligations.IllegalWordsRaiseIllegalCommand
  intro s w hp
  refine ⟨fun h => ?_, fun r hr h => ?_, rfl⟩
  · obtain ⟨_, hd⟩ := decode_illegal fun r hr => beq_eq_false_iff_ne.2 (h r hr)
    exact coreTurn_illegal hp hd
  · have hd := decode_of_row hr (beq_iff_eq.2 h)
    exact ⟨_, hd, coreTurn_command hp hd⟩

/-- Settles O4: each word decodes by evaluation. -/
theorem specWordsDecode : Obligations.SpecWordsDecode := by
  unfold Obligations.SpecWordsDecode
  decide

/-! A write to `CMD` (R84). -/

theorem memWrite_busy {s : State} (off v : Word) (hb : s.busy = true) :
    memWrite off v s = hostHazard s := if_pos hb

/-- Issuing a command to an idle core adds `BUSY`, bit 0 of `STATUS`. -/
theorem statusWord_issue {s : State} (hp : s.pending = none) (w : Word) :
    State.statusWord { s with pending := some w } = s.statusWord + 1 := by
  have h : (State.statusWord { s with pending := some w }).toNat = s.statusWord.toNat + 1 := by
    rw [State.statusWord_toNat, State.statusWord_toNat s, State.busy_of_pending hp]
    simp only [State.busy, State.pipeValid, Option.isSome_some, Bool.toNat_true, Bool.toNat_false,
      Nat.add_zero]
  have hlt := (State.statusWord { s with pending := some w }).isLt
  apply BitVec.eq_of_toNat_eq
  rw [h] at hlt ⊢
  exact (Nat.mod_eq_of_lt hlt).symm

/-- Settles O10: offset 0x004 names `CMD`, and a busy core takes no write. -/
theorem cmdWriteIssuesCommand : Obligations.CmdWriteIssuesCommand := by
  unfold Obligations.CmdWriteIssuesCommand
  refine fun s w => ⟨fun hp => ⟨?_, statusWord_issue hp w⟩, fun hp => ?_⟩
  · exact memWrite_slot hp w (o := 0x004) (by decide) (by decide) (sl := .cmd) rfl
  · exact memWrite_busy _ _ (Option.isSome_iff_ne_none.2 hp)

end Sys2Proof.Machine
end

section
/-! SUPPORT. The control commands (40_control.md): the opcode byte alone picks the row of a word that
decodes, so word 0 is the only one of NOP's (R101); what the host reads after CLR (R102). -/

namespace Sys2Proof.Machine

/-- A word that decodes is a command of the row with its opcode byte (R82: "No two rows overlap"). -/
theorem command_of_opcode {w : Word} {i : Instr} {r : OpcodeRow} (hd : decode w = .command i)
    (hr : r ∈ opcodeRows) (htop : w.extractLsb' 24 8 = r.pattern.extractLsb' 24 8) :
    i = r.build w := by
  obtain ⟨r', hr', hm, rfl⟩ := row_of_decode hd
  have hpat := (OpcodeRow.top_of_matches hr' hm).symm.trans htop
  rw [List.inj_on_of_nodup_map opcodeRows_nodup hr' hr hpat]

/-- The only word with opcode byte 0 that decodes is NOP's own (R101). -/
theorem eq_zero_of_decode_opcode_zero {w : Word} {i : Instr} (hd : decode w = .command i)
    (htop : w.extractLsb' 24 8 = 0) : w = 0 := by
  have hi : i = .nop := command_of_opcode hd (rowOf_mem .nop) htop
  obtain ⟨-, hw⟩ := decodedWordEncodesBack w i hd
  rw [← hw, hi]
  rfl

/-- Settles O37: a word with opcode byte 0 that decodes is NOP's, and NOP's word is 0. -/
theorem nopClearsTheReport : Obligations.NopClearsTheReport := by
  unfold Obligations.NopClearsTheReport
  refine ⟨fun s => rfl, by decide, fun w htop hw => ?_⟩
  cases hd : decode w with
  | command i => exact absurd (eq_zero_of_decode_opcode_zero hd htop) hw
  | illegal why => exact ⟨why, rfl⟩

/-! What the host reads after CLR (R102). -/

/-- With `VOFFLEN` 0 every word of `VOFF` reads 0, whatever is stored (R46, R66). -/
theorem readVoffWord_empty {s : State} (h : s.vofflen = 0) (w d : Nat) :
    readVoffWord s w d = (0, d) := by
  have hbyte (a e : Nat) : readVoffByte s a e = (0, e) :=
    readVoffByte_beyond (by rw [h]; exact Nat.zero_le a) e
  simp only [readVoffWord, hbyte]
  rfl

/-- `STATUS` reads 0 but for `BUSY` once the registers are cleared. -/
theorem statusWord_clearRegisters (s : State) :
    (s.clearRegisters.complete 0).statusWord.toNat = s.busy.toNat := by
  rw [State.statusWord_toNat]
  simp [State.pipeValid, State.busy]

/-- Settles O38: the cleared fields give `STATUS`, and `VOFFLEN` 0 hides the `VOFF` storage. -/
theorem clrResetsRegisters : Obligations.ClrResetsRegisters := by
  unfold Obligations.ClrResetsRegisters
  refine ⟨by decide, fun s => ⟨s.clearRegisters.complete 0, rfl, rfl,
    statusWord_clearRegisters s, fun w hw => ?_⟩⟩
  have hcap := vkeyMax_bounds
  rw [busRead_aligned _ (by omega) (by omega), slotAt_voff w hw, readSlot,
    readVoffWord_empty (by simp)]

end Sys2Proof.Machine
end

section
/-! SUPPORT. The alphabet codec as a bijection, normalisation as a filter, and the commands built on
them: CENC, CDEC, NORM, and the frame that NORM shares with the cipher's text commands
(41_alphabet_codec.md R111 to R120). -/

namespace Sys2Proof.Machine

/-! The frame of the text commands (R116). -/

theorem SameText.refl (s : State) : SameText s s := ⟨rfl, fun _ => rfl⟩

theorem SameHostRegisters.refl (s : State) : SameHostRegisters s s :=
  ⟨rfl, rfl, rfl, fun _ => rfl⟩

/-- A length as `RESULT` and as `TLEN` agree in the 13 bits of `TLEN` (R13). -/
theorem toNat_length_mod (n : Nat) :
    (BitVec.ofNat 32 n).toNat % 8192 = (BitVec.ofNat 13 n).toNat := by
  simp only [BitVec.toNat_ofNat]
  omega

/-- Settles O29: a text command ends with a text written, and then `ERR` is 0, or with an error, and
then only the report and the count of free values have moved. -/
theorem textCommandsFrame : Obligations.TextCommandsFrame := by
  unfold Obligations.TextCommandsFrame
  intro i s hi
  have hh := SameHostRegisters.refl s
  have hm := SameMkey.refl s
  have hv := SameVkey.refl s
  obtain ⟨d, ⟨bs, he⟩ | ⟨e, w, he⟩⟩ := execText_cases i s hi
  · exact ⟨_, he, rfl, hh, hm, hv, fun herr => absurd rfl herr, fun _ => toNat_length_mod bs.length⟩
  · exact ⟨_, he, rfl, hh, hm, hv, fun _ => SameText.refl s, fun herr => absurd herr e.code_ne_zero⟩

/-! The bijection between uppercase letters and residues (R113, R114, R120). -/

/-- The letter of a letter's residue is the letter in uppercase (R114). -/
theorem codecDec_codecEnc {b : Byte} (h : isLetter b = true) : codecDec (codecEnc b) = upper b := by
  have hr := upper_range h
  apply BitVec.eq_of_toNat_eq
  rw [codecDec_toNat (codecEnc_lt h), codecEnc]
  omega

/-- The residue of a residue's letter is the residue (R114). -/
theorem codecEnc_codecDec {v : Nat} (h : v < 26) : codecEnc (codecDec v) = v := by
  have hv := codecDec_toNat h
  rw [codecEnc, upper_of_upper (by omega), hv]
  omega

/-- Settles O30: byte by byte from the two inverse laws, then over texts. -/
theorem codecIsBijection : Obligations.CodecIsBijection := by
  unfold Obligations.CodecIsBijection
  refine ⟨isLetter_iff, fun b hb => ⟨?_, rfl, codecEnc_lt hb, codecDec_codecEnc hb⟩,
    fun v hv => ⟨codecDec_toNat hv, codecEnc_codecDec hv⟩, fun t ht => ?_, fun l hl => ?_⟩
  · rw [isLetter_iff] at hb
    rw [upper_toNat]
    split <;> split <;> omega
  · rw [List.map_map]
    refine (List.map_congr_left fun b hb => ?_).trans (List.map_id t)
    have hr := ht b hb
    exact (codecDec_codecEnc ((isLetter_iff b).2 (.inl hr))).trans (upper_of_upper hr)
  · rw [List.map_map]
    exact (List.map_congr_left fun v hv => codecEnc_codecDec (hl v hv)).trans (List.map_id l)

/-! Normalisation (R115). -/

theorem normalizeText_eq (t : List Byte) : normalizeText t = (t.filter isLetter).map upper := by
  induction t with
  | nil => rfl
  | cons b bs ih =>
    simp only [normalizeText, List.filter_cons]
    split <;> simp only [List.map_cons, ih]

theorem upperLetters_normalizeText (t : List Byte) : UpperLetters (normalizeText t) := by
  intro b hb
  rw [normalizeText_eq, List.mem_map] at hb
  obtain ⟨c, hc, rfl⟩ := hb
  exact upper_range (List.mem_filter.1 hc).2

/-- Settles O31: normalising again is normalising uppercase letters, which changes nothing. -/
theorem normalizeKeepsLettersUppercased : Obligations.NormalizeKeepsLettersUppercased := by
  unfold Obligations.NormalizeKeepsLettersUppercased
  intro t
  have hu := upperLetters_normalizeText t
  exact ⟨normalizeText_eq t, normalizeText_length_le t, normalizeText_of_upper hu, hu⟩

/-- A well-formed command's word, however it is spelt, decodes to the command (R86). -/
theorem decode_of_encode_eq {i : Instr} {w : Word} (hi : WellFormed i = true) (hw : encode i = w) :
    decode w = .command i :=
  hw ▸ decodeOfEncodeIsIdentity i hi

/-! CENC (R117). -/

/-- The word `{23'b0, 1'b1, 3'b0, v}` (R117). -/
theorem cencWord_eq {v : Nat} (h : v < 26) :
    (0#23 ++ 1#1 ++ 0#3 ++ BitVec.ofNat 5 v : Word) = BitVec.ofNat 32 (0x100 + v) := by
  apply BitVec.eq_of_toNat_eq
  simp only [toNat_append_add, BitVec.toNat_ofNat]
  omega

/-- The value of a letter, case by case (R112, R113). -/
theorem codecEnc_eq (b : Byte) :
    codecEnc b = if 0x61 ≤ b.toNat ∧ b.toNat ≤ 0x7A then b.toNat - 0x61 else b.toNat - 0x41 := by
  rw [codecEnc, upper_toNat]
  split <;> omega

theorem execCenc_letter {b : Nat} (h : isLetter (BitVec.ofNat 8 b) = true) (s : State) :
    execCenc b s = .next (s.complete (BitVec.ofNat 32 (0x100 + codecEnc (BitVec.ofNat 8 b)))) := by
  rw [← cencWord_eq (codecEnc_lt h)]
  exact if_pos h

theorem execCenc_nonletter {b : Nat} (h : ¬ isLetter (BitVec.ofNat 8 b) = true) (s : State) :
    execCenc b s = .next (s.complete 0) := if_neg h

/-- Settles O39: `RESULT` in the two ranges of letters and outside them. -/
theorem cencGivesLetterValue : Obligations.CencGivesLetterValue := by
  unfold Obligations.CencGivesLetterValue
  intro b s hb
  constructor
  · exact decode_of_encode_eq (decide_eq_true hb) (layoutB_eq_or 0x10 hb)
  · have hn : (BitVec.ofNat 8 b).toNat = b := Nat.mod_eq_of_lt hb
    have hl := isLetter_iff (BitVec.ofNat 8 b)
    have hv := codecEnc_eq (BitVec.ofNat 8 b)
    rw [hn] at hl hv
    show execCenc b s = .next (s.complete _)
    by_cases hup : 0x41 ≤ b ∧ b ≤ 0x5A
    · rw [execCenc_letter (hl.2 (.inl hup)), hv, if_neg (by omega), if_pos hup]
    · by_cases hlow : 0x61 ≤ b ∧ b ≤ 0x7A
      · rw [execCenc_letter (hl.2 (.inr hlow)), hv, if_pos hlow, if_neg hup, if_pos hlow]
      · rw [execCenc_nonletter (fun h => (hl.1 h).elim hup hlow), if_neg hup, if_neg hlow]
        rfl

/-! CDEC (R118). -/

/-- A residue's letter as a word (R118). -/
theorem cdecWord_eq {v : Nat} (h : v < 26) :
    (0#24 ++ codecDec v : Word) = BitVec.ofNat 32 (0x41 + v) := by
  apply BitVec.eq_of_toNat_eq
  simp only [toNat_append_add, BitVec.toNat_ofNat, codecDec_toNat h]
  omega

/-- Settles O40: the operand's check splits the two outcomes. -/
theorem cdecGivesLetter : Obligations.CdecGivesLetter := by
  unfold Obligations.CdecGivesLetter
  intro v s hv
  constructor
  · exact decode_of_encode_eq (decide_eq_true hv) (layoutB_eq_or 0x11 hv)
  · show execCdec v s = _
    unfold execCdec
    by_cases h : v < 26
    · rw [if_neg (by omega), if_pos h, cdecWord_eq h]
      rfl
    · rw [if_pos (by omega), if_neg h]
      rfl

/-! NORM (R119). -/

/-- Settles O41: the text written is the normalised text, which fits `TXT`. -/
theorem normRewritesText : Obligations.NormRewritesText := by
  unfold Obligations.NormRewritesText
  refine ⟨by decide, fun s hs => ?_⟩
  have hcap := textMax_bounds
  have hlen := normalizeText_length_le s.textIn.1
  rw [s.textIn_length] at hlen
  have hfit : (normalizeText s.textIn.1).length < 8192 := by omega
  rw [← normalizeText_eq]
  exact ⟨_, rfl, holdsText_textOut _ _ _ hfit, Nat.mod_eq_of_lt (hfit.trans (by decide)), rfl, rfl,
    rfl⟩

end Sys2Proof.Machine
end

section
/-! SUPPORT. The modular arithmetic commands: the word of GCD, the search of MINV26 as the only
inverse modulo 26, the operand checks of MINV26 and MAC26 (42_modular_arith.md R131 to R136). -/

namespace Sys2Proof.Machine

/-! GCD (R134). -/

theorem gcd_lt_of_lt {a b m : Nat} (ha : a < m) (hb : b < m) : Nat.gcd a b < m := by
  rcases Nat.eq_zero_or_pos a with rfl | hpos
  · rwa [Nat.gcd_zero_left]
  · exact (Nat.gcd_le_left b hpos).trans_lt ha

/-- The word `{23'b0, g = 1, g}` (R134). -/
theorem gcdWord_eq {g : Nat} (h : g < 256) :
    (0#23 ++ BitVec.ofBool (g == 1) ++ BitVec.ofNat 8 g : Word) =
      BitVec.ofNat 32 (g + if g = 1 then 0x100 else 0) := by
  apply BitVec.eq_of_toNat_eq
  simp only [toNat_append_add, BitVec.toNat_ofNat, BitVec.toNat_ofBool]
  by_cases hg : g = 1
  · subst hg; rfl
  · rw [if_neg hg, beq_eq_false_iff_ne.2 hg, Bool.toNat_false]
    omega

/-- Settles O43: the divisor of two bytes is a byte, so bit 8 is free for the flag. -/
theorem gcdGivesDivisorAndFlag : Obligations.GcdGivesDivisorAndFlag := by
  unfold Obligations.GcdGivesDivisorAndFlag
  intro a b s ha hb
  constructor
  · have hwf : WellFormed (.gcd a b) = true := by simp [WellFormed, ha, hb]
    exact decode_of_encode_eq hwf (layoutG_eq_or 0x20 ha hb)
  · rw [← gcdWord_eq (gcd_lt_of_lt ha hb)]
    rfl

/-! MINV26 (R133, R135). -/

/-- Two inverses of one residue agree modulo 26: `x = x(ay) = (ax)y = y`. -/
theorem inverse_modEq {a x y : Nat} (hx : a * x ≡ 1 [MOD 26]) (hy : a * y ≡ 1 [MOD 26]) :
    x ≡ y [MOD 26] :=
  calc x = x * 1 := (Nat.mul_one x).symm
    _ ≡ x * (a * y) [MOD 26] := hy.symm.mul_left x
    _ = a * x * y := by ring
    _ ≡ 1 * y [MOD 26] := hx.mul_right y
    _ = y := Nat.one_mul y

/-- What the search finds is an inverse in 1..25 (R133). -/
theorem inverse_of_minv26 {a x : Nat} (h : minv26 a = some x) :
    1 ≤ x ∧ x ≤ 25 ∧ a * x % 26 = 1 := by
  have hmem := List.mem_range'_1.1 (List.mem_of_find?_eq_some h)
  exact ⟨hmem.1, by omega, beq_iff_eq.1 (List.find?_some (p := fun x => a * x % 26 == 1) h)⟩

theorem minv26_eq_none_iff (a : Nat) :
    minv26 a = none ↔ ∀ x, 1 ≤ x → x ≤ 25 → a * x % 26 ≠ 1 := by
  simp only [minv26, List.find?_eq_none, List.mem_range'_1, beq_iff_eq, and_imp, Nat.lt_succ_iff]

/-- The search finds every inverse in 1..25: it ends with one, and there is no other (R133). -/
theorem minv26_eq_some_iff (a x : Nat) :
    minv26 a = some x ↔ 1 ≤ x ∧ x ≤ 25 ∧ a * x % 26 = 1 := by
  refine ⟨inverse_of_minv26, fun ⟨hlo, hhi, hx⟩ => ?_⟩
  cases hm : minv26 a with
  | none => exact absurd hx ((minv26_eq_none_iff a).1 hm x hlo hhi)
  | some y =>
    obtain ⟨-, hy25, hy⟩ := inverse_of_minv26 hm
    have hyx : y ≡ x [MOD 26] := inverse_modEq hy hx
    rw [hyx.eq_of_lt_of_lt (by omega) (by omega)]

/-- A residue with an inverse: the word is laid out as CENC's, `{23'b0, 1'b1, 3'b0, x}`. -/
theorem execMinv26_of_some {a x : Nat} (ha : a < 26) (hm : minv26 a = some x) (s : State) :
    execMinv26 a s = .next (s.complete (BitVec.ofNat 32 (0x100 + x))) := by
  obtain ⟨-, hx, -⟩ := inverse_of_minv26 hm
  simp only [execMinv26, Nat.not_le.2 ha, if_false, hm, cencWord_eq (Nat.lt_succ_of_le hx)]

theorem execMinv26_of_none {a : Nat} (ha : a < 26) (hm : minv26 a = none) (s : State) :
    execMinv26 a s = .next (s.complete 0) := by
  simp only [execMinv26, Nat.not_le.2 ha, if_false, hm]

/-- Settles O44: a residue ends as its search does; 26 and above fail the check. -/
theorem minv26GivesInverse : Obligations.Minv26GivesInverse := by
  unfold Obligations.Minv26GivesInverse
  intro a s hb
  refine ⟨decode_of_encode_eq (decide_eq_true hb) (layoutB_eq_or 0x21 hb),
    fun ha x hlo hhi hx => ?_, fun ha hno => ?_, fun h => if_pos h⟩
  · exact execMinv26_of_some ha ((minv26_eq_some_iff a x).2 ⟨hlo, hhi, hx⟩) s
  · exact execMinv26_of_none ha ((minv26_eq_none_iff a).2 hno) s

/-! MAC26 (R136). -/

/-- Settles O45: the checks of A, B and C in turn, then the sum. -/
theorem mac26GivesProductSum : Obligations.Mac26GivesProductSum := by
  unfold Obligations.Mac26GivesProductSum
  intro a b c s ha hb hc
  constructor
  · have hwf : WellFormed (.mac26 a b c) = true := by simp [WellFormed, ha, hb, hc]
    exact decode_of_encode_eq hwf (layoutA_eq_or 0x22 ha hb hc)
  · show execMac26 a b c s = _
    unfold execMac26
    split_ifs <;> rfl

end Sys2Proof.Machine
end

section
/-! SUPPORT. The commands that write `VOUT` or a key: their frame, what a successful load leaves
(43_matrix_cipher.md R154 to R156), and MVMUL, row by row (R157, R158). -/

namespace Sys2Proof.Machine

/-! The frame of the key commands. -/

/-- The raw key fits the 11 bits of `VOFFLEN`, so the length of its offsets is not cut short (R181). -/
theorem toNat_keyOffsets_length (s : State) :
    (BitVec.ofNat 11 (keyOffsets s.keyIn.1).length).toNat = (keyOffsets s.keyIn.1).length := by
  have hle := keyOffsets_length s.keyIn.1
  rw [s.keyIn_length] at hle
  rw [BitVec.toNat_ofNat]
  omega

/-- Beyond the offsets loaded, `VOFF` is as it was in `s₀`. -/
theorem lookup_voff_beyond_loaded (s s₀ : State) {a : Nat}
    (ha : (s₀.installVkey (keyOffsets s.keyIn.1)).vofflen.toNat ≤ a) :
    Memory.lookup (s₀.installVkey (keyOffsets s.keyIn.1)).voff a = Memory.lookup s₀.voff a := by
  rw [State.installVkey_vofflen, toNat_keyOffsets_length] at ha
  exact lookup_installVkey_above _ _ _ ha

/-- Settles O28: each way a key command ends writes only the registers its frame names; of `VOFF`, a
load writes only the elements below the new `VOFFLEN`. -/
theorem keyCommandsFrame : Obligations.KeyCommandsFrame := by
  unfold Obligations.KeyCommandsFrame
  intro s
  have ht := SameText.refl s
  have hh := SameHostRegisters.refl s
  have hm := SameMkey.refl s
  have hv := SameVkey.refl s
  refine ⟨fun sel => ?_, fun r c => ?_, ?_, fun r c => ?_⟩
  · rcases execMvmul_cases sel s with ⟨v, w, he⟩ | ⟨e, w, he⟩ <;> exact ⟨_, he, rfl, ht, hh, hv⟩
  · rcases execMkey_cases r c s with ⟨e, w, he⟩ | ⟨key, w, -, he⟩ <;>
      exact ⟨_, he, rfl, ht, hh, hv⟩
  · obtain ⟨d, ⟨e, w, he⟩ | ⟨w, -, he⟩⟩ := execVkey_cases s
    · exact ⟨_, he, rfl, ht, hh, hm, fun _ _ => rfl⟩
    · exact ⟨_, he, rfl, ht, hh, hm, fun _ ha => lookup_voff_beyond_loaded s (s.withDraws d) ha⟩
  · obtain ⟨d, ⟨e, w, he⟩ | ⟨key, w, -, -, he⟩⟩ := execPbuild_cases r c s
    · exact ⟨_, he, rfl, ht, hh, fun _ _ => rfl⟩
    · exact ⟨_, he, rfl, ht, hh,
        fun _ ha => lookup_voff_beyond_loaded s ((s.withDraws d).installMkey key) ha⟩

/-! A key that loaded (R156). -/

/-- MKEY and PBUILD with `ERR` 0 afterwards leave a loaded matrix key. -/
theorem mkeyLoaded_of_load {s t : State} {r c : Nat}
    (h : exec (.mkey r c) s = .next t ∨ exec (.pbuild r c) s = .next t) (herr : t.err = 0) :
    t.mkeyValid = true ∧ t.MkeyLoaded := by
  rcases h with h | h
  · rcases execMkey_cases r c s with ⟨e, w, he⟩ | ⟨key, w, hkey, he⟩ <;> cases he.symm.trans h
    · exact absurd herr e.code_ne_zero
    · exact ⟨rfl, SameMkey.loaded (SameMkey.refl (s.installMkey key))
        (mkeyLoaded_installMkey hkey s)⟩
  · obtain ⟨d, ⟨e, w, he⟩ | ⟨key, w, hkey, -, he⟩⟩ := execPbuild_cases r c s <;>
      cases he.symm.trans h
    · exact absurd herr e.code_ne_zero
    · exact ⟨rfl, SameMkey.loaded (SameMkey.refl ((s.withDraws d).installMkey key))
        (mkeyLoaded_installMkey hkey _)⟩

/-- Settles O35: both products are among the conditions of a loaded key. -/
theorem loadedInverseIsInverse : Obligations.LoadedInverseIsInverse := by
  unfold Obligations.LoadedInverseIsInverse
  intro s t r c h herr
  obtain ⟨hv, hl⟩ := mkeyLoaded_of_load h herr
  exact ⟨hv, hl.order, hl.right_inverse, hl.left_inverse⟩

/-! MVMUL. -/

/-- Without a matrix key MVMUL, HENC and HDEC raise NotConfigured (R158, R162, R164). -/
theorem exec_of_no_mkey {i : Instr} {s : State} (hv : s.mkeyValid = false)
    (hi : (∃ sel, i = .mvmul sel) ∨ i = .henc ∨ i = .hdec) :
    exec i s = .next (notConfigured s) := by
  have hno : ¬ s.mkeyValid = true := by simp [hv]
  rw [← State.raise_notConfigured]
  rcases hi with ⟨sel, rfl⟩ | rfl | rfl <;> exact if_neg hno

/-- Element `j` of `VIN` as a number (R43). -/
def State.vinAt (s : State) (j : Nat) : Nat :=
  if j = 0 then s.vin.e0.toNat else if j = 1 then s.vin.e1.toNat else s.vin.e2.toNat

theorem State.vinUsed_eq {s : State} (hn : s.order = 2 ∨ s.order = 3) :
    s.vinUsed = (List.range s.order).map s.vinAt := by
  unfold State.vinUsed
  rcases hn with hn | hn <;> rw [hn] <;> rfl

/-- `RESULT` of MVMUL: a byte for each element of `VOUT` (R158). -/
theorem State.voutWord_eq (s : State) :
    s.voutWord = BitVec.ofNat 32
      (s.vout.e0.toNat + 256 * s.vout.e1.toNat + 65536 * s.vout.e2.toNat) := by
  apply BitVec.eq_of_toNat_eq
  simp only [State.voutWord, toNat_append_add, BitVec.toNat_ofNat]
  omega

/-- The rows of the selected matrix times `VIN` (R157). -/
def State.vinProduct (s : State) (sel : KeySel) : List Nat :=
  (List.range s.order).map fun i => rowDot (s.selected sel) s.order i s.vinAt

/-- An element of `VOUT` once the product is stored: 0 beyond the order (R158). -/
theorem State.setVout_vinProduct_get (s : State) (sel : KeySel) (i : Fin 3) :
    ((s.setVout (s.vinProduct sel)).vout.get i).toNat =
      if i.val < s.order then rowDot (s.selected sel) s.order i.val s.vinAt else 0 := by
  have hget : ∀ j, (BitVec.ofNat 5 ((s.vinProduct sel).getD j 0)).toNat =
      if j < s.order then rowDot (s.selected sel) s.order j s.vinAt else 0 := fun j => by
    have hlt := rowDot_lt (s.selected sel) s.order j s.vinAt
    unfold State.vinProduct
    by_cases hj : j < s.order
    · simp only [List.getD_eq_getElem?_getD, List.getElem?_map, List.getElem?_range hj,
        Option.map_some, Option.getD_some, if_pos hj, BitVec.toNat_ofNat]
      omega
    · simp [hj]
  fin_cases i
  exacts [hget 0, hget 1, hget 2]

section
variable {s : State} (sel : KeySel) (hv : s.mkeyValid = true) (hn : s.order = 2 ∨ s.order = 3)
include hv hn

/-- With residues in `VIN`, MVMUL completes with the product in `VOUT` (R157, R158). -/
theorem execMvmul_of_residues (hres : ∀ j, j < s.order → s.vinAt j < 26) :
    execMvmul sel s = .next
      ((s.setVout (s.vinProduct sel)).complete (s.setVout (s.vinProduct sel)).voutWord) := by
  have hfind : (s.vinUsed.find? fun x => decide (26 ≤ x)) = none := by
    rw [List.find?_eq_none, State.vinUsed_eq hn]
    intro x hx
    obtain ⟨j, hj, rfl⟩ := List.mem_map.1 hx
    simpa using hres j (List.mem_range.1 hj)
  rw [State.vinProduct, ← mvmul_eq _ _ hn, ← State.vinUsed_eq hn]
  simp only [execMvmul, hv, if_true, hfind]

/-- The lowest-numbered operand of 26 or more is reported (R158). -/
theorem execMvmul_of_offending {j : Nat} (hj : j < s.order) (hbad : 26 ≤ s.vinAt j)
    (hlow : ∀ l, l < j → s.vinAt l < 26) :
    execMvmul sel s = .next (s.raise .operandRange (BitVec.ofNat 32 (s.vinAt j))) := by
  have hfind : (s.vinUsed.find? fun x => decide (26 ≤ x)) = some (s.vinAt j) := by
    have hj' : ((List.range s.order).find? fun l => decide (26 ≤ s.vinAt l)) = some j :=
      List.find?_range_eq_some.2 ⟨by simpa using hbad, List.mem_range.2 hj,
        fun l hl => by simpa using hlow l hl⟩
    rw [State.vinUsed_eq hn, List.find?_map]
    exact congrArg (Option.map s.vinAt) hj'
  simp only [execMvmul, hv, if_true, hfind]

end

/-- Settles O48: the search for an operand of 26 or more splits the outcomes of a loaded key. -/
theorem mvmulMultipliesVector : Obligations.MvmulMultipliesVector := by
  unfold Obligations.MvmulMultipliesVector
  intro s sel
  refine ⟨?_, fun hv => exec_of_no_mkey hv (.inl ⟨sel, rfl⟩), fun hv hn hres => ?_,
    fun hv hn j hj hbad hlow => execMvmul_of_offending sel hv hn hj hbad hlow⟩
  · exact decode_of_encode_eq rfl (by cases sel <;> rfl)
  · have he := execMvmul_of_residues sel hv hn hres
    rw [State.voutWord_eq] at he
    have hget := s.setVout_vinProduct_get sel
    cases sel <;> exact ⟨_, he, rfl, hget⟩

end Sys2Proof.Machine
end

section
/-! SUPPORT. The matrix cipher on texts, letter by letter: padding, HENC and HDEC as one lemma on a
text written block by block, and the round trip (43_matrix_cipher.md R159 to R165). -/

namespace Sys2Proof.Machine

/-! Padding (R159, R163). -/

theorem pad_length_mod (t : List Byte) {n : Nat} (hn : n = 2 ∨ n = 3) : (pad t n).length % n = 0 := by
  rw [pad_length]
  rcases hn with rfl | rfl <;> omega

/-- A text of whole blocks takes no filler. -/
theorem pad_of_whole {t : List Byte} {n : Nat} (h : t.length % n = 0) : pad t n = t := by
  simp [pad, h]

/-- Settles O36: the count of fillers is a remainder by `n`, and the capacity is a multiple of `n`. -/
theorem paddedTextFits : Obligations.PaddedTextFits := by
  unfold Obligations.PaddedTextFits
  intro t n hn
  exact ⟨⟨_, Nat.mod_lt _ (by omega), rfl⟩, pad_length_mod t hn, pad_of_whole (Nat.zero_mod n),
    fun ht => pad_length_le hn ((normalizeText_length_le t).trans ht)⟩

/-! Whole blocks through a matrix (R160). -/

section
variable (m : Mat Residue) {n : Nat} (hn : n = 2 ∨ n = 3) {p : List Byte} (hp : p.length % n = 0)
include hn hp

theorem hillBlocks_length : (hillBlocks m p n).length = p.length := by
  rw [hillBlocks, hillRun_length m n hn, Nat.mul_div_cancel' (Nat.dvd_of_mod_eq_zero hp)]

theorem hillBlocks_get {a : Nat} (ha : a < p.length) :
    (hillBlocks m p n)[a]? = some (blockLetter m n p a) := by
  have hlen := (Nat.mul_div_cancel' (Nat.dvd_of_mod_eq_zero hp)).symm
  exact hillRun_get m n hn _ p hlen a (hlen ▸ ha)

/-- A text command that writes whole blocks through a matrix: the clause HENC and HDEC share (R162,
R164). -/
theorem exec_of_writes_hillBlocks {i : Instr} {s : State} (hfit : p.length ≤ Config.textMax)
    (he : exec i s = .next ((s.textIn.2.textOut (hillBlocks m p n)).complete
      (BitVec.ofNat 32 (hillBlocks m p n).length))) :
    ∃ t out, exec i s = .next t ∧ HoldsText t out ∧ out.length = p.length ∧
      (∀ a, a < p.length → out[a]? = some (blockLetter m n p a)) ∧
      t.result.toNat = p.length ∧ t.err = 0 ∧ t.errinfo = 0 ∧ OnlyTextChanged s t := by
  have hcap := textMax_bounds
  have hlen := hillBlocks_length m hn hp
  have hres : (BitVec.ofNat 32 p.length).toNat = p.length := by rw [BitVec.toNat_ofNat]; omega
  exact ⟨_, _, he, holdsText_textOut _ _ _ (by omega), hlen, fun a ha => hillBlocks_get m hn hp ha,
    by rw [State.complete_result, hlen, hres], rfl, rfl, rfl⟩

end

/-! HENC and HDEC (R161, R162, R164). -/

theorem execHdec_malformed {s : State} (hv : s.mkeyValid = true)
    (hm : (normalizeText s.textIn.1).length % s.order ≠ 0) :
    execHdec s = .next (s.textIn.2.raise .malformedBlockLength
      (BitVec.ofNat 32 (normalizeText s.textIn.1).length)) := by
  rw [execHdec, if_pos hv]
  exact if_neg hm

/-- The normalised text of a text that fits `TXT` fits it. -/
theorem normalize_textIn_fits {s : State} (ht : s.tlen.toNat ≤ Config.textMax) :
    (normalizeText s.textIn.1).length ≤ Config.textMax :=
  (normalizeText_length_le _).trans (s.textIn_length ▸ ht)

/-- The padded text of a text that fits `TXT` fits it (R163). -/
theorem pad_textIn_fits {s : State} (hn : s.order = 2 ∨ s.order = 3)
    (ht : s.tlen.toNat ≤ Config.textMax) :
    (pad (normalizeText s.textIn.1) s.order).length ≤ Config.textMax :=
  pad_length_le hn (normalize_textIn_fits ht)

/-- Settles O49: the padded text is whole blocks that fit `TXT`. -/
theorem hencEncryptsText : Obligations.HencEncryptsText := by
  unfold Obligations.HencEncryptsText
  exact ⟨by decide, fun s hv => exec_of_no_mkey hv (.inr (.inl rfl)), fun s hv hn ht =>
    exec_of_writes_hillBlocks s.k hn (pad_length_mod _ hn) (pad_textIn_fits hn ht)
      (execHenc_loaded s hv)⟩

/-- Settles O50: the letter count splits the outcomes of a loaded key. -/
theorem hdecDecryptsText : Obligations.HdecDecryptsText := by
  unfold Obligations.HdecDecryptsText
  exact ⟨by decide, fun s hv => exec_of_no_mkey hv (.inr (.inr rfl)), fun s hv hn ht =>
    ⟨fun hp => exec_of_writes_hillBlocks s.ki hn hp (normalize_textIn_fits ht)
        (execHdec_loaded s hv hp),
      fun hp => execHdec_malformed hv hp⟩⟩

/-! A matrix after its inverse (R156, R165). -/

/-- A row times a vector as a sum (R157). -/
theorem rowDot_modEq (m : Mat Residue) (n i : Nat) (v : Nat → Nat) :
    rowDot m n i v ≡ ∑ j ∈ Finset.range n, entry m i j * v j [MOD 26] :=
  Nat.mod_modEq (∑ j ∈ Finset.range n, entry m i j * v j) 26

/-- Inside the register file an element is the element `Mat.at` gives. -/
theorem entry_eq_at (m : Mat Residue) (i j : Fin 3) : entry m i.val j.val = (m.at i j).toNat :=
  dif_pos (by omega)

/-- An element of the product of two key matrices as a sum (R156). -/
theorem mulEntry_eq_sum (a b : Mat Residue) {n : Nat} (hn : n = 2 ∨ n = 3) (i l : Fin 3) :
    mulEntry a b n i l =
      (∑ j ∈ Finset.range n, entry a i.val j * entry b j l.val) % 26 := by
  rcases hn with rfl | rfl <;> simp [mulEntry, Finset.sum_range_succ, ← entry_eq_at]

section
variable {a b : Mat Residue} {n : Nat} (hn : n = 2 ∨ n = 3) (hab : IsIdentity a b n)
include hn hab

/-- The product of inverse matrices is the identity, as a sum (R156). -/
theorem IsIdentity.sum_modEq {i l : Nat} (hi : i < n) (hl : l < n) :
    ∑ j ∈ Finset.range n, entry a i j * entry b j l ≡ if i = l then 1 else 0 [MOD 26] := by
  have hmul := hab ⟨i, by omega⟩ ⟨l, by omega⟩ hi hl
  rw [mulEntry_eq_sum a b hn] at hmul
  simp only [Fin.mk.injEq] at hmul
  unfold Nat.ModEq
  rw [hmul]
  split <;> rfl

/-- The matrix undoes its inverse on a vector of residues: the sums change places and the product of
the matrices is the identity (R165). -/
theorem rowDot_rowDot {v : Nat → Nat} {i : Nat} (hi : i < n) (hv : v i < 26) :
    rowDot a n i (fun j => rowDot b n j v) = v i := by
  have hmod : rowDot a n i (fun j => rowDot b n j v) ≡ v i [MOD 26] :=
    calc rowDot a n i (fun j => rowDot b n j v)
        ≡ ∑ j ∈ Finset.range n, entry a i j * rowDot b n j v [MOD 26] := rowDot_modEq ..
      _ ≡ ∑ j ∈ Finset.range n, entry a i j * ∑ l ∈ Finset.range n, entry b j l * v l [MOD 26] :=
        .sum fun j _ => (rowDot_modEq b n j v).mul_left _
      _ = ∑ l ∈ Finset.range n, (∑ j ∈ Finset.range n, entry a i j * entry b j l) * v l := by
        simp only [Finset.mul_sum, Finset.sum_mul, mul_assoc]
        exact Finset.sum_comm
      _ ≡ ∑ l ∈ Finset.range n, (if i = l then 1 else 0) * v l [MOD 26] :=
        .sum fun l hl => (IsIdentity.sum_modEq hn hab hi (Finset.mem_range.1 hl)).mul_right _
      _ = v i := by simp [hi]
  exact hmod.eq_of_lt_of_lt (rowDot_lt ..) hv

theorem mvmul_mvmul {v : List Nat} (hlen : v.length = n) (hres : ∀ x ∈ v, x < 26) :
    mvmul a (mvmul b v n) n = v := by
  rw [mvmul_list b n hn v hlen, mvmul_eq a n hn]
  apply List.ext_getElem
  · simp [hlen]
  · intro i hi hi'
    have hv := hres _ (List.getElem_mem hi')
    have hget : v.getD i 0 = v[i] := by simp [hi']
    simp only [List.getElem_map, List.getElem_range]
    rw [rowDot_rowDot hn hab (hlen ▸ hi') (hget ▸ hv), hget]

/-- A block of uppercase letters through both matrices (R160). -/
theorem hillBlock_hillBlock {block : List Byte} (hlen : block.length = n)
    (hu : UpperLetters block) : hillBlock a n (hillBlock b n block) = block := by
  obtain ⟨-, -, -, hdecEnc, hencDec⟩ := codecIsBijection
  have hres : ∀ x ∈ block.map codecEnc, x < 26 := by
    intro x hx
    obtain ⟨c, hc, rfl⟩ := List.mem_map.1 hx
    exact codecEnc_lt ((isLetter_iff c).2 (.inl (hu c hc)))
  unfold hillBlock
  rw [hencDec _ (mvmul_lt _ _ _), mvmul_mvmul hn hab (by rw [List.length_map, hlen]) hres,
    hdecEnc _ hu]

theorem hillRun_hillRun (c : Nat) {t : List Byte} (hlen : t.length = n * c) (hu : UpperLetters t) :
    hillRun a n c (hillRun b n c t) = t := by
  induction c generalizing t with
  | zero => exact (List.length_eq_zero_iff.1 hlen).symm
  | succ c ih =>
    have hblock := hillBlock_length b n hn (t.take n)
    rw [Nat.mul_succ] at hlen
    have htake : (t.take n).length = n := by rw [List.length_take]; omega
    have hdrop : (t.drop n).length = n * c := by rw [List.length_drop]; omega
    simp only [hillRun]
    rw [List.take_left' hblock, List.drop_left' hblock,
      hillBlock_hillBlock hn hab htake fun x hx => hu x (List.mem_of_mem_take hx),
      ih hdrop fun x hx => hu x (List.mem_of_mem_drop hx), List.take_append_drop]

/-- Whole blocks of uppercase letters through a matrix and its inverse are the text again (R165). -/
theorem hillBlocks_hillBlocks {p : List Byte} (hp : p.length % n = 0) (hu : UpperLetters p) :
    hillBlocks a (hillBlocks b p n) n = p := by
  have hlen := hillBlocks_length b hn hp
  unfold hillBlocks at hlen ⊢
  rw [hlen]
  exact hillRun_hillRun hn hab _ (Nat.mul_div_cancel' (Nat.dvd_of_mod_eq_zero hp)).symm hu

end

/-! The round trip (R165). -/

theorem upperLetters_hillBlock (m : Mat Residue) (n : Nat) (block : List Byte) :
    UpperLetters (hillBlock m n block) := by
  intro x hx
  obtain ⟨v, hv, rfl⟩ := List.mem_map.1 hx
  have hlt := mvmul_lt _ _ _ v hv
  rw [codecDec_toNat hlt]
  omega

theorem UpperLetters.append {t u : List Byte} (ht : UpperLetters t) (hu : UpperLetters u) :
    UpperLetters (t ++ u) := fun x hx => (List.mem_append.1 hx).elim (ht x) (hu x)

theorem upperLetters_hillRun (m : Mat Residue) (n c : Nat) (t : List Byte) :
    UpperLetters (hillRun m n c t) := by
  induction c generalizing t with
  | zero => exact fun _ hx => absurd hx List.not_mem_nil
  | succ c ih => exact (upperLetters_hillBlock m n _).append (ih _)

/-- The filler is a letter, so padding keeps uppercase letters (R159). -/
theorem UpperLetters.pad {t : List Byte} (h : UpperLetters t) (n : Nat) :
    UpperLetters (pad t n) :=
  h.append fun x hx => by rw [List.eq_of_mem_replicate hx]; decide

/-- HDEC of a text held, already normalised and of whole blocks (R164). -/
theorem execHdec_of_holdsText {t : State} {p : List Byte} (h : HoldsText t p)
    (hv : t.mkeyValid = true) (hn : t.order = 2 ∨ t.order = 3) (hu : UpperLetters p)
    (hp : p.length % t.order = 0) (hfit : p.length ≤ Config.textMax) :
    ∃ u, exec .hdec t = .next u ∧ HoldsText u (hillBlocks t.ki p t.order) := by
  have hcap := textMax_bounds
  have hnorm : normalizeText t.textIn.1 = p := by
    rw [(textIn_of_holdsText h).1, normalizeText_of_upper hu]
  have hlen := hillBlocks_length t.ki hn hp
  refine ⟨_, execHdec_loaded t hv (hnorm ▸ hp), ?_⟩
  rw [hnorm]
  exact holdsText_textOut _ _ _ (by omega)

/-- With a loaded key HENC and then HDEC, on a text that fits `TXT`, leave the padded text (R165). -/
theorem henc_hdec {s : State} (hv : s.mkeyValid = true) (hl : s.MkeyLoaded)
    (ht : s.tlen.toNat ≤ Config.textMax) :
    ∃ t u, exec .henc s = .next t ∧ exec .hdec t = .next u ∧
      HoldsText u (pad (normalizeText s.textIn.1) s.order) := by
  have hcap := textMax_bounds
  have hfit := pad_textIn_fits hl.order ht
  have hwhole := pad_length_mod (normalizeText s.textIn.1) hl.order
  have hlen : (s.hillEnc s.textIn.1).length = (pad (normalizeText s.textIn.1) s.order).length :=
    hillBlocks_length s.k hl.order hwhole
  have hback : hillBlocks s.ki (s.hillEnc s.textIn.1) s.order =
      pad (normalizeText s.textIn.1) s.order :=
    hillBlocks_hillBlocks hl.order hl.left_inverse hwhole
      ((upperLetters_normalizeText s.textIn.1).pad s.order)
  have hupper : UpperLetters (s.hillEnc s.textIn.1) := upperLetters_hillRun _ _ _ _
  have hheld := holdsText_textOut s.textIn.2 (s.hillEnc s.textIn.1)
    (BitVec.ofNat 32 (s.hillEnc s.textIn.1).length) (by omega)
  obtain ⟨u, hdec, hu⟩ := execHdec_of_holdsText hheld hv hl.order hupper
    ((congrArg (· % s.order) hlen).trans hwhole) (hlen ▸ hfit)
  exact ⟨_, u, execHenc_loaded s hv, hdec, hback ▸ hu⟩

/-- Settles O51: a text of uppercase letters in whole blocks is its own normalised and padded form. -/
theorem hillRoundTrip : Obligations.HillRoundTrip := by
  unfold Obligations.HillRoundTrip
  intro s h hv
  obtain ⟨t, u, henc, hdec, hu⟩ := henc_hdec hv (h.mkey hv) h.tlen
  refine ⟨t, u, henc, hdec, hu, fun hupper hwhole => ?_⟩
  rwa [normalizeText_of_upper hupper, pad_of_whole hwhole] at hu

end Sys2Proof.Machine
end

section
/-! SUPPORT. The substitution cipher: the offsets VKEY caches and VSHIFT, VENC and VDEC read, the
texts of VENC and VDEC as one lemma on a text shifted letter by letter, and the round trip
(44_substitution.md R181 to R188). -/

namespace Sys2Proof.Machine

/-- Without a substitution key VSHIFT, VENC and VDEC raise NotConfigured (R185 to R187). -/
theorem exec_of_no_vkey {i : Instr} {s : State} (hv : s.vkeyValid = false)
    (hi : (∃ p v dir, i = .vshift p v dir) ∨ i = .venc ∨ i = .vdec) :
    exec i s = .next (notConfigured s) := by
  have hno : ¬ s.vkeyValid = true := by simp [hv]
  rw [← State.raise_notConfigured]
  rcases hi with ⟨p, v, dir, rfl⟩ | rfl | rfl <;> exact if_neg hno

/-- Zeros laid out above a field leave its number: EmptyKey's detail and VSHIFT's result (R185,
R222). -/
theorem zeros_append_eq (m : Nat) {n : Nat} (x : BitVec n) :
    0#m ++ x = BitVec.ofNat (m + n) x.toNat := by
  have h := ofNat_append (n := m) 0 x.toNat x.isLt
  rwa [Nat.zero_mul, Nat.zero_add, BitVec.ofNat_toNat, BitVec.setWidth_eq] at h

/-! VKEY (R182). -/

/-- A raw key with a letter is installed, and `RESULT` is the new `VOFFLEN`. -/
theorem execVkey_of_letters {s : State} (h : keyOffsets s.keyIn.1 ≠ []) :
    exec .vkey s = .next ((s.keyIn.2.installVkey (keyOffsets s.keyIn.1)).complete
      (0#21 ++ (s.keyIn.2.installVkey (keyOffsets s.keyIn.1)).vofflen)) := by
  obtain ⟨o, os, ho⟩ := List.exists_cons_of_ne_nil h
  simp only [exec, execVkey, ho]

/-- A raw key without a letter clears the key and is reported. -/
theorem execVkey_of_no_letter {s : State} (h : keyOffsets s.keyIn.1 = []) :
    exec .vkey s = .next (s.keyIn.2.clearVkey.raise .emptyKey s.emptyKeyInfo) := by
  simp only [exec, execVkey, h]

/-- An installed offset is read back as the number it is: a residue fits its byte (R181). -/
theorem lookup_voff_installed (s : State) (key : List Byte) {a : Nat}
    (ha : a < (keyOffsets key).length) :
    (Memory.lookup (s.installVkey (keyOffsets key)).voff a).map BitVec.toNat =
      (keyOffsets key)[a]? := by
  have hlt := keyOffsets_lt key _ (List.getElem_mem ha)
  rw [lookup_installVkey s _ a ha, List.getElem?_eq_getElem ha, Option.map_some, BitVec.toNat_ofNat,
    Nat.mod_eq_of_lt (by omega)]

/-- Settles O52: the raw key has a letter exactly if it has an offset to install. -/
theorem vkeyCachesOffsets : Obligations.VkeyCachesOffsets := by
  unfold Obligations.VkeyCachesOffsets
  refine ⟨by decide, fun s _ => ?_⟩
  rw [← keyOffsets_eq]
  refine ⟨fun hne => ?_, fun hnil => ?_⟩
  · have hlen := toNat_keyOffsets_length s
    refine ⟨_, execVkey_of_letters hne, rfl, hlen, fun a ha => lookup_voff_installed _ _ ha, ?_,
      rfl, rfl, rfl⟩
    rw [State.complete_result, toNat_append_add, State.installVkey_vofflen, hlen]
    exact Nat.zero_add _
  · rw [execVkey_of_no_letter hnil, State.emptyKeyInfo, zeros_append_eq]
    rfl

/-! VSHIFT (R185). -/

/-- The offset of a position is one defined byte, so reading it takes no free value. -/
theorem State.VkeyLoaded.offsetAt {s : State} (h : s.VkeyLoaded) (a : Nat) :
    s.offsetAt (a % s.vofflen.toNat) = (offsetOf s a, s) := by
  obtain ⟨b, hb, -, hoff⟩ := h.offset a
  simp only [State.offsetAt, Memory.readByte_some s.draws hb, hoff]
  rfl

/-- With a loaded key VSHIFT gives the shifted residue. -/
theorem execVshift_of_residue {s : State} (hv : s.vkeyValid = true) (hl : s.VkeyLoaded) (p : Nat)
    {v : Nat} (h : v < 26) (dir : Dir) :
    exec (.vshift p v dir) s =
      .next (s.complete (BitVec.ofNat 32 (shiftResidue dir v (offsetOf s p)))) := by
  have hlt := shiftResidue_lt dir v (offsetOf s p)
  have hres : (BitVec.ofNat 5 (shiftResidue dir v (offsetOf s p))).toNat =
      shiftResidue dir v (offsetOf s p) := Nat.mod_eq_of_lt (by omega)
  simp only [exec, execVshift, hv, if_true, Nat.not_le.2 h, if_false, hl.offsetAt,
    zeros_append_eq, hres]

/-- A number of 26 or more fails VSHIFT's check. -/
theorem execVshift_of_offending {s : State} (hv : s.vkeyValid = true) (p : Nat) {v : Nat}
    (h : 26 ≤ v) (dir : Dir) :
    exec (.vshift p v dir) s = .next (s.raise .operandRange (BitVec.ofNat 32 v)) := by
  simp only [exec, execVshift, hv, if_true, h]

/-- Settles O53: the key flag and then the operand's check split the outcomes. -/
theorem vshiftShiftsResidue : Obligations.VshiftShiftsResidue := by
  unfold Obligations.VshiftShiftsResidue
  intro s p v hp hv
  have hwf (dir : Dir) : WellFormed (.vshift p v dir) = true := by simp [WellFormed, hp, hv]
  refine ⟨decode_of_encode_eq (hwf .enc) (layoutV_eq_or 0x41 .enc hp hv),
    decode_of_encode_eq (hwf .dec) (layoutV_eq_or 0x41 .dec hp hv),
    fun hno dir => exec_of_no_vkey hno (.inl ⟨p, v, dir, rfl⟩), fun hk hl h => ?_,
    fun hk h dir => execVshift_of_offending hk p h dir⟩
  obtain ⟨b, -, hb, hoff⟩ := hl.offset p
  rw [← shiftResidue_dec v (offsetOf s p) h (hoff ▸ hb)]
  exact ⟨execVshift_of_residue hk hl p h .enc, execVshift_of_residue hk hl p h .dec⟩

/-! VENC and VDEC (R183, R184, R186, R187). -/

/-- The stored offsets, one for each position below `VOFFLEN`: what a loaded key gives a text
command, whatever the count of free values. -/
def State.storedOffsets (s : State) : List Nat := (List.range s.vofflen.toNat).map (offsetOf s)

/-- With a loaded key the offsets read are the stored ones, and reading them takes no free value. -/
theorem State.VkeyLoaded.offsets_eq {s : State} (h : s.VkeyLoaded) :
    s.offsets = (s.storedOffsets, s) := by
  obtain ⟨hlen, hget, hstate⟩ := h.offsets
  refine Prod.ext (List.ext_getElem (by simp [State.storedOffsets, hlen]) fun a ha _ => ?_) hstate
  have hmod : a % s.vofflen.toNat = a := Nat.mod_eq_of_lt (hlen ▸ ha)
  have hoff := hget a
  rw [hmod, List.getD_eq_getElem _ _ ha] at hoff
  simp [State.storedOffsets, hoff]

/-- The stored offset at a position's place in the key is the position's offset (R183). -/
theorem State.VkeyLoaded.storedOffsets_getD {s : State} (h : s.VkeyLoaded) (a : Nat) :
    s.storedOffsets.getD (a % s.storedOffsets.length) 0 = offsetOf s a := by
  have hlen : s.storedOffsets.length = s.vofflen.toNat := by simp [State.storedOffsets]
  obtain ⟨-, hget, -⟩ := h.offsets
  rw [h.offsets_eq] at hget
  rw [hlen, hget]

/-- A text shifted by a loaded key, letter by letter (R183, R184). -/
theorem State.VkeyLoaded.shifted_get {s : State} (h : s.VkeyLoaded) (dir : Dir) {p : List Byte}
    {a : Nat} {b : Byte} (hb : p[a]? = some b) :
    (vigRun dir s.storedOffsets 0 p)[a]? =
      some (codecDec (shiftResidue dir (codecEnc b) (offsetOf s a))) := by
  rw [vigRun_get, hb, Nat.zero_add, h.storedOffsets_getD, Option.map_some]

/-- The text command of each direction (R186, R187). -/
def shiftCommand : Dir → Instr
  | .enc => .venc
  | .dec => .vdec

/-- With a loaded key the text command writes the normalised text shifted by the stored offsets. -/
theorem exec_shiftCommand_loaded {s : State} (hv : s.vkeyValid = true) (hl : s.VkeyLoaded)
    (dir : Dir) :
    exec (shiftCommand dir) s = .next
      ((s.textIn.2.textOut (vigRun dir s.storedOffsets 0 (normalizeText s.textIn.1))).complete
        (BitVec.ofNat 32 (vigRun dir s.storedOffsets 0 (normalizeText s.textIn.1)).length)) := by
  have hl' : s.textIn.2.VkeyLoaded := SameVkey.loaded (SameVkey.refl s) hl
  cases dir with
  | enc => simp only [shiftCommand, exec, execVenc, hv, if_true, hl'.offsets_eq]; rfl
  | dec => simp only [shiftCommand, exec, execVdec, hv, if_true, hl'.offsets_eq]; rfl

/-- A text command that writes a text shifted by a loaded key: the clause of VENC and VDEC. -/
theorem exec_of_writes_shifted {i : Instr} {s : State} (hl : s.VkeyLoaded) (dir : Dir)
    {p : List Byte} (hfit : p.length ≤ Config.textMax)
    (he : exec i s = .next ((s.textIn.2.textOut (vigRun dir s.storedOffsets 0 p)).complete
      (BitVec.ofNat 32 (vigRun dir s.storedOffsets 0 p).length))) :
    ∃ t out, exec i s = .next t ∧ HoldsText t out ∧ out.length = p.length ∧
      (∀ a b, p[a]? = some b →
        out[a]? = some (codecDec (shiftResidue dir (codecEnc b) (offsetOf s a)))) ∧
      t.result.toNat = p.length ∧ t.err = 0 ∧ t.errinfo = 0 ∧ OnlyTextChanged s t := by
  have hcap := textMax_bounds
  have hlen := vigRun_length dir s.storedOffsets 0 p
  have hres : (BitVec.ofNat 32 p.length).toNat = p.length := by rw [BitVec.toNat_ofNat]; omega
  exact ⟨_, _, he, holdsText_textOut _ _ _ (by omega), hlen, fun a b hb => hl.shifted_get dir hb,
    by rw [State.complete_result, hlen, hres], rfl, rfl, rfl⟩

/-- The value of an uppercase letter is a residue. -/
theorem codecEnc_lt_of_upper {t : List Byte} (h : UpperLetters t) {b : Byte} (hb : b ∈ t) :
    codecEnc b < 26 :=
  codecEnc_lt ((isLetter_iff b).2 (.inl (h b hb)))

/-- Settles O54: both directions shift the normalised text, which fits `TXT`. -/
theorem vencAndVdecShiftText : Obligations.VencAndVdecShiftText := by
  unfold Obligations.VencAndVdecShiftText
  refine ⟨by decide, by decide, fun s hno => ⟨exec_of_no_vkey hno (.inr (.inl rfl)),
    exec_of_no_vkey hno (.inr (.inr rfl))⟩, fun s hv hl ht => ?_⟩
  have hrun (dir : Dir) := exec_of_writes_shifted hl dir (normalize_textIn_fits ht)
    (exec_shiftCommand_loaded hv hl dir)
  refine ⟨hrun .enc, ?_⟩
  obtain ⟨t, out, he, hheld, hlen, hget, hreport⟩ := hrun .dec
  refine ⟨t, out, he, hheld, hlen, fun a b hb => ?_, hreport⟩
  have hres := codecEnc_lt_of_upper (upperLetters_normalizeText _) (List.mem_of_getElem? hb)
  obtain ⟨o, -, ho, hoff⟩ := hl.offset a
  rw [hget a b hb, shiftResidue_dec _ _ hres (hoff ▸ ho)]

/-! The round trip (R188). -/

/-- Subtracting an offset undoes adding it. -/
theorem shiftResidue_dec_enc {v : Nat} (h : v < 26) (o : Nat) :
    shiftResidue .dec (shiftResidue .enc v o) o = v := by
  simp only [shiftResidue]
  omega

/-- Shifting uppercase letters back by the same offsets gives them again. -/
theorem vigRun_dec_enc (o : List Nat) (i : Nat) {t : List Byte} (h : UpperLetters t) :
    vigRun .dec o i (vigRun .enc o i t) = t := by
  induction t generalizing i with
  | nil => rfl
  | cons b bs ih =>
    have hb := h b List.mem_cons_self
    have hres := codecEnc_lt_of_upper h List.mem_cons_self
    simp only [vigRun]
    rw [codecEnc_codecDec (shiftResidue_lt ..), shiftResidue_dec_enc hres,
      codecDec_codecEnc ((isLetter_iff b).2 (.inl hb)), upper_of_upper hb,
      ih (i + 1) fun c hc => h c (List.mem_cons_of_mem b hc)]

/-- With a loaded key the text command leaves the shifted text, and the key as it was. -/
theorem exec_shiftCommand_holdsText {s : State} (hv : s.vkeyValid = true) (hl : s.VkeyLoaded)
    (ht : s.tlen.toNat ≤ Config.textMax) (dir : Dir) :
    ∃ t, exec (shiftCommand dir) s = .next t ∧
      HoldsText t (vigRun dir s.storedOffsets 0 (normalizeText s.textIn.1)) ∧
      t.vkeyValid = true ∧ t.VkeyLoaded ∧ t.storedOffsets = s.storedOffsets := by
  have hcap := textMax_bounds
  have hfit := normalize_textIn_fits ht
  have hlen := vigRun_length dir s.storedOffsets 0 (normalizeText s.textIn.1)
  exact ⟨_, exec_shiftCommand_loaded hv hl dir, holdsText_textOut _ _ _ (by omega), hv,
    SameVkey.loaded (SameVkey.refl s) hl, rfl⟩

/-- Settles O55: VENC leaves uppercase letters and the key it used, so VDEC takes the same offsets
back from the same positions. -/
theorem substitutionRoundTrip : Obligations.SubstitutionRoundTrip := by
  unfold Obligations.SubstitutionRoundTrip
  intro s h hv
  obtain ⟨t, henc, hheld, htv, htl, hoff⟩ := exec_shiftCommand_holdsText hv (h.vkey hv) h.tlen .enc
  have ht : t.tlen.toNat ≤ Config.textMax := by
    rw [hheld.1, vigRun_length]
    exact normalize_textIn_fits h.tlen
  obtain ⟨u, hdec, hu, -⟩ := exec_shiftCommand_holdsText htv htl ht .dec
  rw [(textIn_of_holdsText hheld).1, hoff, normalizeText_of_upper (vigRun_upper _ _ _ _),
    vigRun_dec_enc _ _ (upperLetters_normalizeText s.textIn.1)] at hu
  exact ⟨t, u, henc, hdec, hu⟩

end Sys2Proof.Machine
end

section
/-! SUPPORT. The cipher pipeline on texts: PENC and PDEC as the Hill stage and the substitution
stage composed, and the round trip (45_pipeline.md R202 to R204). -/

namespace Sys2Proof.Machine

/-- Without both keys PENC and PDEC raise NotConfigured (R202, R203). -/
theorem exec_of_no_pipeline {i : Instr} {s : State} (hv : s.pipeValid = false)
    (hi : i = .penc ∨ i = .pdec) : exec i s = .next (notConfigured s) := by
  have hno : ¬ s.pipeValid = true := by simp [hv]
  rw [← State.raise_notConfigured]
  rcases hi with rfl | rfl <;> exact if_neg hno

/-- Two loaded keys are a pipeline (R29). -/
theorem pipeValid_of_keys {s : State} (hm : s.mkeyValid = true) (hk : s.vkeyValid = true) :
    s.pipeValid = true := Bool.and_eq_true_iff.2 ⟨hm, hk⟩

/-! The text each stage gives the other. -/

/-- The Hill output is uppercase letters, so the substitution stage takes it as it is (R202). -/
theorem State.upperLetters_hillEnc (s : State) (text : List Byte) :
    UpperLetters (s.hillEnc text) := upperLetters_hillRun _ _ _ _

/-- The Hill output is as long as the padded text. -/
theorem State.hillEnc_length {s : State} (hn : s.order = 2 ∨ s.order = 3) (text : List Byte) :
    (s.hillEnc text).length = (pad (normalizeText text) s.order).length :=
  hillBlocks_length s.k hn (pad_length_mod _ hn)

/-- The text PDEC's substitution stage gives its Hill stage (R203). -/
def State.shiftedBack (s : State) : List Byte :=
  vigRun .dec s.storedOffsets 0 (normalizeText s.textIn.1)

theorem State.shiftedBack_length (s : State) :
    s.shiftedBack.length = (normalizeText s.textIn.1).length := vigRun_length ..

/-- Each letter has its position's offset subtracted (R184). -/
theorem State.VkeyLoaded.shiftedBack_get {s : State} (h : s.VkeyLoaded) {a : Nat} {b : Byte}
    (hb : (normalizeText s.textIn.1)[a]? = some b) :
    s.shiftedBack[a]? = some (codecDec ((codecEnc b + 26 - offsetOf s a) % 26)) := by
  have hres := codecEnc_lt_of_upper (upperLetters_normalizeText _) (List.mem_of_getElem? hb)
  obtain ⟨o, -, ho, hoff⟩ := h.offset a
  rw [State.shiftedBack, h.shifted_get .dec hb, shiftResidue_dec _ _ hres (hoff ▸ ho)]

/-- A text of that length with those letters is the text shifted back. -/
theorem State.VkeyLoaded.eq_shiftedBack {s : State} (h : s.VkeyLoaded) {v : List Byte}
    (hlen : v.length = (normalizeText s.textIn.1).length)
    (hget : ∀ a b, (normalizeText s.textIn.1)[a]? = some b →
      v[a]? = some (codecDec ((codecEnc b + 26 - offsetOf s a) % 26))) : v = s.shiftedBack := by
  have hlen' := hlen.trans s.shiftedBack_length.symm
  refine List.ext_getElem?' fun a ha => ?_
  have hb := List.getElem?_eq_getElem (l := normalizeText s.textIn.1) (i := a) (by omega)
  rw [hget a _ hb, h.shiftedBack_get hb]

/-! PENC and PDEC with both keys loaded (R202, R203). -/

section
variable {s : State} (hv : s.pipeValid = true) (hl : s.VkeyLoaded)
include hv hl

/-- PENC writes the Hill output shifted by the stored offsets. -/
theorem execPenc_loaded :
    exec .penc s = .next
      ((s.textIn.2.textOut (vigRun .enc s.storedOffsets 0 (s.hillEnc s.textIn.1))).complete
        (BitVec.ofNat 32 (vigRun .enc s.storedOffsets 0 (s.hillEnc s.textIn.1)).length)) := by
  have hl' : s.textIn.2.VkeyLoaded := SameVkey.loaded (SameVkey.refl s) hl
  simp only [exec, execPenc, hv, if_true, hl'.offsets_eq,
    normalizeText_of_upper (s.upperLetters_hillEnc _)]
  rfl

/-- PDEC writes the text shifted back through `KI`, if it is whole blocks, and reports it if not. -/
theorem execPdec_loaded :
    exec .pdec s =
      if s.shiftedBack.length % s.order = 0 then
        .next ((s.textIn.2.textOut (hillBlocks s.ki s.shiftedBack s.order)).complete
          (BitVec.ofNat 32 (hillBlocks s.ki s.shiftedBack s.order).length))
      else .next (s.textIn.2.raise .malformedBlockLength
        (BitVec.ofNat 32 s.shiftedBack.length)) := by
  have hl' : s.textIn.2.VkeyLoaded := SameVkey.loaded (SameVkey.refl s) hl
  simp only [exec, execPdec, hv, if_true, hl'.offsets_eq]
  rfl

end

/-- Settles O58: PENC writes a shifted text, that of the Hill output, whose letters are known. -/
theorem pencEncryptsText : Obligations.PencEncryptsText := by
  unfold Obligations.PencEncryptsText
  refine ⟨by decide, fun s hv => exec_of_no_pipeline hv (.inl rfl), fun s hm hn hk hl ht => ?_⟩
  have hhill := State.hillEnc_length hn s.textIn.1
  obtain ⟨t, out, he, hheld, hlen, hget, hres, hreport⟩ :=
    exec_of_writes_shifted hl .enc (hhill.trans_le (pad_textIn_fits hn ht))
      (execPenc_loaded (pipeValid_of_keys hm hk) hl)
  exact ⟨t, out, he, hheld, hlen.trans hhill,
    fun a ha => hget a _ (hillBlocks_get s.k hn (pad_length_mod _ hn) ha),
    hres.trans hhill, hreport⟩

/-- Settles O59: the letters given are those of the text shifted back, and its length splits the
outcomes. -/
theorem pdecDecryptsText : Obligations.PdecDecryptsText := by
  unfold Obligations.PdecDecryptsText
  refine ⟨by decide, fun s hv => exec_of_no_pipeline hv (.inr rfl),
    fun s v hm hn hk hl ht hlen hget => ?_⟩
  obtain rfl := hl.eq_shiftedBack hlen hget
  have he := execPdec_loaded (pipeValid_of_keys hm hk) hl
  exact ⟨fun hp => exec_of_writes_hillBlocks s.ki hn hp (hlen.trans_le (normalize_textIn_fits ht))
      (he.trans (if_pos hp)),
    fun hp => he.trans (if_neg hp)⟩

/-! The round trip (R204). -/

/-- The Hill output through `KI` is the padded text (R165). -/
theorem State.MkeyLoaded.hillBlocks_hillEnc {s : State} (h : s.MkeyLoaded) (text : List Byte) :
    hillBlocks s.ki (s.hillEnc text) s.order = pad (normalizeText text) s.order :=
  hillBlocks_hillBlocks h.order h.left_inverse (pad_length_mod _ h.order)
    ((upperLetters_normalizeText text).pad s.order)

/-- Of a held text that adds the stored offsets to uppercase letters, the text shifted back is those
letters (R188). -/
theorem shiftedBack_of_holdsText {t : State} {p : List Byte} (hu : UpperLetters p)
    (h : HoldsText t (vigRun .enc t.storedOffsets 0 p)) : t.shiftedBack = p := by
  rw [State.shiftedBack, (textIn_of_holdsText h).1,
    normalizeText_of_upper (vigRun_upper _ _ _ _), vigRun_dec_enc _ _ hu]

/-- PENC leaves the shifted Hill output, and both keys as they were. -/
theorem exec_penc_holdsText {s : State} (hv : s.pipeValid = true) (hl : s.VkeyLoaded)
    (hn : s.order = 2 ∨ s.order = 3) (ht : s.tlen.toNat ≤ Config.textMax) :
    ∃ t, exec .penc s = .next t ∧
      HoldsText t (vigRun .enc t.storedOffsets 0 (s.hillEnc s.textIn.1)) ∧
      t.pipeValid = true ∧ t.VkeyLoaded ∧ t.ki = s.ki ∧ t.order = s.order := by
  have hcap := textMax_bounds
  have hfit := pad_textIn_fits hn ht
  have hhill := State.hillEnc_length hn s.textIn.1
  have hlen := vigRun_length .enc s.storedOffsets 0 (s.hillEnc s.textIn.1)
  exact ⟨_, execPenc_loaded hv hl, holdsText_textOut _ _ _ (by omega), hv,
    SameVkey.loaded (SameVkey.refl s) hl, rfl, rfl⟩

/-- PDEC of a held text that adds the stored offsets to whole blocks `p` of uppercase letters. -/
theorem exec_pdec_of_holdsText {t : State} {p : List Byte}
    (h : HoldsText t (vigRun .enc t.storedOffsets 0 p)) (hv : t.pipeValid = true)
    (hl : t.VkeyLoaded) (hn : t.order = 2 ∨ t.order = 3) (hu : UpperLetters p)
    (hp : p.length % t.order = 0) (hfit : p.length ≤ Config.textMax) :
    ∃ u, exec .pdec t = .next u ∧ HoldsText u (hillBlocks t.ki p t.order) := by
  have hcap := textMax_bounds
  have hlen := hillBlocks_length t.ki hn hp
  have he := execPdec_loaded hv hl
  rw [shiftedBack_of_holdsText hu h, if_pos hp] at he
  exact ⟨_, he, holdsText_textOut _ _ _ (by omega)⟩

/-- With both keys loaded PENC and then PDEC, on a text that fits `TXT`, leave the padded text. -/
theorem penc_pdec {s : State} (hv : s.pipeValid = true) (hm : s.MkeyLoaded) (hl : s.VkeyLoaded)
    (ht : s.tlen.toNat ≤ Config.textMax) :
    ∃ t u, exec .penc s = .next t ∧ exec .pdec t = .next u ∧
      HoldsText u (pad (normalizeText s.textIn.1) s.order) := by
  have hlen := State.hillEnc_length hm.order s.textIn.1
  have hwhole : (s.hillEnc s.textIn.1).length % s.order = 0 := hlen ▸ pad_length_mod _ hm.order
  obtain ⟨t, henc, hheld, htv, htl, hki, horder⟩ := exec_penc_holdsText hv hl hm.order ht
  obtain ⟨u, hdec, hu⟩ := exec_pdec_of_holdsText hheld htv htl (horder ▸ hm.order)
    (s.upperLetters_hillEnc _) (horder ▸ hwhole) (hlen.trans_le (pad_textIn_fits hm.order ht))
  rw [hki, horder, hm.hillBlocks_hillEnc] at hu
  exact ⟨t, u, henc, hdec, hu⟩

/-- Settles O60: a text of uppercase letters in whole blocks is its own normalised and padded
form. -/
theorem pipelineRoundTrip : Obligations.PipelineRoundTrip := by
  unfold Obligations.PipelineRoundTrip
  intro s h hm hk
  obtain ⟨t, u, henc, hdec, hu⟩ :=
    penc_pdec (pipeValid_of_keys hm hk) (h.mkey hm) (h.vkey hk) h.tlen
  refine ⟨t, u, henc, hdec, hu, fun hupper hwhole => ?_⟩
  rwa [normalizeText_of_upper hupper, pad_of_whole hwhole] at hu

end Sys2Proof.Machine
end

section
/-! SUPPORT. Errors and bus errors (60_exceptions.md): the dead error of the key loads (R226), what a
command that raises leaves (R225), and the bus error response of a misaligned offset (R228). -/

namespace Sys2Proof.Machine

/-- Settles O34: a key evaluation that fails does so for its shape or for a determinant that shares a
factor with 26; a determinant coprime to 26 has its inverse found. -/
theorem noModularInverseNeverReported : Obligations.NoModularInverseNeverReported := by
  unfold Obligations.NoModularInverseNeverReported
  intro rows cols kin info
  obtain ⟨-, hshape⟩ | ⟨-, -, d, -, -, ⟨-, hsingular⟩ | ⟨-, di, -, -, -, hkey⟩⟩ :=
    mkeyEval_cases rows cols kin
  · rw [hshape]; nofun
  · rw [hsingular]; nofun
  · rw [hkey]; nofun

/-! A command that raises (R225). -/

/-- The commands that only report write no key. -/
theorem no_key_of_report {i : Instr}
    (hi : i = .nop ∨ (∃ b, i = .cenc b) ∨ (∃ b, i = .cdec b) ∨ (∃ a b, i = .gcd a b) ∨
      (∃ b, i = .minv26 b) ∨ (∃ a b c, i = .mac26 a b c)) : ¬ WritesMkey i ∧ ¬ WritesVkey i := by
  rcases hi with rfl | ⟨b, rfl⟩ | ⟨b, rfl⟩ | ⟨a, b, rfl⟩ | ⟨b, rfl⟩ | ⟨a, b, c, rfl⟩ <;>
    simp [WritesMkey, WritesVkey]

/-- The text commands write no key. -/
theorem no_key_of_writesText {i : Instr} (hi : WritesText i) : ¬ WritesMkey i ∧ ¬ WritesVkey i := by
  rcases hi with rfl | rfl | rfl | rfl | rfl | rfl | rfl <;> simp [WritesMkey, WritesVkey]

/-- A command that ends with an error clears each key it is one to write, then raises; it may have
taken free values before. CLR, which writes both keys, never raises. -/
theorem exec_raised {i : Instr} {s t : State} (h : exec i s = .next t) (herr : t.err ≠ 0) :
    ∃ d e w,
      ((¬ WritesMkey i ∧ ¬ WritesVkey i) ∧ t = (s.withDraws d).raise e w) ∨
      ((WritesMkey i ∧ ¬ WritesVkey i) ∧ t = (s.withDraws d).clearMkey.raise e w) ∨
      ((¬ WritesMkey i ∧ WritesVkey i) ∧ t = (s.withDraws d).clearVkey.raise e w) ∨
      ((WritesMkey i ∧ WritesVkey i) ∧ t = (s.withDraws d).clearMkey.clearVkey.raise e w) := by
  rcases instr_families i with hi | rfl | ⟨p, v, dir, rfl⟩ | ⟨sel, rfl⟩ | ⟨r, c, rfl⟩ | rfl |
    ⟨r, c, rfl⟩ | hi
  · obtain he | ⟨w, he⟩ | ⟨e, w, he⟩ := execReport_cases i s hi <;> cases he.symm.trans h
    · exact absurd rfl herr
    · exact absurd rfl herr
    · exact ⟨s.draws, e, w, .inl ⟨no_key_of_report hi, rfl⟩⟩
  · cases h
    exact absurd rfl herr
  · obtain ⟨d, w, he⟩ | ⟨e, w, he⟩ := execVshift_cases p v dir s <;> cases he.symm.trans h
    · exact absurd rfl herr
    · exact ⟨s.draws, e, w, .inl ⟨by simp [WritesMkey, WritesVkey], rfl⟩⟩
  · obtain ⟨v, w, he⟩ | ⟨e, w, he⟩ := execMvmul_cases sel s <;> cases he.symm.trans h
    · exact absurd rfl herr
    · exact ⟨s.draws, e, w, .inl ⟨by simp [WritesMkey, WritesVkey], rfl⟩⟩
  · obtain ⟨e, w, he⟩ | ⟨key, w, -, he⟩ := execMkey_cases r c s <;> cases he.symm.trans h
    · exact ⟨s.draws, e, w, .inr (.inl ⟨by simp [WritesMkey, WritesVkey], rfl⟩)⟩
    · exact absurd rfl herr
  · obtain ⟨d, ⟨e, w, he⟩ | ⟨w, -, he⟩⟩ := execVkey_cases s <;> cases he.symm.trans h
    · exact ⟨d, e, w, .inr (.inr (.inl ⟨by simp [WritesMkey, WritesVkey], rfl⟩))⟩
    · exact absurd rfl herr
  · obtain ⟨d, ⟨e, w, he⟩ | ⟨key, w, -, -, he⟩⟩ := execPbuild_cases r c s <;>
      cases he.symm.trans h
    · exact ⟨d, e, w, .inr (.inr (.inr ⟨by simp [WritesMkey, WritesVkey], rfl⟩))⟩
    · exact absurd rfl herr
  · obtain ⟨d, ⟨bs, he⟩ | ⟨e, w, he⟩⟩ := execText_cases i s hi <;> cases he.symm.trans h
    · exact absurd rfl herr
    · exact ⟨d, e, w, .inl ⟨no_key_of_writesText hi, rfl⟩⟩

/-- Settles O26: the error comes from one of four states, by the keys the command is one to write, and
each differs from the state before in those keys and the count of free values only. -/
theorem failedCommandChangesOnlyReport : Obligations.FailedCommandChangesOnlyReport := by
  unfold Obligations.FailedCommandChangesOnlyReport
  intro i w s t hp hd h herr
  rw [coreTurn_command hp hd] at h
  have ht := SameText.refl s
  have hh := SameHostRegisters.refl s
  have ho : SameOutside s.takePending s.takePending := ⟨rfl, rfl, rfl, rfl, rfl, rfl⟩
  have hsm := SameMkey.refl s
  have hsv := SameVkey.refl s
  obtain ⟨d, e, info, ⟨⟨hm, hv⟩, rfl⟩ | ⟨⟨hm, hv⟩, rfl⟩ | ⟨⟨hm, hv⟩, rfl⟩ | ⟨⟨hm, hv⟩, rfl⟩⟩ :=
    exec_raised h herr
  · exact ⟨rfl, rfl, ht, hh, ho, fun hw => absurd hw hm, fun _ => hsm, fun hw => absurd hw hv,
      fun _ => hsv, fun _ => rfl⟩
  · exact ⟨rfl, rfl, ht, hh, ho, fun _ => ⟨rfl, rfl, rfl, rfl, rfl, rfl⟩, fun hw => absurd hm hw,
      fun hw => absurd hw hv, fun _ => hsv, fun _ => rfl⟩
  · exact ⟨rfl, rfl, ht, hh, ho, fun hw => absurd hw hm, fun _ => hsm, fun _ => ⟨rfl, rfl⟩,
      fun hw => absurd hv hw, fun _ => rfl⟩
  · exact ⟨rfl, rfl, ht, hh, ho, fun _ => ⟨rfl, rfl, rfl, rfl, rfl, rfl⟩, fun hw => absurd hm hw,
      fun _ => ⟨rfl, rfl⟩, fun hw => absurd hv hw, fun _ => rfl⟩

/-! The bus error response (R62, R228). -/

section
variable {s t : State} {off : Word}

/-- The window's low two bits are those of the offset. -/
theorem windowOffset_misaligned (ha : off.toNat % 4 ≠ 0) : windowOffset off % 4 ≠ 0 := by
  unfold windowOffset
  omega

theorem busRead_misaligned (s : State) (ha : off.toNat % 4 ≠ 0) :
    busRead s off = (0, true, s.draws) := if_neg (windowOffset_misaligned ha)

/-- An aligned read is free of the bus error, whatever its slot. -/
theorem busRead_err_of_aligned (s : State) (ha : off.toNat % 4 = 0) :
    (busRead s off).2.1 = false := by
  simp only [busRead, if_pos (windowOffset_aligned ha)]

theorem memWrite_misaligned (hp : s.pending = none) (ha : off.toNat % 4 ≠ 0) (v : Word) :
    memWrite off v s = .next (s.answer (.written true)) := by
  simp only [memWrite, State.busy_of_pending hp, if_neg (windowOffset_misaligned ha),
    Bool.false_eq_true, if_false]

/-- A read that is answered gives the host what `busRead` sees, a command pending or not. -/
theorem memRead_answer {name : String} (h : memRead off name s = .next t) :
    t.bus = some (.read (busRead s off).1 (busRead s off).2.1) := by
  unfold memRead at h
  split at h
  · cases h
  · cases h; rfl

/-- A write that is answered found no command pending (R257). -/
theorem idle_of_memWrite {v : Word} (h : memWrite off v s = .next t) : s.busy = false := by
  by_contra hb
  rw [memWrite_busy off v (Bool.eq_true_of_not_eq_false hb)] at h
  cases h

end

/-- Settles O12: a misaligned offset stops a transaction before any slot; an aligned one reaches its
slot, and the answer is then without the bus error. -/
theorem misalignedTransactionIsBusError : Obligations.MisalignedTransactionIsBusError := by
  unfold Obligations.MisalignedTransactionIsBusError
  intro s off v name
  refine ⟨fun hp ha => ⟨memWrite_misaligned hp ha v, ?_⟩, fun hp ha => ⟨?_, ?_⟩,
    fun ha t => ⟨fun h => ?_, fun h => ?_⟩⟩
  · rw [memRead_idle s off name (State.busy_of_pending hp), busRead_misaligned s ha]
  · exact ⟨_, memWrite_idle s off v (State.busy_of_pending hp) (windowOffset_aligned ha), rfl⟩
  · have h := memRead_idle s off name (State.busy_of_pending hp)
    rw [busRead_err_of_aligned s ha] at h
    exact ⟨_, _, h, rfl⟩
  · cases (memWrite_idle s off v (idle_of_memWrite h) (windowOffset_aligned ha)).symm.trans h
    rfl
  · exact ⟨_, busRead_err_of_aligned s ha ▸ memRead_answer h⟩

end Sys2Proof.Machine
end

section
/-! SUPPORT. The bus while a command is pending (70_reset_and_hazards.md R257), and what the host
reads of each register, in every state and after reset (R251). -/

namespace Sys2Proof.Machine

/-- An aligned read answers with its slot's value, a command pending or not. -/
theorem busRead_slot {off : Word} (s : State) (ha : windowOffset off % 4 = 0) :
    busRead s off = ((readSlot s (slotAt (windowOffset off))).1, false,
      (readSlot s (slotAt (windowOffset off))).2) := by
  simp only [busRead, if_pos ha]

/-! The two offsets the host may read while a command is pending. -/

theorem readAllowedBusy_iff {off : Word} :
    readAllowedBusy off = true ↔ windowOffset off = 0x000 ∨ windowOffset off = 0x008 := by
  simp only [readAllowedBusy, Bool.or_eq_true, beq_iff_eq]

section
variable {s : State} {off : Word} {name : String}

theorem memRead_hazard (hb : s.busy = true) (h : readAllowedBusy off = false) :
    memRead off name s = hostHazard s := by
  simp only [memRead, hb, h, Bool.not_false, Bool.and_self, if_true]

/-- A read of `ID` or of `STATUS` is answered with what `busRead` sees, a command pending or not. -/
theorem memRead_allowed (h : readAllowedBusy off = true) {v : Word} {e : Bool} {d : Nat}
    (hr : busRead s off = (v, e, d)) :
    memRead off name s = .next { s with
      draws := d, bus := some (.read v e), reads := s.reads ++ [(name, v)] } := by
  simp only [memRead, h, hr, Bool.not_true, Bool.and_false, Bool.false_eq_true, if_false]
  rfl

end

/-- Settles O11: the transactions test `PENDING` before anything else, and let only those two
offsets pass. -/
theorem busyRule : Obligations.BusyRule := by
  unfold Obligations.BusyRule
  intro s off v name hb
  refine ⟨memWrite_busy off v hb, fun ⟨hid, hstatus⟩ => ?_,
    fun (h : windowOffset off = 0x000) => ?_, fun (h : windowOffset off = 0x008) => ?_⟩
  · exact memRead_hazard hb <| Bool.eq_false_iff.2 fun h =>
      (readAllowedBusy_iff.1 h).elim hid hstatus
  · have hr : busRead s off = (0x48563236, false, s.draws) := by
      rw [busRead_slot s (by rw [h]), h]
      rfl
    exact memRead_allowed (readAllowedBusy_iff.2 (.inl h)) hr
  · have hr : busRead s off = (s.statusWord, false, s.draws) := by
      rw [busRead_slot s (by rw [h]), h]
      rfl
    exact memRead_allowed (readAllowedBusy_iff.2 (.inr h)) hr

/-! The value at each offset of the register space. -/

section
variable {off : Word} {o : Nat} {sl : Slot} (s : State) (hsl : slotAt o = sl)
include hsl

theorem readSlot_at (h : windowOffset off = o) :
    (readSlot s (slotAt (windowOffset off))).1 = (readSlot s sl).1 := by rw [h, hsl]

/-- A register narrower than a word reads as its number. -/
theorem readSlot_at_toNat {n : Nat} {x : BitVec n} (hn : n ≤ 32)
    (hx : (readSlot s sl).1 = x.zeroExtend 32) (h : windowOffset off = o) :
    (readSlot s (slotAt (windowOffset off))).1.toNat = x.toNat := by
  rw [readSlot_at s hsl h, hx, BitVec.toNat_setWidth_of_le hn]

end

theorem Mat.get_zero {w : Nat} (idx : Fin 9) : (Mat.zero : Mat (BitVec w)).get idx = 0 := by
  fin_cases idx <;> rfl

theorem Vec.get_zero {w : Nat} (idx : Fin 3) : (Vec.zero : Vec (BitVec w)).get idx = 0 := by
  fin_cases idx <;> rfl

theorem paramsWord_eq_ofNat :
    Config.paramsWord = BitVec.ofNat 32 (65536 * Config.vkeyMax + Config.textMax) := by
  rw [← paramsWord_toNat, BitVec.ofNat_toNat, BitVec.setWidth_eq]

/-- After reset a slot of the register space or of `VOFF` other than `ID` and `PARAMS` reads 0. Of a
word of `VOFF` that is so as `VOFFLEN` is 0. -/
theorem readSlot_reset {sl : Slot} {o : Nat} (hat : sl.StandsAt o) (ha : o % 4 = 0)
    (ho : o < 0x800 ∨ (0xC00 ≤ o ∧ o < 0x1000)) (hid : o ≠ 0x000) (hparams : o ≠ 0x028) :
    (readSlot State.reset sl).1 = 0 := by
  have hcap := vkeyMax_bounds
  cases sl <;> simp only [Slot.StandsAt] at hat
  case id | params | vkb | txt => omega
  case kin | k | ki => simp [readSlot, State.reset, Mat.get_zero]
  case vin | vout => simp [readSlot, State.reset, Vec.get_zero]
  case voff => rw [readSlot, readVoffWord_empty rfl]
  all_goals rfl

/-- Settles O9: what stands at the offset is what the read gives; at reset all but two are 0. -/
theorem registersReadAfterReset : Obligations.RegistersReadAfterReset := by
  unfold Obligations.RegistersReadAfterReset
  refine ⟨fun s off name hp ha (hlt : windowOffset off < 0x800) => ?_, fun off ha ho => ?_⟩
  · refine ⟨_, memRead_slot hp name (windowOffset_aligned ha) rfl
        (Prod.ext rfl (readSlot_register s _ hlt)),
      readSlot_at s (sl := .id) rfl, readSlot_at s (sl := .status) rfl,
      readSlot_at s (sl := .result) rfl, readSlot_at s (sl := .errinfo) rfl,
      readSlot_at_toNat s (sl := .det) rfl (by decide) rfl,
      readSlot_at_toNat s (sl := .detinv) rfl (by decide) rfl,
      readSlot_at_toNat s (sl := .tlen) rfl (by decide) rfl,
      readSlot_at_toNat s (sl := .vklen) rfl (by decide) rfl,
      readSlot_at_toNat s (sl := .vofflen) rfl (by decide) rfl, ?_,
      fun idx => ⟨readSlot_at s (slotAt_kin idx),
        readSlot_at_toNat s (slotAt_k idx) (by decide) rfl,
        readSlot_at_toNat s (slotAt_ki idx) (by decide) rfl⟩,
      fun idx => ⟨readSlot_at s (slotAt_vin idx),
        readSlot_at_toNat s (slotAt_vout idx) (by decide) rfl⟩⟩
    have hparams (h : windowOffset off = 0x028) := readSlot_at s (sl := .params) rfl h
    exact fun h => (congrArg BitVec.toNat (hparams h)).trans paramsWord_toNat
  · rw [busRead_slot _ ha]
    refine ⟨?_, rfl⟩
    split_ifs with hid hparams
    · rw [hid]; rfl
    · rw [hparams]; exact paramsWord_eq_ofNat
    · exact readSlot_reset (slotAt_standsAt _) ha ho hid hparams

end Sys2Proof.Machine
end

section
/-! SUPPORT. Steps and turns: what a command leaves of the host's side, which agent's turn a step is
(00_scope.md R4), what each operation of the host's list does, and the runs these steps make: a `wait`
that ends (70_reset_and_hazards.md R259) and the host statement `exec` (30_encoding.md R90). -/

namespace Sys2Proof.Machine

/-! What commands leave alone. -/

theorem SameOutside.refl (s : State) : SameOutside s s := ⟨rfl, rfl, rfl, rfl, rfl, rfl⟩

/-- Settles O24, family by family: each way a command ends is made of operations that write neither
the host's side nor `VKB`, and CLR alone clears `KIN`, `VIN` and `VKLEN`. -/
theorem commandsLeaveHostSideAlone : Obligations.CommandsLeaveHostSideAlone := by
  unfold Obligations.CommandsLeaveHostSideAlone
  intro i s
  have ho := SameOutside.refl s
  have hh := SameHostRegisters.refl s
  have hvkb (a : Nat) : Memory.lookup s.vkb a = Memory.lookup s.vkb a := rfl
  rcases instr_families i with hi | rfl | ⟨p, v, dir, rfl⟩ | ⟨sel, rfl⟩ | ⟨r, c, rfl⟩ | rfl |
    ⟨r, c, rfl⟩ | hi
  · rcases execReport_cases i s hi with he | ⟨w, he⟩ | ⟨e, w, he⟩ <;>
      exact ⟨_, he, ho, hvkb, fun _ => hh⟩
  · exact ⟨_, rfl, ho, hvkb, fun h => absurd rfl h⟩
  · rcases execVshift_cases p v dir s with ⟨d, w, he⟩ | ⟨e, w, he⟩ <;>
      exact ⟨_, he, ho, hvkb, fun _ => hh⟩
  · rcases execMvmul_cases sel s with ⟨v, w, he⟩ | ⟨e, w, he⟩ <;>
      exact ⟨_, he, ho, hvkb, fun _ => hh⟩
  · rcases execMkey_cases r c s with ⟨e, w, he⟩ | ⟨key, w, -, he⟩ <;>
      exact ⟨_, he, ho, hvkb, fun _ => hh⟩
  · obtain ⟨d, ⟨e, w, he⟩ | ⟨w, -, he⟩⟩ := execVkey_cases s <;>
      exact ⟨_, he, ho, hvkb, fun _ => hh⟩
  · obtain ⟨d, ⟨e, w, he⟩ | ⟨key, w, -, -, he⟩⟩ := execPbuild_cases r c s <;>
      exact ⟨_, he, ho, hvkb, fun _ => hh⟩
  · obtain ⟨d, ⟨bs, he⟩ | ⟨e, w, he⟩⟩ := execText_cases i s hi <;>
      exact ⟨_, he, ho, hvkb, fun _ => hh⟩

/-- Settles O27: completing and raising write the report only; VSHIFT may read an offset before. -/
theorem reportOnlyCommandsFrame : Obligations.ReportOnlyCommandsFrame := by
  unfold Obligations.ReportOnlyCommandsFrame
  refine fun i s => ⟨fun hi => ?_, ?_⟩
  · rcases execReport_cases i s hi with he | ⟨w, he⟩ | ⟨e, w, he⟩ <;>
      exact ⟨_, he, rfl, fun _ => ⟨rfl, rfl, rfl⟩⟩
  · rintro ⟨p, v, dir, rfl⟩
    rcases execVshift_cases p v dir s with ⟨d, w, he⟩ | ⟨e, w, he⟩ <;>
      exact ⟨_, he, rfl, fun _ => ⟨rfl, rfl, rfl⟩⟩

/-- The core's turn always goes on, with `PENDING` empty and nothing else outside the core touched
(R85, R227). -/
theorem coreTurn_next (s : State) : ∃ t, coreTurn s = .next t ∧ SameOutside s.takePending t := by
  cases hp : s.pending with
  | none => exact ⟨s, by simp only [coreTurn, hp], hp, rfl, rfl, rfl, rfl, rfl⟩
  | some w =>
    cases hd : decode w with
    | command i =>
      obtain ⟨t, ht, ho, -, -⟩ := commandsLeaveHostSideAlone i s.takePending
      exact ⟨t, (coreTurn_command hp hd).trans ht, ho⟩
    | illegal why => exact ⟨_, coreTurn_illegal hp hd, SameOutside.refl _⟩

/-! Whose turn a step is. -/

theorem State.busy_of_pending_ne_none {s : State} (hp : s.pending ≠ none) : s.busy = true :=
  Option.isSome_iff_ne_none.2 hp

section
variable {s : State} {rest : List Agent} (hf : s.faultMark = false)
include hf

theorem step_of_nextTurn {a : Agent} (h : s.nextTurn = (a, rest)) :
    step s = turnOf a { s with turns := rest } := by
  simp only [step, machineStep, hf, h, Bool.false_eq_true, if_false]

theorem step_core (h : s.turns = .core :: rest ∨ (s.turns = [] ∧ rest = [] ∧ s.pending ≠ none)) :
    step s = coreTurn { s with turns := rest } := by
  refine step_of_nextTurn (a := .core) hf ?_
  rcases h with ht | ⟨ht, rfl, hp⟩
  · simp only [State.nextTurn, ht]
  · simp only [State.nextTurn, ht, State.busy_of_pending_ne_none hp, if_true]

theorem step_host (h : s.turns = .host :: rest ∨ (s.turns = [] ∧ rest = [] ∧ s.pending = none)) :
    step s = hostTurn { s with turns := rest } := by
  refine step_of_nextTurn (a := .host) hf ?_
  rcases h with ht | ⟨ht, rfl, hp⟩
  · simp only [State.nextTurn, ht]
  · simp only [State.nextTurn, ht, State.busy_of_pending hp, Bool.false_eq_true, if_false]

end

/-! The host's turn, by the first operation of its list (R90, R250). -/

section
variable {s : State} {ops : List HostOp}

theorem hostTurn_nil (h : s.host = []) : hostTurn s = .next s := by
  simp only [hostTurn, h]

theorem hostTurn_read {off : Word} {name : String} (h : s.host = .read off name :: ops) :
    hostTurn s = memRead off name { s with host := ops } := by
  simp only [hostTurn, State.popHost, h, List.tail_cons]

theorem hostTurn_write {off v : Word} (h : s.host = .write off v :: ops) :
    hostTurn s = memWrite off v { s with host := ops } := by
  simp only [hostTurn, State.popHost, h, List.tail_cons]

theorem hostTurn_reset (h : s.host = .reset :: ops) :
    hostTurn s = .next ({ s with host := ops } : State).resetInput := by
  simp only [hostTurn, State.popHost, h, List.tail_cons]

/-- A round of `wait` answers with `STATUS`; the operation is taken off once no command is pending. -/
theorem hostTurn_wait (h : s.host = .wait :: ops) :
    hostTurn s = .next { s with
      host := if s.pending = none then ops else s.host
      bus := some (.read s.statusWord false) } := by
  have hround : hostTurn s = waitRound s := by simp only [hostTurn, h]
  rw [hround, waitRound]
  by_cases hp : s.pending = none
  · rw [if_neg (by simp [State.busy_of_pending hp]), if_pos hp, State.popHost, h]
    rfl
  · rw [if_pos (State.busy_of_pending_ne_none hp), if_neg hp]
    rfl

end

/-- Settles O6: the schedule picks the agent, and each agent's turn is known case by case. With the
schedule used up the list of turns left is `s.turns` itself. -/
theorem stepRunsDecodedCommand : Obligations.StepRunsDecodedCommand := by
  unfold Obligations.StepRunsDecodedCommand
  refine ⟨fun s w i hf hp hd => ⟨fun rest ht => ?_, fun ht => ?_⟩, fun s rest hf h => ?_,
    fun s rest hf h => ?_⟩
  · rw [step_core hf (.inl ht)]
    exact coreTurn_command hp hd
  · rw [step_core hf (.inr ⟨ht, ht, by simp [hp]⟩)]
    exact coreTurn_command hp hd
  · rw [step_core hf h]
    refine ⟨rfl, fun hp => ?_, fun w why hp hd => ?_⟩
    · simp only [coreTurn, hp]
    · exact coreTurn_illegal hp hd
  · rw [step_host hf h]
    refine ⟨rfl, fun hh => ?_, fun off name ops hh => ?_, fun off v ops hh => ?_, fun ops hh => ?_,
      fun ops hh => ?_⟩
    · exact hostTurn_nil hh
    · exact hostTurn_read hh
    · exact hostTurn_write hh
    · exact hostTurn_wait hh
    · exact hostTurn_reset hh

/-- Settles O8: the host's turn is the reset input, which sets every field it names. -/
theorem resetInputSetsResetValues : Obligations.ResetInputSetsResetValues := by
  unfold Obligations.ResetInputSetsResetValues
  intro s rest h
  exact ⟨_, hostTurn_reset h, rfl, fun _ => ⟨rfl, rfl, rfl⟩⟩

/-- Settles O19: the state after reset is its own reset. -/
theorem invHoldsAtReset : Obligations.InvHoldsAtReset := by
  unfold Obligations.InvHoldsAtReset
  exact State.reset.inv_resetInput

/-! `FAULT` (R49). -/

/-- If the outcome is a next state, its `FAULT` is as it was in `s`. -/
def KeepsFaultMark (s : State) (o : Host.Outcome State Fault Refusal) : Prop :=
  ∀ t, o = .next t → t.faultMark = s.faultMark

theorem keepsFaultMark_next {s t : State} (h : t.faultMark = s.faultMark) :
    KeepsFaultMark s (.next t) := by
  rintro _ ⟨⟩
  exact h

theorem keepsFaultMark_fault (s : State) (r : Fault) : KeepsFaultMark s (.fault r) := nofun

@[simp] theorem writeSlot_faultMark (s : State) (v : Word) (sl : Slot) :
    (writeSlot s v sl).faultMark = s.faultMark := by
  cases sl
  case tlen | vklen => simp only [writeSlot]; split <;> rfl
  all_goals rfl

theorem memRead_faultMark (off : Word) (name : String) (s : State) :
    KeepsFaultMark s (memRead off name s) := by
  unfold memRead
  split
  · exact keepsFaultMark_fault _ _
  · exact keepsFaultMark_next rfl

theorem memWrite_faultMark (off v : Word) (s : State) : KeepsFaultMark s (memWrite off v s) := by
  unfold memWrite
  split
  · exact keepsFaultMark_fault _ _
  · dsimp only
    split
    · exact keepsFaultMark_next (writeSlot_faultMark s v _)
    · exact keepsFaultMark_next rfl

theorem hostTurn_faultMark (s : State) : KeepsFaultMark s (hostTurn s) := by
  cases hh : s.host with
  | nil => exact hostTurn_nil hh ▸ keepsFaultMark_next rfl
  | cons op ops =>
    cases op with
    | read off name => exact hostTurn_read hh ▸ memRead_faultMark off name { s with host := ops }
    | write off v => exact hostTurn_write hh ▸ memWrite_faultMark off v { s with host := ops }
    | wait => exact hostTurn_wait hh ▸ keepsFaultMark_next rfl
    | reset => exact hostTurn_reset hh ▸ keepsFaultMark_next rfl

theorem coreTurn_faultMark (s : State) : KeepsFaultMark s (coreTurn s) := by
  obtain ⟨t, ht, -, hfault, -⟩ := coreTurn_next s
  exact ht ▸ keepsFaultMark_next hfault

theorem turnOf_faultMark (a : Agent) (s : State) : KeepsFaultMark s (turnOf a s) := by
  cases a
  exacts [hostTurn_faultMark s, coreTurn_faultMark s]

/-- A step of a marked state is the hazard again, and the state it carries is the state itself. -/
theorem step_of_faultMark {s : State} (h : s.faultMark = true) :
    step s = .fault (.hostHazard s) := by
  have hs : { s with faultMark := true } = s := by rw [← h]
  simp only [step, machineStep, h, if_true, hostHazard, hs]

/-- Settles O21: a marked state only faults, and neither agent's turn writes `FAULT`. -/
theorem faultMarkNeverCleared : Obligations.FaultMarkNeverCleared := by
  unfold Obligations.FaultMarkNeverCleared
  refine fun s t => ⟨fun h => ?_, step_of_faultMark⟩
  cases hf : s.faultMark with
  | true => rw [step_of_faultMark hf] at h; cases h
  | false =>
    rw [step_of_nextTurn hf (a := s.nextTurn.1) rfl] at h
    exact (turnOf_faultMark _ _ t h).trans hf

/-! Runs (R90, R259). -/

/-- With a word pending and the schedule used up, two steps run the core and end the `wait`. -/
theorem run_core_wait {s : State} {rest : List HostOp} (hf : s.faultMark = false)
    (hp : s.pending ≠ none) (hh : s.host = .wait :: rest) (ht : s.turns = []) :
    ∃ t, coreTurn s = .next t ∧ t.pending = none ∧ t.faultMark = false ∧
      Sys2Proof.core.run 2 s =
        .next { t with host := rest, bus := some (.read t.statusWord false) } := by
  obtain ⟨t, hturn, (hpend : t.pending = none), hfault, -, -, hhost, hturns⟩ := coreTurn_next s
  have hft := hfault.trans hf
  have htt := hturns.trans ht
  have hcore : step s = .next t := (step_core hf (.inr ⟨ht, ht, hp⟩)).trans hturn
  have hwait : step t = .next { t with host := rest, bus := some (.read t.statusWord false) } := by
    refine (step_host hft (.inr ⟨htt, htt, hpend⟩)).trans ((hostTurn_wait (hhost.trans hh)).trans ?_)
    rw [if_pos hpend]
  exact ⟨t, hturn, hpend, hft, (run_next Sys2Proof.core 1 s t hcore).trans
    (run_next Sys2Proof.core 0 t _ hwait)⟩

/-- Settles O22, by induction on the host turns scheduled first: each is a round of `wait` that finds
the core busy and leaves all but its answer. -/
theorem waitEndsAfterTheCommand : Obligations.WaitEndsAfterTheCommand := by
  unfold Obligations.WaitEndsAfterTheCommand
  intro s w rest k hf hp hh ht
  have hbusy : s.pending ≠ none := by simp [hp]
  induction k generalizing s with
  | zero =>
    obtain ⟨t, -, hpend, hft, hrun⟩ := run_core_wait hf hbusy hh ht
    exact ⟨_, hrun, hpend, rfl, hft⟩
  | succ k ih =>
    have hround := hostTurn_wait (s := { s with turns := List.replicate k .host }) hh
    rw [if_neg hbusy] at hround
    have hstep := (step_host hf (.inl ht)).trans hround
    obtain ⟨t, hrun, hpost⟩ := ih { s with
      turns := List.replicate k .host, bus := some (.read s.statusWord false) } hf hp hh rfl hbusy
    exact ⟨t, (run_next Sys2Proof.core (k + 2) s _ hstep).trans hrun, hpost⟩

/-- Settles O23: the write to `CMD`, then the core's turn on the word written, which decodes to the
command, and the round of `wait` after it. -/
theorem hostExecRunsTheCommand : Obligations.HostExecRunsTheCommand := by
  unfold Obligations.HostExecRunsTheCommand
  intro s i rest hwf hf hp ht hh
  have hexpand : HostStmt.expand (.exec i) = some [.write 0x004 (encode i), .wait] := by
    simp only [HostStmt.expand, assemble, hwf, if_true, Option.map_some]
  have hissue : step s = .next { s with
      pending := some (encode i), host := .wait :: rest, bus := some (.written false) } := by
    obtain ⟨hidle, -⟩ := cmdWriteIssuesCommand { s with host := .wait :: rest } (encode i)
    obtain ⟨hwrite, -⟩ := hidle hp
    exact (step_host hf (.inr ⟨ht, ht, hp⟩)).trans ((hostTurn_write hh).trans hwrite)
  obtain ⟨t, hturn, -, -, hrun⟩ := run_core_wait (s := { s with
    pending := some (encode i), host := .wait :: rest, bus := some (.written false) }) hf
    nofun rfl ht
  rw [coreTurn_command rfl (decodeOfEncodeIsIdentity i hwf), State.takePending, ← hp] at hturn
  exact ⟨hexpand, t, hturn, (run_next Sys2Proof.core 2 s _ hissue).trans hrun⟩

end Sys2Proof.Machine
end

section
/-! SUPPORT. Reads that change nothing of the core (20_memory.md R68), the free values a read of
undefined bytes takes (R77), and the text and the raw key as runs of such reads (R116, R181). -/

namespace Sys2Proof.Machine

/-! A read of the window (R68). -/

theorem busRead_mono (s : State) (off : Word) : s.draws ≤ (busRead s off).2.2 := by
  by_cases ha : windowOffset off % 4 = 0
  · rw [busRead_slot s ha]
    exact readSlot_mono s _
  · simp only [busRead, if_neg ha, le_refl]

/-- A read sees neither the ports' answer nor the host's named values. -/
theorem busRead_of_host_side (s : State) (bus : Option BusAnswer) (reads : List (String × Word))
    (off : Word) : busRead { s with bus, reads } off = busRead s off := by
  have hslot (sl : Slot) : readSlot { s with bus, reads } sl = readSlot s sl := by cases sl <;> rfl
  simp only [busRead, hslot]

/-- A read answers with what `busRead` sees. -/
theorem memRead_of_busRead {s : State} (hp : s.pending = none) {off : Word} (name : String)
    {v : Word} {e : Bool} {d : Nat} (h : busRead s off = (v, e, d)) :
    memRead off name s = .next { s with
      draws := d, bus := some (.read v e), reads := s.reads ++ [(name, v)] } := by
  rw [memRead_idle s off name (State.busy_of_pending hp), h]

/-- Settles O13: a read moves the host's side and the count of free values only, and a read that left
that count sees the same core when it is made again. -/
theorem readsHaveNoSideEffects : Obligations.ReadsHaveNoSideEffects := by
  unfold Obligations.ReadsHaveNoSideEffects
  intro s off name hp
  have hmono := busRead_mono s off
  rcases hr : busRead s off with ⟨v, e, d⟩
  rw [hr] at hmono
  refine ⟨v, e, d, hmono, memRead_of_busRead hp name hr, ?_⟩
  rintro rfl
  have hagain := (busRead_of_host_side s (some (.read v e)) (s.reads ++ [(name, v)]) off).trans hr
  exact memRead_of_busRead (s := { s with
    bus := some (.read v e), reads := s.reads ++ [(name, v)] }) hp name hagain

/-! Free values (R77). -/

/-- A run of reads takes one free value for each undefined byte in it. -/
theorem Memory.readBytes_draws_eq (m : Memory) (len a d : Nat) :
    (Memory.readBytes m a len d).2 =
      d + ((List.range len).filter fun j => (Memory.lookup m (a + j)).isNone).length := by
  induction len generalizing a d with
  | zero => rfl
  | succ len ih =>
    have hshift : (fun j => (Memory.lookup m (a + j)).isNone) ∘ Nat.succ =
        fun j => (Memory.lookup m (a + 1 + j)).isNone := by
      funext j
      simp only [Function.comp, Nat.succ_eq_add_one, Nat.add_assoc, Nat.add_comm 1]
    simp only [Memory.readBytes, ih, List.range_succ_eq_map, List.filter_cons, List.filter_map,
      hshift, Nat.add_zero]
    cases ha : Memory.lookup m a with
    | none => simp [Memory.readByte_none d ha]; omega
    | some b => simp [Memory.readByte_some d ha]

/-- Settles O18: one byte by whether it is defined, and a run by the count of those that are not. -/
theorem unwrittenBytesReadAsFreshValues : Obligations.UnwrittenBytesReadAsFreshValues := by
  unfold Obligations.UnwrittenBytesReadAsFreshValues
  refine fun m a d => ⟨fun h => ?_, fun b h => Memory.readByte_some d h,
    fun len => Memory.readBytes_draws_eq m len a d⟩
  rw [Memory.readByte_none d h]
  exact ⟨rfl, Memory.readByte_none (d + 1) h⟩

/-! The text and the raw key (R116, R181). -/

/-- What a read of the first `len` bytes of a buffer gives, byte by byte, and that defined bytes take
no free value. -/
theorem Memory.readBytes_from_zero (m : Memory) (len d : Nat) :
    (∀ a b, a < len → Memory.lookup m a = some b → (Memory.readBytes m 0 len d).1[a]? = some b) ∧
    (∀ a, a < len → Memory.lookup m a = none →
      (Memory.readBytes m 0 len d).1[a]? = some (Config.draw (d +
        ((List.range a).filter fun j => (Memory.lookup m j).isNone).length))) ∧
    (Memory.defined m 0 len = true → (Memory.readBytes m 0 len d).2 = d) := by
  refine ⟨fun a b ha h => ?_, fun a ha h => ?_, fun h => ?_⟩
  · exact Memory.readBytes_get m len 0 d a b ha (by rwa [Nat.zero_add])
  · have hfree := Memory.readBytes_free m len 0 d a ha (by rwa [Nat.zero_add])
    simpa only [Nat.zero_add] using hfree
  · refine Memory.readBytes_draws m len 0 d fun j hj => ?_
    exact List.all_eq_true.1 h j (List.mem_range.2 hj)

/-- Settles O42: the text and the raw key are each one read from element 0. -/
theorem textInReadsTheBuffer : Obligations.TextInReadsTheBuffer := by
  unfold Obligations.TextInReadsTheBuffer
  intro s
  obtain ⟨htext, htextFree, htextDraws⟩ :=
    Memory.readBytes_from_zero s.txt s.tlen.toNat s.draws
  obtain ⟨hkey, hkeyFree, hkeyDraws⟩ := Memory.readBytes_from_zero s.vkb s.vklen.toNat s.draws
  exact ⟨⟨s.textIn_length, htext, htextFree, rfl, fun h => congrArg s.withDraws (htextDraws h)⟩,
    s.keyIn_length, hkey, hkeyFree, rfl, fun h => congrArg s.withDraws (hkeyDraws h)⟩

end Sys2Proof.Machine
end

section
/-! SUPPORT. Loading keys: the inverse modulo 26 and the adjugate as the obligations state them
(42_modular_arith.md R133, 43_matrix_cipher.md R152), the determinant of the integers in `KIN`, MKEY
(R153 to R155) and PBUILD (45_pipeline.md R201). -/

namespace Sys2Proof.Machine

/-- Settles O32: an inverse makes the residue coprime to 26, and the search finds every inverse. -/
theorem minv26FindsTheOnlyInverse : Obligations.Minv26FindsTheOnlyInverse := by
  unfold Obligations.Minv26FindsTheOnlyInverse
  refine fun a ha => ⟨⟨fun h => ?_, fun h => ?_⟩, minv26_eq_some_iff a⟩
  · obtain ⟨x, hx⟩ := Option.isSome_iff_exists.1 h
    obtain ⟨-, -, hinv⟩ := inverse_of_minv26 hx
    exact Nat.coprime_of_mul_modEq_one x hinv
  · obtain ⟨x, hx, -⟩ := minv26_of_coprime a ha h
    exact Option.isSome_iff_exists.2 ⟨x, hx⟩

/-- Settles O33: one product of integer matrices on each side. -/
theorem adjugateTimesMatrixIsDeterminant : Obligations.AdjugateTimesMatrixIsDeterminant := by
  unfold Obligations.AdjugateTimesMatrixIsDeterminant
  exact fun k n hn i j hi hj => ⟨intProduct_adj k hn hi hj, intProduct_adj_left k hn hi hj⟩

/-! `mkey_eval` by the determinant of the integers in `KIN`, unreduced (R151, R153). -/

section
variable {kin : Mat Word} {n d : Nat} (hn : n = 2 ∨ n = 3)
include hn

/-- Reducing `KIN` first leaves the determinant's residue. -/
theorem det_reduceKin_mod :
    det (matInt (reduceKin kin n)) n % 26 = det (kinInts kin) n % 26 :=
  det_congr hn (matCongr_reduceKin kin n)

/-- The inverse key is the inverse determinant times the adjugate of the integers in `KIN`. -/
theorem invertKey_reduceKin_toNat (di : Nat) (idx : Fin 9) :
    (((invertKey (reduceKin kin n) n di).get idx).toNat : Int) =
      if inBlock n idx then di * (adj (kinInts kin) n).get idx % 26 else 0 := by
  rw [invertKey_toNat]
  split
  · next hin => exact (adj_congr hn (matCongr_reduceKin kin n) idx hin).mul_left _
  · rfl

variable (hd : (d : Int) = det (kinInts kin) n % 26)
include hd

/-- The determinant's residue decides between SingularKey and a key. -/
theorem mkeyEval_of_det :
    (Nat.gcd d 26 ≠ 1 →
      mkeyEval n n kin = .error (.singularKey, singularInfo (Nat.gcd d 26) d)) ∧
    (Nat.gcd d 26 = 1 → ∃ di, di < 26 ∧ d * di % 26 = 1 ∧
      mkeyEval n n kin = .ok ⟨n, reduceKin kin n, invertKey (reduceKin kin n) n di, d, di⟩) := by
  obtain ⟨hshape, -⟩ | ⟨-, -, d', -, hd', hcase⟩ := mkeyEval_cases n n kin
  · exact absurd ⟨rfl, hn⟩ hshape
  · rw [det_reduceKin_mod hn, ← hd, Nat.cast_inj] at hd'
    subst hd'
    obtain ⟨hne, he⟩ | ⟨hone, di, -, hle, hinv, he⟩ := hcase
    · exact ⟨fun _ => he, fun h => absurd h hne⟩
    · exact ⟨fun h => absurd hone h, fun _ => ⟨di, by omega, hinv, he⟩⟩

end

/-! The words of the key commands (R155, R201, R222). -/

theorem shapeInfo_eq {r c : Nat} (hr : r < 16) (hc : c < 16) :
    shapeInfo r c = BitVec.ofNat 32 (16 * r + c) := by
  apply BitVec.eq_of_toNat_eq
  simp only [shapeInfo, toNat_append_add, BitVec.toNat_ofNat]
  omega

theorem singularInfo_eq {g d : Nat} (hg : g ≤ 26) (hd : d < 26) :
    singularInfo g d = BitVec.ofNat 32 (256 * g + d) := by
  apply BitVec.eq_of_toNat_eq
  simp only [singularInfo, toNat_append_add, BitVec.toNat_ofNat]
  omega

theorem State.mkeyResult_eq (s : State) :
    s.mkeyResult = BitVec.ofNat 32 (256 * s.detinv.toNat + s.det.toNat) := by
  apply BitVec.eq_of_toNat_eq
  simp only [State.mkeyResult, toNat_append_add, BitVec.toNat_ofNat]
  omega

theorem State.pbuildResult_eq (s : State) :
    s.pbuildResult =
      BitVec.ofNat 32 (65536 * s.vofflen.toNat + 256 * s.detinv.toNat + s.det.toNat) := by
  apply BitVec.eq_of_toNat_eq
  simp only [State.pbuildResult, toNat_append_add, BitVec.toNat_ofNat]
  omega

/-! MKEY (R155). -/

theorem execMkey_of_error {r c : Nat} {s : State} {e : ErrCode} {w : Word}
    (h : mkeyEval r c s.kin = .error (e, w)) :
    exec (.mkey r c) s = .next (s.clearMkey.raise e w) := by
  simp only [exec, execMkey, h]

theorem execMkey_of_ok {r c : Nat} {s : State} {key : MatrixKey}
    (h : mkeyEval r c s.kin = .ok key) :
    exec (.mkey r c) s =
      .next ((s.installMkey key).complete (s.installMkey key).mkeyResult) := by
  simp only [exec, execMkey, h]

/-- A shape operand pair below 16 fits its fields (R89). -/
theorem wellFormed_shape {r c : Nat} (hr : r < 16) (hc : c < 16) :
    WellFormed (.mkey r c) = true ∧ WellFormed (.pbuild r c) = true := by
  simp [WellFormed, hr, hc]

/-- Settles O46: the two errors of `mkey_eval` and the words they report. -/
theorem mkeyRejectsBadKeys : Obligations.MkeyRejectsBadKeys := by
  unfold Obligations.MkeyRejectsBadKeys
  intro s r c hr hc
  obtain ⟨hwf, -⟩ := wellFormed_shape hr hc
  refine ⟨decode_of_encode_eq hwf (layoutK_eq_or 0x30 hr hc), fun hshape => ?_, ?_⟩
  · rw [← shapeInfo_eq hr hc]
    exact execMkey_of_error (if_neg hshape)
  · rintro ⟨rfl, hn⟩ d hd hg
    have hle : Nat.gcd d 26 ≤ 26 := Nat.gcd_le_right d (by decide)
    obtain ⟨hsingular, -⟩ := mkeyEval_of_det hn hd
    rw [← singularInfo_eq hle (by omega)]
    exact execMkey_of_error (hsingular hg)

/-- Settles O47: the key `mkey_eval` answers, installed. -/
theorem mkeyLoadsGoodKeys : Obligations.MkeyLoadsGoodKeys := by
  unfold Obligations.MkeyLoadsGoodKeys
  intro s n d hn hd hg
  obtain ⟨-, hcoprime⟩ := mkeyEval_of_det hn hd
  obtain ⟨di, hdi, hinv, hkey⟩ := hcoprime hg
  have hd5 : (BitVec.ofNat 5 d).toNat = d := by rw [BitVec.toNat_ofNat]; omega
  have hdi5 : (BitVec.ofNat 5 di).toNat = di := by rw [BitVec.toNat_ofNat]; omega
  refine ⟨_, execMkey_of_ok hkey, ?_, ?_⟩
  · rw [State.mkeyResult_eq, State.installMkey_det, hd5]
    rfl
  · simp only [State.complete_detinv, State.installMkey_detinv, hdi5]
    exact ⟨hdi, hinv, fun idx =>
      ⟨reduceKin_toNat s.kin n idx, invertKey_reduceKin_toNat hn di idx⟩⟩

/-! PBUILD (R201). -/

section
variable {r c : Nat} {s : State}

theorem execPbuild_of_error {e : ErrCode} {w : Word} (h : mkeyEval r c s.kin = .error (e, w)) :
    exec (.pbuild r c) s = .next (s.clearMkey.clearVkey.raise e w) := by
  simp only [exec, execPbuild, h]

theorem execPbuild_of_no_letter {key : MatrixKey} (h : mkeyEval r c s.kin = .ok key)
    (hk : keyOffsets s.keyIn.1 = []) :
    exec (.pbuild r c) s =
      .next (s.keyIn.2.clearMkey.clearVkey.raise .emptyKey s.emptyKeyInfo) := by
  simp only [exec, execPbuild, h, hk]

/-- The state with the matrix key `key` and the offsets of the raw key installed. -/
def State.installKeys (s : State) (key : MatrixKey) : State :=
  (s.keyIn.2.installMkey key).installVkey (keyOffsets s.keyIn.1)

theorem execPbuild_of_ok {key : MatrixKey} (h : mkeyEval r c s.kin = .ok key)
    (hk : keyOffsets s.keyIn.1 ≠ []) :
    exec (.pbuild r c) s =
      .next ((s.installKeys key).complete (s.installKeys key).pbuildResult) := by
  obtain ⟨o, os, ho⟩ := List.exists_cons_of_ne_nil hk
  simp only [exec, execPbuild, State.installKeys, h, ho]

end

/-- Settles O56: the same two evaluations decide MKEY, VKEY and PBUILD. -/
theorem pbuildLoadsBothOrNeither : Obligations.PbuildLoadsBothOrNeither := by
  unfold Obligations.PbuildLoadsBothOrNeither
  intro s m v r c hr hc hm hv
  obtain ⟨-, hwf⟩ := wellFormed_shape hr hc
  refine ⟨decode_of_encode_eq hwf (layoutK_eq_or 0x50 hr hc), ?_⟩
  cases hkey : mkeyEval r c s.kin with
  | error ew =>
    obtain ⟨e, w⟩ := ew
    cases (execMkey_of_error hkey).symm.trans hm
    have herr : (s.clearMkey.raise e w).err ≠ 0 := e.code_ne_zero
    exact ⟨fun _ => execPbuild_of_error hkey, fun h => absurd h herr, fun h => absurd h herr⟩
  | ok key =>
    cases (execMkey_of_ok hkey).symm.trans hm
    refine ⟨fun h => absurd rfl h, ?_⟩
    by_cases hk : keyOffsets s.keyIn.1 = []
    · cases (execVkey_of_no_letter hk).symm.trans hv
      exact ⟨fun _ _ => execPbuild_of_no_letter hkey hk,
        fun _ h => absurd h (ErrCode.code_ne_zero .emptyKey)⟩
    · cases (execVkey_of_letters hk).symm.trans hv
      refine ⟨fun _ h => absurd rfl h, fun _ _ => ?_⟩
      rw [execPbuild_of_ok hkey hk, State.pbuildResult_eq]
      rfl

/-- Settles O57: both evaluations succeed, and the counts and numbers fit their registers. -/
theorem pbuildCompletes : Obligations.PbuildCompletes := by
  unfold Obligations.PbuildCompletes
  intro s n d hn hd hg _ hletter
  obtain ⟨-, hcoprime⟩ := mkeyEval_of_det hn hd
  obtain ⟨di, -, -, hkey⟩ := hcoprime hg
  have hk : keyOffsets s.keyIn.1 ≠ [] := by
    rw [keyOffsets_eq]
    exact fun h => hletter (List.map_eq_nil_iff.1 h)
  have hcount : (keyOffsets s.keyIn.1).length = (s.keyIn.1.filter isLetter).length := by
    rw [keyOffsets_eq, List.length_map]
  have horder : (BitVec.ofNat 2 n).toNat = n := by rw [BitVec.toNat_ofNat]; omega
  have hdet : (BitVec.ofNat 5 d).toNat = d := by rw [BitVec.toNat_ofNat]; omega
  exact ⟨_, execPbuild_of_ok hkey hk, rfl, rfl, rfl, horder, hdet,
    (toNat_keyOffsets_length s).trans hcount⟩

end Sys2Proof.Machine
end
